-- ==== Sys2Proof/Word.lean ====
section
/-! DEFINITION. The word types of WASABI-CORE: the 32-bit word of format `F` (00_scope.md R5) and the 64-bit command
packet (30_encoding.md R60, R61), with the plainest views of their bits. -/

namespace Sys2Proof

/-- A word of format `F`: the bit pattern of an IEEE 754 binary32 value (00_scope.md R5). -/
abbrev F := BitVec 32

/-- One command packet, a 64-bit unit (30_encoding.md R60). -/
abbrev Packet := BitVec 64

/-- The sign bit `bits[31]` of a word (R5). -/
def fsign (x : F) : Bool := decide (2 ^ 31 ≤ x.toNat)

/-- `bits[30:0]` of a word: exponent and fraction together. On words of one sign this orders as the values do (R5). -/
def fmag (x : F) : Nat := x.toNat % 2 ^ 31

/-- The word with sign bit `sign` and `bits[30:0] = mag`. -/
def fpack (sign : Bool) (mag : Nat) : F := BitVec.ofNat 32 (mag % 2 ^ 31 + if sign then 2 ^ 31 else 0)

end Sys2Proof
end

