-- ==== Sys2Proof/Syntax.lean ====
section
/-! DEFINITION. The instructions of WASABI-CORE as syntax: one constructor for each of the 21 rows of
spec/opcode_table.json (30_encoding.md section 1): nine command packets, nine sequencer phases, three shapers. -/

namespace Sys2Proof

/-- A channel number, one bit (10_state.md R16 `CH`, 30_encoding.md R63 `c = SEL[0]`). -/
inductive Chan where
  | c0
  | c1
deriving DecidableEq, Repr

/-- The ten parameter names, in index order 0 to 9 (10_state.md R11). -/
inductive Param where
  | drive
  | range
  | blend
  | volume
  | midFreq
  | midGain
  | highPassFreq
  | lowPassFreq
  | distortionType
  | bypass
deriving DecidableEq, Repr

/-- The three filter roles (10_state.md R19, R20). -/
inductive Role where
  | hp
  | mid
  | lp
deriving DecidableEq, Repr

/-- The instructions. An index or a count is a natural number; WellFormed.lean says which ones a packet can carry. A
packet does not say on which port it arrives (30_encoding.md R60). -/
inductive Instr where
  /-- NOP (R160). -/
  | nop
  /-- PREPARE: block size `n = IDX`, sample rate `fs = DATA` (R161). -/
  | prepare (n : Nat) (fs : F)
  /-- PROCESS: `nout = SEL[3:2]`, `nin = SEL[1:0]` (R162). -/
  | process (nout : Nat) (nin : Nat)
  /-- RELEASE (R163). -/
  | release
  /-- WRP: parameter index `idx = SEL`, value `v = DATA` (R164). -/
  | wrp (idx : Nat) (v : F)
  /-- RDP: parameter index `idx = SEL` (R165). -/
  | rdp (idx : Nat)
  /-- WRB: channel `c = SEL[0]`, sample index `i = IDX`, sample `v = DATA` (R166). -/
  | wrb (c : Chan) (i : Nat) (v : F)
  /-- RDB: channel `c = SEL[0]`, sample index `i = IDX` (R167). -/
  | rdb (c : Chan) (i : Nat)
  /-- RDS (R168). -/
  | rds
  /-- Phase LATCH, code 1 (R139). -/
  | latch
  /-- Phase CLEAR, code 2 (R141). -/
  | clear
  /-- Phase COEF, code 3 (R80). -/
  | coef
  /-- Phase UP, code 4 (R102). -/
  | up
  /-- Phase HPF, code 5 (R136). -/
  | hpf
  /-- Phase MID, code 6 (R136). -/
  | mid
  /-- Phase DIST, code 7 (R124). -/
  | dist
  /-- Phase LPF, code 8 (R136). -/
  | lpf
  /-- Phase DOWN, code 9 (R103). -/
  | down
  /-- SHAPE.WA, type code 0 (R119). -/
  | shapeWa
  /-- SHAPE.SA, type code 1 (R120). -/
  | shapeSa
  /-- SHAPE.BI, type code 2 (R121). -/
  | shapeBi
deriving DecidableEq, Repr

end Sys2Proof
end

