-- ==== Sys2Proof/Config.lean ====
section
/-! DEFINITION. What an implementation fixes (00_scope.md section 3, 10_state.md R27, 70_reset_and_hazards.md R204) and
the free values: constants with no body, of which nothing can be proved but their type. -/

namespace Sys2Proof

/-- `NBLK_MAX` less one: left open by D13 up to `2^23 - 1` (10_state.md R27, 70_reset_and_hazards.md R204; log 11). -/
opaque Config.nblkMaxPred : Fin 8388607

/-- `NBLK_MAX`, the largest block size PREPARE accepts: from 1 to `2^23 - 1` (30_encoding.md R64). The spec's default is
8192 (00_scope.md section 3, D13; log 11). -/
def Config.nblkMax : Nat := Config.nblkMaxPred.val + 1

/-- `bits[30:0]` of `K_NYQ` less one: left open by D7 within (0, 0.5) (R27, R204; log 11). -/
opaque Config.kNyqPred : Fin 0x3EFFFFFF

/-- `K_NYQ`, the cutoff ceiling as a fraction of the coefficient sample rate (R81): a word above 0 and below 0.5 (log 11). -/
def Config.kNyq : F := fpack false (Config.kNyqPred.val + 1)

/-- The default of `K_NYQ`, 0.49 (R8, R81, D7). A claim about a clamped cutoff names it as a premise (U1). -/
def Config.kNyqDefault : F := 0x3EFAE148#32

/-- Whether the build takes `COEF_FS_MULT = 2` (true) or `1` (false): left open by D8 (log 12). -/
opaque Config.coefFsDoubled : Bool

/-- An allpass coefficient: a sign and `bits[30:0]` below those of 1.0. These are exactly the words of the open
interval (-1, 1) (41_oversampler.md R101). -/
abbrev AllpassCoef := Bool × Fin 0x3F800000

/-- The allpass coefficients of the direct path, `OS_AD[0..OS_ND-1]`: left open by D9 (log 13). -/
opaque Config.allpassDirect : List AllpassCoef

/-- The allpass coefficients of the delayed path, `OS_AP[0..OS_NP-1]`: left open by D9 (log 13). -/
opaque Config.allpassDelayed : List AllpassCoef

/-- `OS_AD` as words of format `F` (R101). -/
def Config.osAD : List F := Config.allpassDirect.map fun a => fpack a.1 a.2.val

/-- `OS_AP` as words of format `F` (R101). -/
def Config.osAP : List F := Config.allpassDelayed.map fun a => fpack a.1 a.2.val

/-- `OS_ND`, the number of sections of the direct path. -/
def Config.osND : Nat := Config.allpassDirect.length

/-- `OS_NP`, the number of sections of the delayed path. -/
def Config.osNP : Nat := Config.allpassDelayed.length

/-- The fields of `NUM` before the named properties of R7 are imposed on them (Machine/Num.lean, log 10). -/
opaque Config.tanhRaw : F → F
/-- See `Config.tanhRaw`. -/
opaque Config.sinRaw : F → F
/-- See `Config.tanhRaw`. -/
opaque Config.cosRaw : F → F
/-- See `Config.tanhRaw`. -/
opaque Config.tanRaw : F → F
/-- See `Config.tanhRaw`. -/
opaque Config.pow10Raw : F → F

/-- The basic operations of R6. -/
inductive FOp where
  | add
  | sub
  | mul
  | div
  | sqrt
deriving DecidableEq, Repr

/-- The sign and the fraction less one of the NaN that an operation gives on two operands (R6: "a NaN whose payload is
unspecified"; U9, log 9). Every NaN is of this form and no other word is. -/
opaque Config.nanBits : FOp → F → F → Bool × Fin 8388607

/-- The words a draw can be made for (10_state.md R28: "unspecified" means a `draw`). -/
inductive Elem where
  | fs
  | nblk
  | ch
  | ix
  | nin
  | nout
  | l (p : Param)
  | type
  | b0 (r : Role)
  | b1 (r : Role)
  | b2 (r : Role)
  | a1 (r : Role)
  | a2 (r : Role)
  | z1 (r : Role) (c : Chan)
  | z2 (r : Role) (c : Chan)
  | ud (c : Chan) (k : Nat)
  | up (c : Chan) (k : Nat)
  | dd (c : Chan) (k : Nat)
  | dp (c : Chan) (k : Nat)
  | dz (c : Chan)
  /-- The word of the data space at an address (20_memory.md R44, R45). -/
  | word (a : Nat)
  /-- The response to a read packet that faults (30_encoding.md R66). -/
  | resp
deriving DecidableEq, Repr

/-- The draw of number `n` for an element: a free input under no law (00_scope.md section 5, log 5). -/
opaque Config.draw : Nat → Elem → F

/-- Which of the slots still unread the next latch read of draw number `n` takes (10_state.md R27, D16, log 14). -/
opaque Config.latchPick : Nat → Nat

end Sys2Proof
end

