-- ==== Sys2Proof/Machine/Float.lean ====
section
/-! DEFINITION. The arithmetic of format `F` (00_scope.md R5, R6, R8, R9): binary32, every operation the exact result
rounded once to nearest, ties to even. Every finite word is a whole number of units of 2^-149, so the exact results are
integers or quotients of integers, and one function rounds them all. -/

namespace Sys2Proof.Machine

/-- The word is a NaN (R5). -/
def isNaN (x : F) : Bool := decide (0x7F800000 < fmag x)

/-- The word is an infinity (R5). -/
def isInf (x : F) : Bool := decide (fmag x = 0x7F800000)

/-- The word is neither a NaN nor an infinity (R5). -/
def isFinite (x : F) : Bool := decide (fmag x < 0x7F800000)

/-- The word is a zero of either sign (R5). -/
def isZero (x : F) : Bool := decide (fmag x = 0)

/-- The magnitude of a finite word in units of 2^-149 (R5: exponent `bits[30:23]` with bias 127, fraction
`bits[22:0]`). -/
def units (x : F) : Nat :=
  let e := fmag x / 2 ^ 23
  let frac := fmag x % 2 ^ 23
  if e = 0 then frac else (2 ^ 23 + frac) * 2 ^ (e - 1)

/-- The value of a finite word in units of 2^-149. -/
def signedUnits (x : F) : Int := if fsign x then -(units x : Int) else units x

/-- `bits[30:0]` of `m * 2^-k` units rounded to nearest, ties to even; from the largest finite word upward, infinity
(R6). The result keeps 24 significant bits, or the last unit where the value is smaller than that. -/
def roundMag (m k : Nat) : Nat :=
  let j := m.log2 - (k + 23)
  let sh := j + k
  let q := m / 2 ^ sh
  let r := m % 2 ^ sh
  let up := decide (2 ^ sh < 2 * r) || (decide (2 * r = 2 ^ sh) && decide (q % 2 = 1))
  min (j * 2 ^ 23 + (if up then q + 1 else q)) 0x7F800000

/-- The NaN that an invalid or NaN-fed operation gives (R6, U9; log 9). -/
def nanResult (op : FOp) (a b : F) : F :=
  let n := Config.nanBits op a b
  fpack n.1 (0x7F800001 + n.2.val)

/-- Clear the sign: `fabs` (R9). -/
def fabs (x : F) : F := fpack false (fmag x)

/-- Flip the sign: negated values differ in `bits[31]` only (R8). -/
def fneg (x : F) : F := fpack (!fsign x) (fmag x)

/-- `fadd` (R6). An exact zero sum is +0, but for two negative zeros. -/
def fadd (a b : F) : F :=
  if isNaN a || isNaN b then nanResult .add a b
  else if isInf a then
    if isInf b && (fsign a != fsign b) then nanResult .add a b else a
  else if isInf b then b
  else
    let z := signedUnits a + signedUnits b
    if z = 0 then fpack (fsign a && fsign b) 0
    else fpack (decide (z < 0)) (roundMag z.natAbs 0)

/-- `fsub` (R6): the sum with the second operand negated. The NaN of an invalid difference is one of its own, tied to no
sum (U9, log 9). -/
def fsub (a b : F) : F :=
  if isNaN a || isNaN b then nanResult .sub a b
  else if isInf a && isInf b && (fsign a == fsign b) then nanResult .sub a b
  else fadd a (fneg b)

/-- `fmul` (R6). -/
def fmul (a b : F) : F :=
  let s := fsign a != fsign b
  if isNaN a || isNaN b then nanResult .mul a b
  else if isInf a || isInf b then
    if isZero a || isZero b then nanResult .mul a b else fpack s 0x7F800000
  else fpack s (roundMag (units a * units b) 149)

/-- `fdiv` (R6). The quotient is formed to a quarter of a unit and a last bit tells whether anything is left over. -/
def fdiv (a b : F) : F :=
  let s := fsign a != fsign b
  if isNaN a || isNaN b then nanResult .div a b
  else if isInf a then
    if isInf b then nanResult .div a b else fpack s 0x7F800000
  else if isInf b then fpack s 0
  else if isZero b then
    if isZero a then nanResult .div a b else fpack s 0x7F800000
  else
    let n := units a * 2 ^ 151
    let d := units b
    fpack s (roundMag (2 * (n / d) + if n % d = 0 then 0 else 1) 3)

/-- The integer square root of `n`, found bit by bit from bit `fuel - 1` down, on top of the bits `acc` found so far. -/
def isqrtFrom : Nat → Nat → Nat → Nat
  | 0, _, acc => acc
  | fuel + 1, n, acc =>
    let t := acc + 2 ^ fuel
    if t * t ≤ n then isqrtFrom fuel n t else isqrtFrom fuel n acc

/-- `fsqrt` (R6). A zero is its own root; a negative operand is invalid. -/
def fsqrt (a : F) : F :=
  if isNaN a then nanResult .sqrt a a
  else if isZero a then a
  else if fsign a then nanResult .sqrt a a
  else if isInf a then a
  else
    let n := units a * 2 ^ 149
    let r := isqrtFrom 214 n 0
    fpack false (roundMag (2 * r + if r * r = n then 0 else 1) 1)

/-- The place of a word in the order of values: both zeros at 0 (R9). -/
def orderKey (x : F) : Int := if fsign x then -(fmag x : Int) else fmag x

/-- `x < y`, false when either is a NaN (R9). -/
def flt (x y : F) : Bool := !isNaN x && !isNaN y && decide (orderKey x < orderKey y)

/-- `x > y` (R9). -/
def fgt (x y : F) : Bool := flt y x

/-- `clamp` (R9): a NaN is returned unchanged. -/
def clamp (x lo hi : F) : F := if flt x lo then lo else if fgt x hi then hi else x

/-- `ROUND_HAZ` of a finite word: the nearest integer, a tie away from zero (R9). -/
def roundHaz (x : F) : Int :=
  let n : Nat := (2 * units x + 2 ^ 149) / 2 ^ 150
  if fsign x then -(n : Int) else n

/-! The literals of R8. -/

/-- 0.01 -/
def f0_01 : F := 0x3C23D70A#32
/-- 0.1 -/
def f0_1 : F := 0x3DCCCCCD#32
/-- 0.2 -/
def f0_2 : F := 0x3E4CCCCD#32
/-- 0.5 -/
def f0_5 : F := 0x3F000000#32
/-- 0.6 -/
def f0_6 : F := 0x3F19999A#32
/-- 0.7, `Q_LP` -/
def f0_7 : F := 0x3F333333#32
/-- 0.9 -/
def f0_9 : F := 0x3F666666#32
/-- 1.0, and `Q_MID` -/
def f1 : F := 0x3F800000#32
/-- 1.5 -/
def f1_5 : F := 0x3FC00000#32
/-- 1.8 -/
def f1_8 : F := 0x3FE66666#32
/-- 2.0 -/
def f2 : F := 0x40000000#32
/-- 5.0 -/
def f5 : F := 0x40A00000#32
/-- 20.0 -/
def f20 : F := 0x41A00000#32
/-- `PI` -/
def fPi : F := 0x40490FDB#32
/-- `Q_HP` = 1/sqrt(2) -/
def fQHp : F := 0x3F3504F3#32
/-- -0.9 -/
def fNeg0_9 : F := 0xBF666666#32
/-- -2.0 -/
def fNeg2 : F := 0xC0000000#32
/-- +0 -/
def fZero : F := 0x00000000#32

end Sys2Proof.Machine
end

