-- ==== Sys2Proof/Machine/State.lean ====
section
/-! DEFINITION. The state of WASABI-CORE as plain data (10_state.md R10) with what the model adds to it, the reasons a
step can stop, and the state right after reset (10_state.md R28, 70_reset_and_hazards.md R200). -/

namespace Sys2Proof.Machine

/-- The port a packet arrives on (30_encoding.md R60). -/
inductive Port where
  | audio
  | control
deriving DecidableEq, Repr

/-- One thing the environment does (60_exceptions.md R188, 70_reset_and_hazards.md R200; log 1). -/
inductive Input where
  /-- A packet presented on a port. -/
  | packet (p : Port) (w : Packet)
  /-- The sequencer takes its next step before anything that follows in the list. -/
  | advance
  /-- A pulse of the reset input `rst`. -/
  | rst
deriving DecidableEq, Repr

/-- The phases of `PH`; codes 10 to 15 never occur (10_state.md R16, 30_encoding.md R70; log 19). -/
inductive Phase where
  | idle
  | latch
  | clear
  | coef
  | up
  | hpf
  | mid
  | dist
  | lpf
  | down
deriving DecidableEq, Repr

/-- The lifecycle states of `ST` (10_state.md R15). -/
inductive Lifecycle where
  | uninit
  | prepared
  | processing
  | released
deriving DecidableEq, Repr

/-- The values of `CAUSE`; codes 7 to 15 are never written (60_exceptions.md R182; log 19). -/
inductive Cause where
  | none
  | illegalCmd
  | notPrepared
  | badConfig
  | badLayout
  | port
  | badIndex
deriving DecidableEq, Repr

/-- The values of `TYPE`; code 3 never occurs (30_encoding.md R69; log 19). -/
inductive Shaper where
  | wa
  | sa
  | bi
deriving DecidableEq, Repr

/-- Which part of one sample of DIST comes next: GATE and PREGAIN, then the shaper, then POSTGAIN and MIX
(42_distortion.md R124; the model's own division, log 16). -/
inductive DistStage where
  | gate
  | shape
  | mix
deriving DecidableEq, Repr

/-- One value for each channel (10_state.md R21). -/
structure PerChan (α : Type) where
  c0 : α
  c1 : α
deriving DecidableEq, Repr

/-- One value for each filter role (10_state.md R19, R20). -/
structure PerRole (α : Type) where
  hp : α
  mid : α
  lp : α
deriving DecidableEq, Repr

/-- Ten words, one for each parameter name: the bank `PARAM` and its latched copy `L` (10_state.md R11, R12). -/
structure Params where
  drive : F
  range : F
  blend : F
  volume : F
  midFreq : F
  midGain : F
  highPassFreq : F
  lowPassFreq : F
  distortionType : F
  bypass : F
deriving DecidableEq, Repr

/-- One coefficient bundle of `CO` (10_state.md R19). -/
structure Biquad where
  b0 : F
  b1 : F
  b2 : F
  a1 : F
  a2 : F
deriving DecidableEq, Repr

/-- The two state words of one filter on one channel, `Z1[r][c]` and `Z2[r][c]` (10_state.md R20). -/
structure ZPair where
  z1 : F
  z2 : F
deriving DecidableEq, Repr

/-- The oversampler state of one channel (10_state.md R22): `UD[c]`, `UP[c]`, `DD[c]`, `DP[c]`, `DZ[c]`. -/
structure OsMem where
  ud : List F
  up : List F
  dd : List F
  dp : List F
  dz : F
deriving DecidableEq, Repr

/-- The data space (20_memory.md R40 (b)): the words written, by rising word address. A word that is not listed has no
value of its own and reads as a draw (log 7, log 8). -/
abbrev Memory := List (Nat × F)

/-- The state (10_state.md R10). The comment of a field says which register of the spec it is; the fields under "the
model's own" are not the spec's (log 1, 2, 5, 7, 14, 16). -/
structure State where
  /-- `FS` (R14). -/
  fs : F
  /-- `NBLK` (R14). -/
  nblk : Nat
  /-- `ST` (R15). -/
  st : Lifecycle
  /-- `BUSY` (R16). -/
  busy : Bool
  /-- `PH` (R16). -/
  ph : Phase
  /-- `CH` (R16). -/
  ch : Chan
  /-- `IX` (R16). -/
  ix : Nat
  /-- `NIN` (R16). -/
  nin : Nat
  /-- `NOUT` (R16). -/
  nout : Nat
  /-- `FAULT` (R17). -/
  fault : Bool
  /-- `CAUSE` (R17). -/
  cause : Cause
  /-- `PARAM[0..9]` (R11). -/
  param : Params
  /-- `L[0..9]` (R12). -/
  l : Params
  /-- `TYPE` (R12). -/
  type : Shaper
  /-- `CO.HP`, `CO.MID`, `CO.LP` (R19). -/
  co : PerRole Biquad
  /-- `Z1[r][c]`, `Z2[r][c]` (R20). -/
  z : PerRole (PerChan ZPair)
  /-- `UD UP DD DP DZ` (R22). -/
  os : PerChan OsMem
  /-- `BUF` and `WBUF` (R23, R24). -/
  mem : Memory
  /-- `gate` (R25 (a), 42_distortion.md R116). -/
  gate : F
  /-- `cg` (42_distortion.md R116). -/
  cg : F
  /-- `d0` (42_distortion.md R117). -/
  d0 : F
  /-- `d1` (42_distortion.md R119 to R121). -/
  d1 : F
  /-- The model's own: which part of a sample of DIST comes next. -/
  dstage : DistStage
  /-- The model's own: the slots the block in flight has not latched yet. -/
  latchLeft : List Param
  /-- The model's own: how many draws have been made. -/
  draws : Nat
  /-- The model's own: the draw that unwritten words of `BUF` show. -/
  bufEpoch : Nat
  /-- The model's own: the draw that unwritten words of `WBUF` show. -/
  wbufEpoch : Nat
  /-- The model's own: what the environment does next, in the order of acceptance. -/
  inputs : List Input
  /-- The model's own: the port on which the packet in acceptance arrived. -/
  port : Port
  /-- The model's own: the response words sent, oldest first, each with its port. -/
  resp : List (Port × F)
deriving DecidableEq, Repr

/-- Why a step can stop. Nothing in this hardware is stuck (93_implementation_defined.md part 1). -/
inductive Fault where
  /-- `BUSY = 1` and `PH = IDLE`: there is no phase to step. Raised by `step` alone, and only in states that
  10_state.md R16 excludes ("`PH = IDLE` exactly when `BUSY = 0`"). Safe (log 22). -/
  | busyWithoutPhase
deriving DecidableEq, Repr

/-- Why an instruction can be refused. -/
inductive Refusal where
  /-- The instruction has no meaning in the model yet. Raised by an arm of `exec` alone; no arm raises it now. Safe. -/
  | notModelled (mnemonic : String)
deriving DecidableEq, Repr

/-- The defaults of the parameter bank (10_state.md R11). -/
def Params.defaults : Params where
  drive := 0x3F000000#32
  range := 0x3F800000#32
  blend := 0x3F4CCCCD#32
  volume := 0x3F800000#32
  midFreq := 0x447A0000#32
  midGain := 0x40C00000#32
  highPassFreq := 0x42C80000#32
  lowPassFreq := 0x45BB8000#32
  distortionType := 0x00000000#32
  bypass := 0x00000000#32

/-- Ten zero words. -/
def Params.zero : Params where
  drive := 0#32
  range := 0#32
  blend := 0#32
  volume := 0#32
  midFreq := 0#32
  midGain := 0#32
  highPassFreq := 0#32
  lowPassFreq := 0#32
  distortionType := 0#32
  bypass := 0#32

/-- A bundle of zero words. -/
def Biquad.zero : Biquad := ⟨0#32, 0#32, 0#32, 0#32, 0#32⟩

/-- Two zero state words. -/
def ZPair.zero : ZPair := ⟨0#32, 0#32⟩

/-- All oversampler memories of a channel at +0. -/
def OsMem.zero : OsMem where
  ud := List.replicate Config.osND 0#32
  up := List.replicate Config.osNP 0#32
  dd := List.replicate Config.osND 0#32
  dp := List.replicate Config.osNP 0#32
  dz := 0#32

/-- The machine right after reset (10_state.md R28, column "after hardware reset"; 70_reset_and_hazards.md R200). `ST`,
`BUSY`, `PH`, `FAULT`, `CAUSE` and `PARAM` are the spec's; every other value is a DESIGN CHOICE (log 3, log 4). The words of
`BUF` and `WBUF` after reset are draw number 0, so the next event that draws takes number 1: no two events share a draw
(log 5, log 7). -/
def State.reset : State where
  fs := 0#32
  nblk := 0
  st := .uninit
  busy := false
  ph := .idle
  ch := .c0
  ix := 0
  nin := 0
  nout := 0
  fault := false
  cause := .none
  param := Params.defaults
  l := Params.zero
  type := .wa
  co := ⟨Biquad.zero, Biquad.zero, Biquad.zero⟩
  z := ⟨⟨ZPair.zero, ZPair.zero⟩, ⟨ZPair.zero, ZPair.zero⟩, ⟨ZPair.zero, ZPair.zero⟩⟩
  os := ⟨OsMem.zero, OsMem.zero⟩
  mem := []
  gate := 0#32
  cg := 0#32
  d0 := 0#32
  d1 := 0#32
  dstage := .gate
  latchLeft := []
  draws := 1
  bufEpoch := 0
  wbufEpoch := 0
  inputs := []
  port := .audio
  resp := []

end Sys2Proof.Machine
end

