-- ==== Sys2Proof/Machine/Operands.lean ====
section
/-! DEFINITION. Operand assembly and operand checks: parameter slots by index and by name (10_state.md R11, 30_encoding.md
R63), their ranges and the clamp of WRP (44_port_commands.md R164), the checks of PREPARE and PROCESS (R161, R162), and
the type code (30_encoding.md R68). -/

namespace Sys2Proof.Machine

/-- The slot of a bank that a name stands for (R11). -/
def Params.get (b : Params) : Param → F
  | .drive => b.drive
  | .range => b.range
  | .blend => b.blend
  | .volume => b.volume
  | .midFreq => b.midFreq
  | .midGain => b.midGain
  | .highPassFreq => b.highPassFreq
  | .lowPassFreq => b.lowPassFreq
  | .distortionType => b.distortionType
  | .bypass => b.bypass

/-- The bank with one slot replaced (R11: no aliases). -/
def Params.set (b : Params) (p : Param) (v : F) : Params :=
  match p with
  | .drive => { b with drive := v }
  | .range => { b with range := v }
  | .blend => { b with blend := v }
  | .volume => { b with volume := v }
  | .midFreq => { b with midFreq := v }
  | .midGain => { b with midGain := v }
  | .highPassFreq => { b with highPassFreq := v }
  | .lowPassFreq => { b with lowPassFreq := v }
  | .distortionType => { b with distortionType := v }
  | .bypass => { b with bypass := v }

/-- The ten names in index order (R11). -/
def allParams : List Param :=
  [.drive, .range, .blend, .volume, .midFreq, .midGain, .highPassFreq, .lowPassFreq, .distortionType, .bypass]

/-- The name of the slot with an index; none above 9 (R11, 20_memory.md R48). -/
def paramOfIdx (idx : Nat) : Option Param := allParams[idx]?

/-- The lower bound of a slot's range (R11). -/
def paramLo : Param → F
  | .drive => 0x00000000#32
  | .range => 0x00000000#32
  | .blend => 0x00000000#32
  | .volume => 0x00000000#32
  | .midFreq => 0x43FA0000#32
  | .midGain => 0x00000000#32
  | .highPassFreq => 0x42480000#32
  | .lowPassFreq => 0x44FA0000#32
  | .distortionType => 0x00000000#32
  | .bypass => 0x00000000#32

/-- The upper bound of a slot's range (R11). -/
def paramHi : Param → F
  | .drive => 0x40000000#32
  | .range => 0x40A00000#32
  | .blend => 0x3F800000#32
  | .volume => 0x40000000#32
  | .midFreq => 0x44FA0000#32
  | .midGain => 0x41400000#32
  | .highPassFreq => 0x43FA0000#32
  | .lowPassFreq => 0x463B8000#32
  | .distortionType => 0x3F800000#32
  | .bypass => 0x3F800000#32

/-- What WRP stores for a value (R164): the lower bound for a NaN or anything below it, the upper bound for anything
above it, else the value itself. -/
def clampParam (p : Param) (v : F) : F :=
  if isNaN v || flt v (paramLo p) then paramLo p
  else if fgt v (paramHi p) then paramHi p
  else v

/-- PREPARE's operands are out of range (R161, `BAD_CONFIG`). -/
def badConfig (n : Nat) (fs : F) : Bool :=
  isNaN fs || !fgt fs fZero || decide (fs = 0x7F800000#32) || decide (n = 0) || decide (Config.nblkMax < n)

/-- The channel counts are one of (1,1), (1,2), (2,2) (R162). -/
def legalLayout (nin nout : Nat) : Bool :=
  decide (nin = 1 ∧ nout = 1) || decide (nin = 1 ∧ nout = 2) || decide (nin = 2 ∧ nout = 2)

/-- The type code of a latched `distortionType` (R68): `round(distortionType * 2)`, ties away from zero, saturated to
0..2; a NaN gives 0. -/
def typeCode (v : F) : Shaper :=
  let t := fmul v f2
  let k : Int :=
    if isNaN t then 0 else if isInf t then (if fsign t then 0 else 2) else roundHaz t
  if k ≤ 0 then .wa else if k = 1 then .sa else .bi

/-- The channel after which counting from channel 0 goes on (10_state.md R16). -/
def chanIndex : Chan → Nat
  | .c0 => 0
  | .c1 => 1

/-- The channel with a number. -/
def chanOfIndex (n : Nat) : Chan := if n = 0 then .c0 else .c1

end Sys2Proof.Machine
end

