-- ==== Sys2Proof/Machine/Flags.lean ====
section
/-! DEFINITION. The condition-like values (10_state.md R25) and the STATUS word (R18): the gate factor, the bypass
decision, and the codes of `ST`, `PH`, `CAUSE` and `TYPE`. No arithmetic sets a flag (R25). -/

namespace Sys2Proof.Machine

/-- The code of `ST` (10_state.md R15). -/
def stCode : Lifecycle → BitVec 2
  | .uninit => 0#2
  | .prepared => 1#2
  | .processing => 2#2
  | .released => 3#2

/-- The code of `PH` (30_encoding.md R70). -/
def phCode : Phase → BitVec 4
  | .idle => 0#4
  | .latch => 1#4
  | .clear => 2#4
  | .coef => 3#4
  | .up => 4#4
  | .hpf => 5#4
  | .mid => 6#4
  | .dist => 7#4
  | .lpf => 8#4
  | .down => 9#4

/-- The code of `CAUSE` (60_exceptions.md R182). -/
def causeCode : Cause → BitVec 4
  | .none => 0#4
  | .illegalCmd => 1#4
  | .notPrepared => 2#4
  | .badConfig => 3#4
  | .badLayout => 4#4
  | .port => 5#4
  | .badIndex => 6#4

/-- The code of `TYPE` (30_encoding.md R69). -/
def typeBits : Shaper → BitVec 2
  | .wa => 0#2
  | .sa => 1#2
  | .bi => 2#2

/-- A bit of STATUS. -/
def bit1 (b : Bool) : BitVec 1 := if b then 1#1 else 0#1

/-- The STATUS word (R18): `[1:0] = ST`, `[2] = BUSY`, `[3] = FAULT`, `[7:4] = CAUSE`, `[11:8] = PH`, the rest 0. -/
def statusWord (s : State) : BitVec 32 :=
  0#20 ++ phCode s.ph ++ causeCode s.cause ++ bit1 s.fault ++ bit1 s.busy ++ stCode s.st

/-- The bypass decision `L[9] > 0.5` (R25 (b), 43_filter_chain_block.md R140). -/
def bypassed (l : Params) : Bool := fgt l.bypass f0_5

/-- The gate factor of a sample (R25 (a), 42_distortion.md R116): 0.1 where `|clean| < 0.01`, else 1.0. -/
def gateFactor (clean : F) : F := if flt (fabs clean) f0_01 then f0_1 else f1

end Sys2Proof.Machine
end

