-- ==== Sys2Proof/Machine/Ops.lean ====
section
/-! DEFINITION. The named operations over the state: banks by channel and role, the data space (20_memory.md R40 to R48),
draws (10_state.md R28), responses (30_encoding.md R66), taking a fault (60_exceptions.md R181), moving the sequencer
(10_state.md R16, 43_filter_chain_block.md R138), and what reset, PREPARE and RELEASE do wholesale (R28). -/

namespace Sys2Proof.Machine

/-! ## Banks -/

/-- The value of one channel. -/
def PerChan.get {α : Type} (b : PerChan α) : Chan → α
  | .c0 => b.c0
  | .c1 => b.c1

/-- The bank with one channel's value replaced. -/
def PerChan.set {α : Type} (b : PerChan α) (c : Chan) (v : α) : PerChan α :=
  match c with
  | .c0 => { b with c0 := v }
  | .c1 => { b with c1 := v }

/-- The value of one role. -/
def PerRole.get {α : Type} (b : PerRole α) : Role → α
  | .hp => b.hp
  | .mid => b.mid
  | .lp => b.lp

/-- The bank with one role's value replaced. -/
def PerRole.set {α : Type} (b : PerRole α) (r : Role) (v : α) : PerRole α :=
  match r with
  | .hp => { b with hp := v }
  | .mid => { b with mid := v }
  | .lp => { b with lp := v }

/-! ## The data space -/

/-- The word listed at an address, none where nothing is listed. -/
def memLookup : Memory → Nat → Option F
  | [], _ => none
  | (b, v) :: m, a => if b = a then some v else memLookup m a

/-- The list with the word at an address written, in order. -/
def memStore : Memory → Nat → F → Memory
  | [], a, v => [(a, v)]
  | (b, w) :: m, a, v =>
    if a < b then (a, v) :: (b, w) :: m
    else if a = b then (a, v) :: m
    else (b, w) :: memStore m a v

/-- The canonical form: addresses strictly rising. An unlisted word has no value of its own, so no entry can repeat it. -/
def memWf : Memory → Bool
  | [] => true
  | [_] => true
  | (a, _) :: (b, w) :: m => decide (a < b) && memWf ((b, w) :: m)

/-- `WBUF_BASE` (20_memory.md R45). `BUF_BASE` is 0 (R44). -/
def wbufBase : Nat := 2 ^ 24

/-- The address of `BUF[c][i]` (R44). -/
def bufAddr (nblk : Nat) (c : Chan) (i : Nat) : Nat := chanIndex c * nblk + i

/-- The address of `WBUF[c][j]` (R45). -/
def wbufAddr (nblk : Nat) (c : Chan) (j : Nat) : Nat := wbufBase + chanIndex c * (2 * nblk) + j

/-- What an unlisted word reads as: the draw its buffer was given when it last became unspecified, the same at every
read (10_state.md R28, 70_reset_and_hazards.md R207; log 7). -/
def unwrittenWord (s : State) (a : Nat) : F :=
  Config.draw (if a < wbufBase then s.bufEpoch else s.wbufEpoch) (.word a)

/-- `MemRead(a, 1)` (00_scope.md section 5). -/
def readWord (s : State) (a : Nat) : F := (memLookup s.mem a).getD (unwrittenWord s a)

/-- `MemWrite(a, 1, v)` (00_scope.md section 5). -/
def writeWord (s : State) (a : Nat) (v : F) : State := { s with mem := memStore s.mem a v }

/-- `BUF[c][i]` (R44). -/
def readBuf (s : State) (c : Chan) (i : Nat) : F := readWord s (bufAddr s.nblk c i)

/-- `BUF[c][i] <- v` (R44). -/
def writeBuf (s : State) (c : Chan) (i : Nat) (v : F) : State := writeWord s (bufAddr s.nblk c i) v

/-- `WBUF[c][j]` (R45). -/
def readWbuf (s : State) (c : Chan) (j : Nat) : F := readWord s (wbufAddr s.nblk c j)

/-- `WBUF[c][j] <- v` (R45). -/
def writeWbuf (s : State) (c : Chan) (j : Nat) (v : F) : State := writeWord s (wbufAddr s.nblk c j) v

/-! ## Responses and faults -/

/-- Answer one word on the port of the packet in acceptance (30_encoding.md R60, R66). -/
def respond (s : State) (w : F) : State := { s with resp := s.resp ++ [(s.port, w)] }

/-- Answer one word of unspecified value (30_encoding.md R66, 90_conflicts.md C9). -/
def respondDraw (s : State) : State :=
  { respond s (Config.draw s.draws .resp) with draws := s.draws + 1 }

/-- Take a fault (60_exceptions.md R181): the first cause is kept, `FAULT` is set, nothing else changes. There is no
handler, no saved position and no return: the next packet is accepted as usual. -/
def raiseFault (s : State) (c : Cause) : State :=
  { s with cause := if s.fault then s.cause else c, fault := true }

/-- Take a fault on a packet that expects a response (R181: "if the packet is RDP or RDB: respond draw"). -/
def raiseReadFault (s : State) (c : Cause) : State := respondDraw (raiseFault s c)

/-! ## The sequencer -/

/-- `PH <- p`, at the start of the phase's loops (R138): `IX` at 0 and `CH` at the first channel the phase works on, which
is `NIN` for CLEAR and 0 for the others. Becoming idle ends the block, `BUSY <- 0`, and leaves the counters (R146, log 17). -/
def enterPhase (s : State) (p : Phase) : State :=
  match p with
  | .idle => { s with ph := .idle, busy := false }
  | .clear => { s with ph := .clear, ch := chanOfIndex s.nin, ix := 0, dstage := .gate }
  | p => { s with ph := p, ch := .c0, ix := 0, dstage := .gate }

/-- The sequencer is at a sample of a phase that works on the channels from `lo` to `hi - 1` and the samples below `lim`. -/
def atSample (s : State) (lo hi lim : Nat) : Bool :=
  decide (lo ≤ chanIndex s.ch) && decide (chanIndex s.ch < hi) && decide (s.ix < lim)

/-- Go on to the next sample of such a phase, or to phase `next` after the last one (R16: `IX` counts up by one per sample
and `CH` after it). -/
def nextSample (s : State) (hi lim : Nat) (next : Phase) : State :=
  if s.ix + 1 < lim then { s with ix := s.ix + 1 }
  else if chanIndex s.ch + 1 < hi then { s with ch := .c1, ix := 0 }
  else enterPhase s next

/-! ## What becomes unspecified (R28) -/

/-- A bundle of drawn coefficients. -/
def drawnBiquad (n : Nat) (r : Role) : Biquad where
  b0 := Config.draw n (.b0 r)
  b1 := Config.draw n (.b1 r)
  b2 := Config.draw n (.b2 r)
  a1 := Config.draw n (.a1 r)
  a2 := Config.draw n (.a2 r)

/-- The three bundles drawn. -/
def drawnCo (n : Nat) : PerRole Biquad := ⟨drawnBiquad n .hp, drawnBiquad n .mid, drawnBiquad n .lp⟩

/-- Ten drawn words. -/
def drawnParams (n : Nat) : Params where
  drive := Config.draw n (.l .drive)
  range := Config.draw n (.l .range)
  blend := Config.draw n (.l .blend)
  volume := Config.draw n (.l .volume)
  midFreq := Config.draw n (.l .midFreq)
  midGain := Config.draw n (.l .midGain)
  highPassFreq := Config.draw n (.l .highPassFreq)
  lowPassFreq := Config.draw n (.l .lowPassFreq)
  distortionType := Config.draw n (.l .distortionType)
  bypass := Config.draw n (.l .bypass)

/-- A drawn type code, one of the three that occur (30_encoding.md R69). -/
def drawnType (n : Nat) : Shaper :=
  match (Config.draw n .type).toNat % 3 with
  | 0 => .wa
  | 1 => .sa
  | _ => .bi

/-- A drawn natural of `bits` bits. -/
def drawnNat (n : Nat) (e : Elem) (bits : Nat) : Nat := (Config.draw n e).toNat % 2 ^ bits

/-- A drawn pair of filter state words. -/
def drawnZPair (n : Nat) (r : Role) (c : Chan) : ZPair := ⟨Config.draw n (.z1 r c), Config.draw n (.z2 r c)⟩

/-- The twelve filter state words drawn. -/
def drawnZ (n : Nat) : PerRole (PerChan ZPair) where
  hp := ⟨drawnZPair n .hp .c0, drawnZPair n .hp .c1⟩
  mid := ⟨drawnZPair n .mid .c0, drawnZPair n .mid .c1⟩
  lp := ⟨drawnZPair n .lp .c0, drawnZPair n .lp .c1⟩

/-- The twelve filter state words at +0. -/
def zeroZ : PerRole (PerChan ZPair) :=
  ⟨⟨ZPair.zero, ZPair.zero⟩, ⟨ZPair.zero, ZPair.zero⟩, ⟨ZPair.zero, ZPair.zero⟩⟩

/-- The oversampler memories of a channel drawn. -/
def drawnOsMem (n : Nat) (c : Chan) : OsMem where
  ud := (List.range Config.osND).map fun k => Config.draw n (.ud c k)
  up := (List.range Config.osNP).map fun k => Config.draw n (.up c k)
  dd := (List.range Config.osND).map fun k => Config.draw n (.dd c k)
  dp := (List.range Config.osNP).map fun k => Config.draw n (.dp c k)
  dz := Config.draw n (.dz c)

/-- The oversampler memories of both channels at +0. -/
def zeroOs : PerChan OsMem := ⟨OsMem.zero, OsMem.zero⟩

/-- The effect of an accepted PREPARE (44_port_commands.md R161; R28, column "after an accepted PREPARE"). -/
def prepareStream (s : State) (n : Nat) (fs : F) : State :=
  { s with
    fs := fs
    nblk := n
    st := .prepared
    busy := false
    ph := .idle
    ch := chanOfIndex (drawnNat s.draws .ch 1)
    ix := drawnNat s.draws .ix 24
    nin := drawnNat s.draws .nin 2
    nout := drawnNat s.draws .nout 2
    l := drawnParams s.draws
    type := drawnType s.draws
    co := drawnCo s.draws
    z := zeroZ
    os := zeroOs
    mem := []
    bufEpoch := s.draws
    wbufEpoch := s.draws
    draws := s.draws + 1 }

/-- The effect of a RELEASE accepted outside `UNINIT` (R163; R28, column "after an accepted RELEASE"). `BUF` is the part of
the data space below `WBUF_BASE`. -/
def releaseStream (s : State) : State :=
  { s with
    st := .released
    busy := false
    ph := .idle
    z := drawnZ s.draws
    os := zeroOs
    mem := s.mem.filter fun e => decide (e.1 < wbufBase)
    wbufEpoch := s.draws
    draws := s.draws + 1 }

/-- The effect of the reset input on a running machine (70_reset_and_hazards.md R200; R28, column "after hardware reset"):
everything the column calls unspecified is a draw. What the agents have yet to send and the responses already sent are
not the machine's (log 6). -/
def hardReset (s : State) : State :=
  { s with
    fs := Config.draw s.draws .fs
    nblk := drawnNat s.draws .nblk 24
    st := .uninit
    busy := false
    ph := .idle
    ch := chanOfIndex (drawnNat s.draws .ch 1)
    ix := drawnNat s.draws .ix 24
    nin := drawnNat s.draws .nin 2
    nout := drawnNat s.draws .nout 2
    fault := false
    cause := .none
    param := Params.defaults
    l := drawnParams s.draws
    type := drawnType s.draws
    co := drawnCo s.draws
    z := drawnZ s.draws
    os := ⟨drawnOsMem s.draws .c0, drawnOsMem s.draws .c1⟩
    mem := []
    bufEpoch := s.draws
    wbufEpoch := s.draws
    dstage := .gate
    latchLeft := []
    draws := s.draws + 1 }

end Sys2Proof.Machine
end

