-- ==== Sys2Proof/Machine/Chain.lean ====
section
/-! DEFINITION. The Filter Chain's three filter phases HPF, MID and LPF (43_filter_chain_block.md R135 to R137, R149). One
execution is one wide sample of one channel. -/

namespace Sys2Proof.Machine

/-- The biquad step `BQ`: the output and the new state words, the new `Z1` from the old `Z2` (R135). -/
def biquadStep (k : Biquad) (z : ZPair) (x : F) : F × ZPair :=
  let y := fadd (fmul k.b0 x) z.z1
  (y, { z1 := fadd (fsub (fmul k.b1 x) (fmul k.a1 y)) z.z2, z2 := fsub (fmul k.b2 x) (fmul k.a2 y) })

/-- One wide sample of the filter of role `r`, in place, and on to phase `next` after the last one (R136). -/
def filterSample (s : State) (r : Role) (next : Phase) : State :=
  if atSample s 0 s.nin (2 * s.nblk) then
    let y := biquadStep (s.co.get r) ((s.z.get r).get s.ch) (readWbuf s s.ch s.ix)
    let s1 := writeWbuf s s.ch s.ix y.1
    nextSample { s1 with z := s.z.set r ((s.z.get r).set s.ch y.2) } s.nin (2 * s.nblk) next
  else enterPhase s next

/-- HPF (R136, role HP), followed by MID (R137). -/
def execHpf (s : State) : Host.Outcome State Fault Refusal := .next (filterSample s .hp .mid)

/-- MID (R136, role MID), followed by DIST (R137). -/
def execMid (s : State) : Host.Outcome State Fault Refusal := .next (filterSample s .mid .dist)

/-- LPF (R136, role LP), followed by DOWN (R138). -/
def execLpf (s : State) : Host.Outcome State Fault Refusal := .next (filterSample s .lp .down)

end Sys2Proof.Machine
end

