-- ==== Sys2Proof/Machine/Num.lean ====
section
/-! DEFINITION. The functions of the record `NUM` (00_scope.md R7). They are free, and bounded by the properties that R7
names: P1, P2, P3, P5 and P7 hold of them by the way they are built from the raw functions of Config.lean, and every
function with these properties is of this form. P4 and P6 are stated and not built in (log 10). -/

namespace Sys2Proof.Machine

/-- `r` where its magnitude is at most 1, else 1.0: the bound of `NUM.P3`. -/
def withinUnit (r : F) : F := if fmag r ≤ 0x3F800000 then r else f1

/-- `r` where it is finite, else 1.0: the bound of `NUM.P5`. -/
def keepFinite (r : F) : F := if isFinite r then r else f1

/-- The odd function with the values `withinUnit (raw x)` on positive finite `x` and a zero's own value on a zero:
`NUM.P1`, `NUM.P2`, `NUM.P3`. On infinities and NaNs R7 says nothing and `raw` is free. -/
def oddWithinUnit (raw : F → F) (x : F) : F :=
  if isFinite x then
    if isZero x then x
    else
      let r := withinUnit (raw (fabs x))
      if fsign x then fneg r else r
  else raw x

/-- `TANH` (R7). -/
def numTanh (x : F) : F := oddWithinUnit Config.tanhRaw x

/-- `SIN` (R7). -/
def numSin (x : F) : F := oddWithinUnit Config.sinRaw x

/-- `COS` (R7): `NUM.P3` bounds it on finite operands. -/
def numCos (x : F) : F := if isFinite x then withinUnit (Config.cosRaw x) else Config.cosRaw x

/-- The end of the domain on which `TAN` is finite by construction: 2.0. `NUM.P5` names (0, 0.49*pi]; the operands that R82
and R83 form can pass that by a rounding, and by more where `K_NYQ` is above 0.49 (log 11). `NUM.P6` makes the result finite
on all of (0, 2.0], where no word has an exact tangent above 2.3e7 in magnitude. DEDUCED (log 10). -/
def tanDomainEnd : F := f2

/-- `TAN` (R7): +0 at +0 by `NUM.P1`, finite on (0, 0.49*pi] by `NUM.P5` and up to `tanDomainEnd` by `NUM.P6`. -/
def numTan (x : F) : F :=
  if x = fZero then fZero
  else if !fsign x && decide (fmag x ≤ fmag tanDomainEnd) then keepFinite (Config.tanRaw x)
  else Config.tanRaw x

/-- `POW10` (R7): 1.0 at +0 by `NUM.P7`, finite on [0, 0.6] by `NUM.P5`. -/
def numPow10 (x : F) : F :=
  if x = fZero then f1
  else if isZero x || (!fsign x && decide (fmag x ≤ fmag f0_6)) then keepFinite (Config.pow10Raw x)
  else Config.pow10Raw x

/-- `NUM.P4`: `TANH` is non-decreasing on finite operands. Not built in: a claim that needs it takes it as a premise. -/
def NumP4 : Prop := ∀ x y : F, isFinite x → isFinite y → flt x y → flt (numTanh y) (numTanh x) = false

/-- The real value of a finite word. -/
noncomputable def realOf (x : F) : ℝ := (signedUnits x : ℝ) / 2 ^ 149

/-- `r` is the real number `v`, in units of 2^-149, rounded once to nearest, ties to even: an infinity of its sign from
half a last place past the largest finite word on, else a finite word that no other is nearer than, and an even one where
another is as near (00_scope.md R6). -/
def roundsTo (v : ℝ) (r : F) : Prop :=
  ((2 ^ 25 - 1) * 2 ^ 252 ≤ |v| → isInf r = true ∧ (fsign r = true ↔ v < 0)) ∧
  (|v| < (2 ^ 25 - 1) * 2 ^ 252 →
    isFinite r = true ∧
    (∀ w : F, isFinite w = true → |v - (signedUnits r : ℝ)| ≤ |v - (signedUnits w : ℝ)|) ∧
    (∀ w : F, isFinite w = true → signedUnits w ≠ signedUnits r →
      |v - (signedUnits w : ℝ)| = |v - (signedUnits r : ℝ)| → fmag r % 2 = 0))

/-- `r` is within one unit in the last place of the real `v` rounded to `F`: no NaN, and `v` rounded or a neighbour of it in
the order of words (log 10). -/
def withinUlp (r : F) (v : ℝ) : Prop :=
  isNaN r = false ∧ ∃ y : F, roundsTo (v * 2 ^ 149) y ∧ |orderKey r - orderKey y| ≤ 1

/-- `NUM.P6`: each result on a finite operand is within one unit in the last place of the exact real result rounded to `F`.
Not built in: a claim that needs it takes it as a premise. -/
def NumP6 : Prop :=
  ∀ x : F, isFinite x = true →
    withinUlp (numTanh x) (Real.tanh (realOf x)) ∧ withinUlp (numSin x) (Real.sin (realOf x)) ∧
    withinUlp (numCos x) (Real.cos (realOf x)) ∧ withinUlp (numTan x) (Real.tan (realOf x)) ∧
    withinUlp (numPow10 x) ((10 : ℝ) ^ realOf x)

end Sys2Proof.Machine
end

