-- ==== Sys2Proof/Machine/Coefficients.lean ====
section
/-! DEFINITION. The Coefficient Calculator, phase COEF (40_coefficients.md R80 to R88). The three micro-operations take
the functions of `NUM`, `K_NYQ` and the rate multiple as arguments; `execCoef` gives them the machine's. -/

namespace Sys2Proof.Machine

/-- `COEF_FS_MULT`, 1.0 or 2.0 (R81, R88, D8; log 12). -/
def coefFsMult : F := if Config.coefFsDoubled then f2 else f1

/-- `fse` (R81). -/
def coefRate (mult fs : F) : F := fmul fs mult

/-- `fclamp` at the rate `fse`, with the ceiling `K_NYQ * fse` (R81). -/
def fclamp (kNyq fse f : F) : F :=
  let fmax := fmul kNyq fse
  if fgt f fmax then fmax else f

/-- `COEF.HP` (R82). -/
def coefHp (tan : F → F) (kNyq mult fs freq : F) : Biquad :=
  let fse := coefRate mult fs
  let f := fclamp kNyq fse freq
  let x := fdiv (fmul fPi f) fse
  let n := tan x
  let n2 := fmul n n
  let iq := fdiv f1 fQHp
  let c1 := fdiv f1 (fadd (fadd f1 (fmul iq n)) n2)
  { b0 := c1
    b1 := fmul c1 fNeg2
    b2 := c1
    a1 := fmul (fmul c1 f2) (fsub n2 f1)
    a2 := fmul c1 (fadd (fsub f1 (fmul iq n)) n2) }

/-- `COEF.LP` (R83). -/
def coefLp (tan : F → F) (kNyq mult fs freq : F) : Biquad :=
  let fse := coefRate mult fs
  let f := fclamp kNyq fse freq
  let x := fdiv (fmul fPi f) fse
  let n := fdiv f1 (tan x)
  let n2 := fmul n n
  let iq := fdiv f1 f0_7
  let c1 := fdiv f1 (fadd (fadd f1 (fmul iq n)) n2)
  { b0 := c1
    b1 := fmul c1 f2
    b2 := c1
    a1 := fmul (fmul c1 f2) (fsub f1 n2)
    a2 := fmul c1 (fadd (fsub f1 (fmul iq n)) n2) }

/-- The decibel conversion `gain_linear = 10^(dB/20)` (R85). -/
def gainLinear (pow10 : F → F) (db : F) : F := pow10 (fdiv db f20)

/-- `COEF.MID` (R84). -/
def coefMid (sin cos pow10 : F → F) (kNyq mult fs freq gain : F) : Biquad :=
  let fse := coefRate mult fs
  let f := fclamp kNyq fse freq
  let g := gainLinear pow10 gain
  let a := fsqrt g
  let w := fdiv (fmul (fmul f2 fPi) f) fse
  let al := fdiv (sin w) (fmul f1 f2)
  let c2 := fmul fNeg2 (cos w)
  let aA := fmul al a
  let aoA := fdiv al a
  let a0 := fadd f1 aoA
  let inv := fdiv f1 a0
  { b0 := fmul (fadd f1 aA) inv
    b1 := fmul c2 inv
    b2 := fmul (fsub f1 aA) inv
    a1 := fmul c2 inv
    a2 := fmul (fsub f1 aoA) inv }

/-- A bundle, or a drawn one where the cutoff is zero, negative or a NaN: such a cutoff cannot be stored by WRP, and of
the coefficients for it nothing may be assumed (93_implementation_defined.md U3, log 25). -/
def bundleOrDraw (freq : F) (n : Nat) (r : Role) (b : Biquad) : Biquad :=
  if fgt freq fZero then b else drawnBiquad n r

/-- COEF (R80): the fifteen words of `CO`, from `FS` and `L` alone. -/
def execCoef (s : State) : Host.Outcome State Fault Refusal :=
  let co : PerRole Biquad :=
    { hp := bundleOrDraw s.l.highPassFreq s.draws .hp (coefHp numTan Config.kNyq coefFsMult s.fs s.l.highPassFreq)
      mid := bundleOrDraw s.l.midFreq s.draws .mid
        (coefMid numSin numCos numPow10 Config.kNyq coefFsMult s.fs s.l.midFreq s.l.midGain)
      lp := bundleOrDraw s.l.lowPassFreq s.draws .lp (coefLp numTan Config.kNyq coefFsMult s.fs s.l.lowPassFreq) }
  .next (enterPhase { s with co := co, draws := s.draws + 1 } .up)

end Sys2Proof.Machine
end

