-- ==== Sys2Proof/Machine/Distortion.lean ====
section
/-! DEFINITION. The Distortion Engine, phase DIST and the shapers (42_distortion.md R115 to R125). A wide sample takes
three steps of the sequencer: GATE and PREGAIN, the shaper that `TYPE` names, POSTGAIN and MIX (log 16). -/

namespace Sys2Proof.Machine

/-- `PREGAIN` (R117). -/
def pregain (range cg : F) : F := fmul cg (fmul range f5)

/-- `SHAPE.WA` (R119). -/
def shapeWa (tanh : F → F) (drive d0 : F) : F := fmul (tanh (fmul d0 (fadd f1 drive))) f0_9

/-- `SHAPE.SA` (R120). -/
def shapeSa (tanh : F → F) (drive d0 : F) : F :=
  let t := fmul (tanh (fmul d0 f0_6)) f1_8
  clamp (fmul t (fadd f1 (fmul drive f2))) fNeg0_9 f0_9

/-- `SHAPE.BI` (R121). -/
def shapeBi (sin : F → F) (drive d0 : F) : F :=
  let cube := fmul (fmul d0 d0) d0
  let folded := fsub d0 (fmul f0_2 cube)
  let arg := fmul (fmul folded fPi) (fadd f0_5 (fmul drive f0_5))
  clamp (sin arg) fNeg0_9 f0_9

/-- `POSTGAIN` (R122). -/
def postgain (volume d1 : F) : F := fmul d1 (fadd f0_5 (fmul volume f1_5))

/-- `MIX` (R123): the gate factor applies a second time. -/
def mixOut (blend d2 cg gate : F) : F :=
  let wet := fmul d2 blend
  let dry := fmul cg (fsub f1 blend)
  fmul (fadd wet dry) gate

/-- The shaper's turn: `d1` is written and POSTGAIN and MIX come next. -/
def putShaped (s : State) (d1 : F) : State := { s with d1 := d1, dstage := .mix }

/-- SHAPE.WA (R119): `d1` from `d0` and `L.drive`. -/
def execShapeWa (s : State) : Host.Outcome State Fault Refusal :=
  .next (putShaped s (shapeWa numTanh s.l.drive s.d0))

/-- SHAPE.SA (R120). -/
def execShapeSa (s : State) : Host.Outcome State Fault Refusal :=
  .next (putShaped s (shapeSa numTanh s.l.drive s.d0))

/-- SHAPE.BI (R121). -/
def execShapeBi (s : State) : Host.Outcome State Fault Refusal :=
  .next (putShaped s (shapeBi numSin s.l.drive s.d0))

/-- The shaper that the type code names (R118, R124). -/
def shapeByType (t : Shaper) (drive d0 : F) : F :=
  match t with
  | .wa => shapeWa numTanh drive d0
  | .sa => shapeSa numTanh drive d0
  | .bi => shapeBi numSin drive d0

/-- The first part of a sample of DIST: GATE (R116) and PREGAIN (R117). -/
def distGate (s : State) (clean : F) : State :=
  let g := gateFactor clean
  let cg := fmul clean g
  { s with gate := g, cg := cg, d0 := pregain s.l.range cg, dstage := .shape }

/-- The last part of a sample of DIST: POSTGAIN (R122) and MIX (R123). -/
def distOut (s : State) : F := mixOut s.l.blend (postgain s.l.volume s.d1) s.cg s.gate

/-- DIST (R124): the next part of the sample at hand. -/
def execDist (s : State) : Host.Outcome State Fault Refusal :=
  if atSample s 0 s.nin (2 * s.nblk) then
    match s.dstage with
    | .gate => .next (distGate s (readWbuf s s.ch s.ix))
    | .shape => .next (putShaped s (shapeByType s.type s.l.drive s.d0))
    | .mix =>
      .next (nextSample { writeWbuf s s.ch s.ix (distOut s) with dstage := .gate } s.nin (2 * s.nblk) .lpf)
  else .next (enterPhase s .lpf)

end Sys2Proof.Machine
end

