-- ==== Sys2Proof/Machine/Oversampler.lean ====
section
/-! DEFINITION. The Oversampler, phases UP and DOWN (41_oversampler.md R100 to R107). One execution is one base-rate
sample of one channel. -/

namespace Sys2Proof.Machine

/-- One allpass section `AP(a, v, x)`: the output and the new memory word (R101). -/
def allpass (a v x : F) : F × F :=
  let y := fadd (fmul a x) v
  (y, fsub x (fmul a y))

/-- `CASCADE(coefs, mem, x)`: the output and the new memories (R101). No section returns `x` unchanged. -/
def cascade : List F → List F → F → F × List F
  | [], mem, x => (x, mem)
  | a :: coefs, v :: mem, x =>
    let y := allpass a v x
    let r := cascade coefs mem y.1
    (r.1, y.2 :: r.2)
  | _ :: _, [], x => (x, [])

/-- One sample of `OS.UP` on channel memories `m`: the even word, the odd word and the memories after (R102). -/
def upSample (ad ap : List F) (m : OsMem) (x : F) : F × F × OsMem :=
  let d := cascade ad m.ud x
  let p := cascade ap m.up x
  (d.1, p.1, { m with ud := d.2, up := p.2 })

/-- One sample of `OS.DOWN` on channel memories `m`: the output word and the memories after (R103). -/
def downSample (ad ap : List F) (m : OsMem) (even odd : F) : F × OsMem :=
  let d := cascade ad m.dd even
  let p := cascade ap m.dp odd
  (fmul (fadd m.dz d.1) f0_5, { m with dd := d.2, dp := p.2, dz := p.1 })

/-- UP (R102). -/
def execUp (s : State) : Host.Outcome State Fault Refusal :=
  if atSample s 0 s.nin s.nblk then
    let r := upSample Config.osAD Config.osAP (s.os.get s.ch) (readBuf s s.ch s.ix)
    let s1 := writeWbuf (writeWbuf s s.ch (2 * s.ix) r.1) s.ch (2 * s.ix + 1) r.2.1
    .next (nextSample { s1 with os := s.os.set s.ch r.2.2 } s.nin s.nblk .hpf)
  else .next (enterPhase s .hpf)

/-- DOWN (R103); after the last sample the block is complete (43_filter_chain_block.md R146). -/
def execDown (s : State) : Host.Outcome State Fault Refusal :=
  if atSample s 0 s.nin s.nblk then
    let r := downSample Config.osAD Config.osAP (s.os.get s.ch) (readWbuf s s.ch (2 * s.ix))
      (readWbuf s s.ch (2 * s.ix + 1))
    let s1 := writeBuf s s.ch s.ix r.1
    .next (nextSample { s1 with os := s.os.set s.ch r.2 } s.nin s.nblk .idle)
  else .next (enterPhase s .idle)

end Sys2Proof.Machine
end

