-- ==== Sys2Proof/Machine/Packets.lean ====
section
/-! DEFINITION. The nine command packets (44_port_commands.md R160 to R168). The port is checked first, then the operands,
then the lifecycle state (60_exceptions.md R183). A refused packet takes the fault and has no other effect (R181). -/

namespace Sys2Proof.Machine

/-- NOP (R160): no effect, on either port. -/
def execNop (s : State) : Host.Outcome State Fault Refusal := .next s

/-- PREPARE (R161), audio port only. -/
def execPrepare (n : Nat) (fs : F) (s : State) : Host.Outcome State Fault Refusal :=
  if s.port = .control then .next (raiseFault s .port)
  else if badConfig n fs then .next (raiseFault s .badConfig)
  else .next (prepareStream s n fs)

/-- PROCESS (R162), audio port only: on acceptance `BUSY`, `NIN`, `NOUT` and `ST` are written and the sequence of
43_filter_chain_block.md R138 starts at LATCH, with all ten slots still to be latched. -/
def execProcess (nout nin : Nat) (s : State) : Host.Outcome State Fault Refusal :=
  if s.port = .control then .next (raiseFault s .port)
  else if !legalLayout nin nout then .next (raiseFault s .badLayout)
  else if s.st = .uninit ∨ s.st = .released then .next (raiseFault s .notPrepared)
  else
    .next (enterPhase
      { s with busy := true, nin := nin, nout := nout, st := .processing, latchLeft := allParams } .latch)

/-- RELEASE (R163), audio port only; no effect in `UNINIT`. -/
def execRelease (s : State) : Host.Outcome State Fault Refusal :=
  if s.port = .control then .next (raiseFault s .port)
  else if s.st = .uninit then .next s
  else .next (releaseStream s)

/-- WRP (R164), control port only: the clamped value goes into the slot. -/
def execWrp (idx : Nat) (v : F) (s : State) : Host.Outcome State Fault Refusal :=
  if s.port = .audio then .next (raiseFault s .port)
  else
    match paramOfIdx idx with
    | none => .next (raiseFault s .badIndex)
    | some p => .next { s with param := s.param.set p (clampParam p v) }

/-- RDP (R165), either port. -/
def execRdp (idx : Nat) (s : State) : Host.Outcome State Fault Refusal :=
  match paramOfIdx idx with
  | none => .next (raiseReadFault s .badIndex)
  | some p => .next (respond s (s.param.get p))

/-- WRB (R166), audio port only. -/
def execWrb (c : Chan) (i : Nat) (v : F) (s : State) : Host.Outcome State Fault Refusal :=
  if s.port = .control then .next (raiseFault s .port)
  else if s.st = .uninit ∨ s.nblk ≤ i then .next (raiseFault s .badIndex)
  else .next (writeBuf s c i v)

/-- RDB (R167), audio port only. -/
def execRdb (c : Chan) (i : Nat) (s : State) : Host.Outcome State Fault Refusal :=
  if s.port = .control then .next (raiseReadFault s .port)
  else if s.st = .uninit ∨ s.nblk ≤ i then .next (raiseReadFault s .badIndex)
  else .next (respond s (readBuf s c i))

/-- RDS (R168), either port: the STATUS word of 10_state.md R18. -/
def execRds (s : State) : Host.Outcome State Fault Refusal := .next (respond s (statusWord s))

end Sys2Proof.Machine
end

