-- ==== Sys2Proof/Machine/Sequence.lean ====
section
/-! DEFINITION. The phases LATCH and CLEAR (43_filter_chain_block.md R139 to R141). One execution is one step of the
sequencer: in LATCH the read of one slot (60_exceptions.md R188), in CLEAR one word. -/

namespace Sys2Proof.Machine

/-- Latch one slot: `L[p] <- PARAM[p]` (R139), and strike it off the slots left. -/
def latchSlot (s : State) (p : Param) : State :=
  { s with l := s.l.set p (s.param.get p), latchLeft := s.latchLeft.erase p }

/-- The end of LATCH: `TYPE` from `L[8]` (30_encoding.md R68), then CLEAR. -/
def endLatch (s : State) : State := enterPhase { s with type := typeCode s.l.distortionType } .clear

/-- The bypass exit (R140): the block ends at once and nothing else of it is run. -/
def bypassExit (s : State) : State := enterPhase { s with latchLeft := [] } .idle

/-- LATCH (R139). The bypass slot is read first and may end the block (R140). Of the others each is read exactly once, in
an order the spec leaves open: the next one is a free pick among those left (D16, log 14). -/
def execLatch (s : State) : Host.Outcome State Fault Refusal :=
  if Param.bypass ∈ s.latchLeft then
    if bypassed (latchSlot s .bypass).l then .next (bypassExit (latchSlot s .bypass)) else .next (latchSlot s .bypass)
  else
    match s.latchLeft with
    | [] => .next (endLatch s)
    | [p] => .next (endLatch (latchSlot s p))
    | p :: q :: ps =>
      let pick := (p :: q :: ps).getD (Config.latchPick s.draws % (p :: q :: ps).length) p
      .next { latchSlot s pick with draws := s.draws + 1 }

/-- CLEAR (R141): `BUF[c][i] <- +0` for the channels from `NIN` to `NOUT - 1`. -/
def execClear (s : State) : Host.Outcome State Fault Refusal :=
  if atSample s s.nin s.nout s.nblk then
    .next (nextSample (writeBuf s s.ch s.ix fZero) s.nout s.nblk .coef)
  else .next (enterPhase s .coef)

end Sys2Proof.Machine
end

