-- ==== Sys2Proof/Machine/Dispatch.lean ====
section
/-! DEFINITION. The meaning of every instruction, one arm for each row of spec/opcode_table.json. -/

namespace Sys2Proof.Machine

def exec (i : Instr) (s : State) : Host.Outcome State Fault Refusal :=
  match i with
  | .nop => Sys2Proof.Machine.execNop s
  | .prepare n fs => Sys2Proof.Machine.execPrepare n fs s
  | .process nout nin => Sys2Proof.Machine.execProcess nout nin s
  | .release => Sys2Proof.Machine.execRelease s
  | .wrp idx v => Sys2Proof.Machine.execWrp idx v s
  | .rdp idx => Sys2Proof.Machine.execRdp idx s
  | .wrb c k v => Sys2Proof.Machine.execWrb c k v s
  | .rdb c k => Sys2Proof.Machine.execRdb c k s
  | .rds => Sys2Proof.Machine.execRds s
  | .latch => Sys2Proof.Machine.execLatch s
  | .clear => Sys2Proof.Machine.execClear s
  | .coef => Sys2Proof.Machine.execCoef s
  | .up => Sys2Proof.Machine.execUp s
  | .hpf => Sys2Proof.Machine.execHpf s
  | .mid => Sys2Proof.Machine.execMid s
  | .dist => Sys2Proof.Machine.execDist s
  | .lpf => Sys2Proof.Machine.execLpf s
  | .down => Sys2Proof.Machine.execDown s
  | .shapeWa => Sys2Proof.Machine.execShapeWa s
  | .shapeSa => Sys2Proof.Machine.execShapeSa s
  | .shapeBi => Sys2Proof.Machine.execShapeBi s

end Sys2Proof.Machine
end

