-- ==== Sys2Proof/WellFormed.lean ====
section
/-! DEFINITION. Which instructions their encoding can carry (30_encoding.md R61, R63, R64): the fields `SEL` (4 bits) and
`IDX` (24 bits) bound the naturals of the syntax. A value that decodes and is refused afterwards (a parameter index 10
to 15, a channel count 3, a sample index past the block) is well formed: the refusal is the machine's. -/

namespace Sys2Proof

/-- Every operand fits its field (R61). -/
def Instr.wellFormed : Instr → Bool
  | .nop => true
  | .prepare n _ => decide (n < 2 ^ 24)
  | .process nout nin => decide (nout < 4) && decide (nin < 4)
  | .release => true
  | .wrp idx _ => decide (idx < 16)
  | .rdp idx => decide (idx < 16)
  | .wrb _ i _ => decide (i < 2 ^ 24)
  | .rdb _ i => decide (i < 2 ^ 24)
  | .rds => true
  | .latch => true
  | .clear => true
  | .coef => true
  | .up => true
  | .hpf => true
  | .mid => true
  | .dist => true
  | .lpf => true
  | .down => true
  | .shapeWa => true
  | .shapeSa => true
  | .shapeBi => true

end Sys2Proof
end

