-- ==== Sys2Proof/Decode.lean ====
section
/-! DEFINITION. The three encodings of 30_encoding.md: packets (R60 to R66, R73), phase codes (R70), type codes (R69).
Decoding is total and names what it rejects; the encoder is written from the same tables. -/

namespace Sys2Proof

/-- One encoded instruction: a format of spec/opcode_table.json and its bits. What a port receives is a packet; what the
sequencer is at is a phase code or, inside DIST, a type code, so the format is never in doubt (log 20). -/
inductive Code where
  /-- Format `PKT`, 64 bits (R61). -/
  | pkt (w : Packet)
  /-- Format `PH`, 4 bits (R70). -/
  | ph (code : BitVec 4)
  /-- Format `TYPE`, 2 bits (R69). -/
  | type (code : BitVec 2)
deriving DecidableEq, Repr

/-- Why a code is rejected. -/
inductive DecodeError where
  /-- `OPC` in 0x9 to 0xF (R62, R73 (a)). -/
  | reservedOpcode (opc : Nat)
  /-- A bit that the row's mask fixes to zero is one (R61, R73 (a)). -/
  | mustBeZero (mnemonic : String)
  /-- Phase code 0 (`IDLE`) or 10 to 15: no row of the table (R70). -/
  | noPhase (code : Nat)
  /-- Type code 3: no row of the table (R69). -/
  | noType (code : Nat)
deriving DecidableEq, Repr

/-- `OPC`, `bits[63:60]` (R61). -/
def pktOpc (w : Packet) : Nat := (w.extractLsb' 60 4).toNat

/-- `SEL`, `bits[59:56]` (R61). -/
def pktSel (w : Packet) : Nat := (w.extractLsb' 56 4).toNat

/-- `IDX`, `bits[55:32]`, an unsigned natural (R61, R64). -/
def pktIdx (w : Packet) : Nat := (w.extractLsb' 32 24).toNat

/-- `DATA`, `bits[31:0]`, used as it stands (R61, R65). -/
def pktData (w : Packet) : F := w.extractLsb' 0 32

/-- The channel that one bit names (R63: `c = SEL[0]`). -/
def chanOfBit (b : Nat) : Chan := if b = 0 then .c0 else .c1

/-- Accept `i` if the fields its row fixes to zero are zero, else reject by the row's mnemonic. -/
def needZero (zero : Bool) (mnemonic : String) (i : Instr) : Except DecodeError Instr :=
  if zero then .ok i else .error (.mustBeZero mnemonic)

/-- The opcode map of R62 with the operand assembly of R63 to R65. -/
def decodePacket (w : Packet) : Except DecodeError Instr :=
  let sel := pktSel w
  let idx := pktIdx w
  let data := pktData w
  match pktOpc w with
  | 0 => needZero (sel == 0 && idx == 0 && data == 0#32) "NOP" .nop
  | 1 => needZero (sel == 0) "PREPARE" (.prepare idx data)
  | 2 => needZero (idx == 0 && data == 0#32) "PROCESS" (.process (sel / 4) (sel % 4))
  | 3 => needZero (sel == 0 && idx == 0 && data == 0#32) "RELEASE" .release
  | 4 => needZero (idx == 0) "WRP" (.wrp sel data)
  | 5 => needZero (idx == 0 && data == 0#32) "RDP" (.rdp sel)
  | 6 => needZero (sel / 2 == 0) "WRB" (.wrb (chanOfBit (sel % 2)) idx data)
  | 7 => needZero (sel / 2 == 0 && data == 0#32) "RDB" (.rdb (chanOfBit (sel % 2)) idx)
  | 8 => needZero (sel == 0 && idx == 0 && data == 0#32) "RDS" .rds
  | opc => .error (.reservedOpcode opc)

/-- The phase codes of R70. -/
def decodePhase (code : BitVec 4) : Except DecodeError Instr :=
  match code.toNat with
  | 1 => .ok .latch
  | 2 => .ok .clear
  | 3 => .ok .coef
  | 4 => .ok .up
  | 5 => .ok .hpf
  | 6 => .ok .mid
  | 7 => .ok .dist
  | 8 => .ok .lpf
  | 9 => .ok .down
  | n => .error (.noPhase n)

/-- The type codes of R69. -/
def decodeType (code : BitVec 2) : Except DecodeError Instr :=
  match code.toNat with
  | 0 => .ok .shapeWa
  | 1 => .ok .shapeSa
  | 2 => .ok .shapeBi
  | n => .error (.noType n)

/-- The decoder, on any code. -/
def decode : Code → Except DecodeError Instr
  | .pkt w => decodePacket w
  | .ph code => decodePhase code
  | .type code => decodeType code

/-- A packet from its four fields (R61). -/
def mkPacket (opc sel idx : Nat) (data : F) : Packet :=
  BitVec.ofNat 64 (opc * 2 ^ 60 + sel * 2 ^ 56 + idx * 2 ^ 32 + data.toNat)

/-- The bit that names a channel (R63). -/
def chanBit : Chan → Nat
  | .c0 => 0
  | .c1 => 1

/-- The encoder, from the same tables (R62, R69, R70). It is meant for well-formed instructions. -/
def encode : Instr → Code
  | .nop => .pkt (mkPacket 0 0 0 0#32)
  | .prepare n fs => .pkt (mkPacket 1 0 n fs)
  | .process nout nin => .pkt (mkPacket 2 (nout * 4 + nin) 0 0#32)
  | .release => .pkt (mkPacket 3 0 0 0#32)
  | .wrp idx v => .pkt (mkPacket 4 idx 0 v)
  | .rdp idx => .pkt (mkPacket 5 idx 0 0#32)
  | .wrb c i v => .pkt (mkPacket 6 (chanBit c) i v)
  | .rdb c i => .pkt (mkPacket 7 (chanBit c) i 0#32)
  | .rds => .pkt (mkPacket 8 0 0 0#32)
  | .latch => .ph 1#4
  | .clear => .ph 2#4
  | .coef => .ph 3#4
  | .up => .ph 4#4
  | .hpf => .ph 5#4
  | .mid => .ph 6#4
  | .dist => .ph 7#4
  | .lpf => .ph 8#4
  | .down => .ph 9#4
  | .shapeWa => .type 0#2
  | .shapeSa => .type 1#2
  | .shapeBi => .type 2#2

/-- The code that `nbits` bits of spec/opcode_table.json with value `w` stand for. The table gives a packet 64 bits, a
phase code 4 and a type code 2. In one whole byte the last two cannot be told apart for the values 1 and 2: there the
byte is read as a phase code, and 0, which is no row of the format `PH`, as a type code (log 20). -/
def tableCode (nbits w : Nat) : Option Code :=
  if nbits = 64 then some (.pkt (BitVec.ofNat 64 w))
  else if nbits = 2 then some (.type (BitVec.ofNat 2 w))
  else if nbits = 4 then some (.ph (BitVec.ofNat 4 w))
  else if nbits = 8 then
    if w = 0 then some (.type 0#2) else if w < 16 then some (.ph (BitVec.ofNat 4 w)) else none
  else none

/-- The instruction the decoder reads from a row's bits, none where it refuses. -/
def decodeTableWord (nbits w : Nat) : Option Instr :=
  match tableCode nbits w with
  | none => none
  | some c =>
    match decode c with
    | .ok i => some i
    | .error _ => none

end Sys2Proof
end

