-- ==== Sys2Proof/Machine/Fetch.lean ====
section
/-! DEFINITION. What takes the place of an instruction fetch (20_memory.md R54: there is none). A packet comes from the
list of inputs (60_exceptions.md R188); a phase or type code comes from the sequencer position (10_state.md R16). -/

namespace Sys2Proof.Machine

/-- What the next step is about: which agent moves, and the state from which it moves (log 1). -/
inductive Turn where
  /-- A pulse of `rst` (70_reset_and_hazards.md R200). -/
  | reset (s : State)
  /-- A packet is accepted; `s.port` is the port it arrived on. -/
  | packet (w : Packet) (s : State)
  /-- The sequencer advances (R188 (c)). -/
  | sequencer (s : State)

/-- Whose turn it is (R188). The inputs come in the order of acceptance; a packet on the audio port waits while a block is
in flight and the sequencer advances instead (20_memory.md R52); with no input left only the sequencer can move. -/
def nextTurn (s : State) : Turn :=
  match s.inputs with
  | [] => .sequencer s
  | .advance :: rest => .sequencer { s with inputs := rest }
  | .rst :: rest => .reset { s with inputs := rest }
  | .packet .control w :: rest => .packet w { s with inputs := rest, port := .control }
  | .packet .audio w :: rest =>
    if s.busy then .sequencer s else .packet w { s with inputs := rest, port := .audio }

/-- The code the sequencer is at (30_encoding.md R69, R70): the phase code, or inside DIST, when the shaper's turn has
come, the type code. -/
def sequencerCode (s : State) : Code :=
  if s.ph = .dist ∧ s.dstage = .shape then .type (typeBits s.type) else .ph (phCode s.ph)

/-- The phase with a code, `IDLE` for the codes that never occur (R70). -/
def phaseOfCode (code : BitVec 4) : Phase :=
  match code.toNat with
  | 1 => .latch
  | 2 => .clear
  | 3 => .coef
  | 4 => .up
  | 5 => .hpf
  | 6 => .mid
  | 7 => .dist
  | 8 => .lpf
  | 9 => .down
  | _ => .idle

/-- The shaper with a type code (R69). -/
def shaperOfCode (code : BitVec 2) : Shaper :=
  match code.toNat with
  | 0 => .wa
  | 1 => .sa
  | _ => .bi

/-- A port on which the packet may be sent (60_exceptions.md R187): the control port for WRP, else the audio port. -/
def homePort (w : Packet) : Port := if pktOpc w = 4 then .control else .audio

/-- Place a code where the next turn takes it. A packet goes to the front of the inputs, with the audio port free if it
needs that port. A phase or type code becomes the sequencer position of a block in flight, at the start of the phase's
work, and the sequencer gets the next turn. -/
def placeCode (s : State) : Code → State
  | .pkt w =>
    match homePort w with
    | .control => { s with inputs := .packet .control w :: s.inputs }
    | .audio => { s with inputs := .packet .audio w :: s.inputs, busy := false, ph := .idle }
  | .ph code =>
    { s with
      inputs := .advance :: s.inputs
      busy := true
      ph := phaseOfCode code
      dstage := .gate
      latchLeft := allParams }
  | .type code =>
    { s with
      inputs := .advance :: s.inputs
      busy := true
      ph := .dist
      dstage := .shape
      type := shaperOfCode code }

/-- A packet that matches no row (30_encoding.md R73, 60_exceptions.md R182): `Fault(ILLEGAL_CMD)` and no other effect. It
is neither an RDP nor an RDB, so it has no response (log 21). -/
def illegalPacket (s : State) : State := raiseFault s .illegalCmd

end Sys2Proof.Machine
end

