-- ==== Sys2Proof/Machine/Step.lean ====
section
/-! DEFINITION. One step of the machine (60_exceptions.md R188): accept a packet, or advance the sequencer, or be reset. -/

namespace Sys2Proof.Machine

/-- One step. With no packet to accept and no block in flight the core waits and nothing changes (70_reset_and_hazards.md
R201, R210). A block in flight always has a phase (10_state.md R16); where it has none, the step faults (log 22). -/
def step (s : State) : Host.Outcome State Fault Refusal :=
  match nextTurn s with
  | .reset s1 => .next (hardReset s1)
  | .packet w s1 =>
    match decode (.pkt w) with
    | .ok i => exec i s1
    | .error _ => .next (illegalPacket s1)
  | .sequencer s1 =>
    if s1.busy then
      match decode (sequencerCode s1) with
      | .ok i => exec i s1
      | .error _ => .fault .busyWithoutPhase
    else .next s1

/-- The state in which the next step runs the instruction that `nbits` bits of the opcode table with value `w` stand for;
unchanged where they are no code of the table's formats. -/
def State.withFetchWord (s : State) (nbits w : Nat) : State :=
  match tableCode nbits w with
  | some c => placeCode s c
  | none => s

end Sys2Proof.Machine
end

