-- ==== Sys2Proof/Safety.lean ====
section
/-! DEFINITION. What counts as a well-behaved state, in the terms the claims use: the invariants that the spec's rules
promise of every state a run reaches. -/

namespace Sys2Proof.Machine

/-- The memory is in its canonical form and lists only words of `BUF` and `WBUF` (20_memory.md R44, R45, R48). -/
def State.memOk (s : State) : Prop :=
  memWf s.mem = true ∧
  ∀ e ∈ s.mem, e.1 < 2 * s.nblk ∨ (wbufBase ≤ e.1 ∧ e.1 < wbufBase + 4 * s.nblk)

/-- A bank holds only what WRP can store (10_state.md R11, 44_port_commands.md R164): every slot is no NaN and lies in its
range. -/
def Params.inRange (b : Params) : Prop :=
  ∀ p : Param, isNaN (b.get p) = false ∧ flt (b.get p) (paramLo p) = false ∧ fgt (b.get p) (paramHi p) = false

/-- `CAUSE` holds a code exactly when `FAULT` is set (10_state.md R17, 60_exceptions.md R182). -/
def State.faultOk (s : State) : Prop := s.fault = false ↔ s.cause = .none

/-- The stream configuration is legal outside `UNINIT` (10_state.md R14). -/
def State.configOk (s : State) : Prop := s.st ≠ .uninit → badConfig s.nblk s.fs = false

/-- How many samples of one channel a phase works on (43_filter_chain_block.md R138). -/
def State.phaseLimit (s : State) : Nat :=
  match s.ph with
  | .clear | .up | .down => s.nblk
  | .hpf | .mid | .dist | .lpf => 2 * s.nblk
  | .idle | .latch | .coef => 1

/-- The sequencer position is legal (10_state.md R16): a phase exactly when a block is in flight, and then a prepared
stream, a legal pair of channel counts, `CH` and `IX` at a sample of the phase, a slot besides bypass still to latch in
LATCH, and no sample half done outside DIST. -/
def State.positionOk (s : State) : Prop :=
  (s.busy = false ↔ s.ph = .idle) ∧
  (s.busy = true →
    s.st = .processing ∧ legalLayout s.nin s.nout = true ∧ s.ix < s.phaseLimit ∧
    (s.ph ≠ .clear → chanIndex s.ch < s.nin) ∧
    (s.ph = .latch → s.latchLeft.Nodup ∧ ∃ p ∈ s.latchLeft, p ≠ Param.bypass) ∧
    (s.ph ≠ .dist → s.dstage = .gate))

/-- The oversampler memories have their lengths (10_state.md R22). -/
def OsMem.lengthsOk (m : OsMem) : Prop :=
  m.ud.length = Config.osND ∧ m.up.length = Config.osNP ∧ m.dd.length = Config.osND ∧ m.dp.length = Config.osNP

/-- The oversampler memories of both channels have their lengths. -/
def State.osOk (s : State) : Prop := s.os.c0.lengthsOk ∧ s.os.c1.lengthsOk

/-- All of these together: what every state of a run satisfies. -/
def State.Inv (s : State) : Prop :=
  s.memOk ∧ s.param.inRange ∧ s.faultOk ∧ s.configOk ∧ s.positionOk ∧ s.osOk

/-! ## What the claims speak of -/

/-- One row of the parameter table of 10_state.md R11. -/
structure ParamRow where
  idx : Nat
  slot : Param
  lo : F
  hi : F
  dflt : F
deriving DecidableEq, Repr

/-- The parameter table of R11 with the bit patterns of 95_test_vectors.md L1.1. -/
def parameterTable : List ParamRow := [
  ⟨0, .drive, 0x00000000#32, 0x40000000#32, 0x3F000000#32⟩,
  ⟨1, .range, 0x00000000#32, 0x40A00000#32, 0x3F800000#32⟩,
  ⟨2, .blend, 0x00000000#32, 0x3F800000#32, 0x3F4CCCCD#32⟩,
  ⟨3, .volume, 0x00000000#32, 0x40000000#32, 0x3F800000#32⟩,
  ⟨4, .midFreq, 0x43FA0000#32, 0x44FA0000#32, 0x447A0000#32⟩,
  ⟨5, .midGain, 0x00000000#32, 0x41400000#32, 0x40C00000#32⟩,
  ⟨6, .highPassFreq, 0x42480000#32, 0x43FA0000#32, 0x42C80000#32⟩,
  ⟨7, .lowPassFreq, 0x44FA0000#32, 0x463B8000#32, 0x45BB8000#32⟩,
  ⟨8, .distortionType, 0x00000000#32, 0x3F800000#32, 0x00000000#32⟩,
  ⟨9, .bypass, 0x00000000#32, 0x3F800000#32, 0x00000000#32⟩]

/-- The state with a fault recorded and nothing else changed (60_exceptions.md R181). -/
def faultRecorded (s : State) (c : Cause) : State :=
  { s with cause := if s.fault then s.cause else c, fault := true }

/-- From `s` to `t` the sequencer went on to the next sample of a phase with channels below `hi` and samples below `lim`,
or to phase `p` after the last one (10_state.md R16, 43_filter_chain_block.md R138, R146). That the counters keep their
values when the block ends, and what becomes of `dstage`, are the model's choice (log 16, log 17). -/
def movedOn (s t : State) (hi lim : Nat) (p : Phase) : Prop :=
  (s.ix + 1 < lim →
    t.ix = s.ix + 1 ∧ t.ch = s.ch ∧ t.ph = s.ph ∧ t.busy = s.busy ∧ t.dstage = s.dstage) ∧
  (lim ≤ s.ix + 1 → chanIndex s.ch + 1 < hi →
    t.ix = 0 ∧ t.ch = .c1 ∧ t.ph = s.ph ∧ t.busy = s.busy ∧ t.dstage = s.dstage) ∧
  (lim ≤ s.ix + 1 → hi ≤ chanIndex s.ch + 1 →
    t.ph = p ∧ (p = .idle → t.busy = false ∧ t.ix = s.ix ∧ t.ch = s.ch ∧ t.dstage = s.dstage) ∧
      (p ≠ .idle → t.busy = s.busy ∧ t.ix = 0 ∧ t.ch = .c0 ∧ t.dstage = .gate))

/-- Every memory of an oversampler channel holds a zero of either sign (41_oversampler.md R106). -/
def OsMem.silent (m : OsMem) : Prop :=
  (∀ x ∈ m.ud, isZero x = true) ∧ (∀ x ∈ m.up, isZero x = true) ∧ (∀ x ∈ m.dd, isZero x = true) ∧
    (∀ x ∈ m.dp, isZero x = true) ∧ isZero m.dz = true

/-- Every memory of an oversampler channel is +0 (10_state.md R28). -/
def OsMem.cleared (m : OsMem) : Prop :=
  m.lengthsOk ∧ (∀ x ∈ m.ud, x = 0#32) ∧ (∀ x ∈ m.up, x = 0#32) ∧ (∀ x ∈ m.dd, x = 0#32) ∧
    (∀ x ∈ m.dp, x = 0#32) ∧ m.dz = 0#32

/-- One row of the opcode map of 30_encoding.md R62. -/
structure OpcodeRow where
  opc : Nat
  pattern : Packet
  mask : Packet
deriving DecidableEq, Repr

/-- The opcode map of R62, columns `OPC`, `match` and `mask`. -/
def opcodeMap : List OpcodeRow := [
  ⟨0, 0x0000000000000000#64, 0xFFFFFFFFFFFFFFFF#64⟩,
  ⟨1, 0x1000000000000000#64, 0xFF00000000000000#64⟩,
  ⟨2, 0x2000000000000000#64, 0xF0FFFFFFFFFFFFFF#64⟩,
  ⟨3, 0x3000000000000000#64, 0xFFFFFFFFFFFFFFFF#64⟩,
  ⟨4, 0x4000000000000000#64, 0xF0FFFFFF00000000#64⟩,
  ⟨5, 0x5000000000000000#64, 0xF0FFFFFFFFFFFFFF#64⟩,
  ⟨6, 0x6000000000000000#64, 0xFE00000000000000#64⟩,
  ⟨7, 0x7000000000000000#64, 0xFE000000FFFFFFFF#64⟩,
  ⟨8, 0x8000000000000000#64, 0xFFFFFFFFFFFFFFFF#64⟩]

/-- The first condition that holds of the packet `w` on port `p`, in the order of 60_exceptions.md R183 and by the table of
R182; none where the packet is accepted. The fields are those of 30_encoding.md R62. -/
def packetCause (s : State) (p : Port) (w : Packet) : Cause :=
  let opc := pktOpc w
  if ∀ r ∈ opcodeMap, w &&& r.mask ≠ r.pattern then .illegalCmd
  else if (p = .control ∧ opc ∈ [1, 2, 3, 6, 7]) ∨ (p = .audio ∧ opc = 4) then .port
  else if opc = 1 ∧ badConfig (pktIdx w) (pktData w) = true then .badConfig
  else if opc = 2 ∧ (pktSel w % 4, pktSel w / 4) ∉ [(1, 1), (1, 2), (2, 2)] then .badLayout
  else if (opc = 4 ∨ opc = 5) ∧ 9 < pktSel w then .badIndex
  else if (opc = 6 ∨ opc = 7) ∧ (s.st = .uninit ∨ s.nblk ≤ pktIdx w) then .badIndex
  else if opc = 2 ∧ (s.st = .uninit ∨ s.st = .released) then .notPrepared
  else .none

/-- A filter over a list of samples, in increasing order: the outputs and the state words after (43_filter_chain_block.md
R135, R136). -/
def filterList (k : Biquad) : ZPair → List F → List F × ZPair
  | z, [] => ([], z)
  | z, x :: xs =>
    let y := fadd (fmul k.b0 x) z.z1
    let z1 := fadd (fsub (fmul k.b1 x) (fmul k.a1 y)) z.z2
    let z2 := fsub (fmul k.b2 x) (fmul k.a2 y)
    let r := filterList k ⟨z1, z2⟩ xs
    (y :: r.1, r.2)

end Sys2Proof.Machine
end

