-- ==== Sys2Proof/Certificates/Slice0/Obligations.lean ====
section
/-! DEFINITION. The statements for the provers. Addresses are those of 20_memory.md R44 and R45; a state is compared field
by field by writing it as the state before with the named fields replaced. -/

open Sys2Proof Sys2Proof.Machine

/-! ## Encoding (30_encoding.md) -/

/-- R61 to R65, R69, R70: every well-formed instruction is read back from its code, with every operand. -/
def Obligations.DecodeInvertsEncode : Prop :=
  ∀ i : Instr, i.wellFormed = true → decode (encode i) = .ok i

/-- R61 to R65, R69, R70, R73 (c): what decodes is well formed and has one code only. -/
def Obligations.EncodeInvertsDecode : Prop :=
  ∀ (c : Code) (i : Instr), decode c = .ok i → i.wellFormed = true ∧ encode i = c

/-- The words that 30_encoding.md and 44_port_commands.md print beside a packet, and codes of R69 and R70. -/
def Obligations.PrintedWordsDecode : Prop :=
  decode (.pkt 0x10000200472C4400#64) = .ok (.prepare 512 0x472C4400#32) ∧
  decode (.pkt 0x2900000000000000#64) = .ok (.process 2 1) ∧
  decode (.pkt 0x490000003F800000#64) = .ok (.wrp 9 0x3F800000#32) ∧
  decode (.pkt 0x610000033F000000#64) = .ok (.wrb .c1 3 0x3F000000#32) ∧
  decode (.pkt 0x7000000000000000#64) = .ok (.rdb .c0 0) ∧
  decode (.ph 6#4) = .ok .mid ∧
  decode (.type 2#2) = .ok .shapeBi

/-- R62: a packet selects the row whose `p AND mask = match`; at most one row matches; with R73 (a), a packet that matches
no row, as one with `OPC` 9 to 15, is no instruction. -/
def Obligations.OpcodeMapSelectsRow : Prop :=
  ∀ w : Packet,
    (∀ r ∈ opcodeMap, w &&& r.mask = r.pattern ↔ pktOpc w = r.opc ∧ ∃ i, decode (.pkt w) = .ok i) ∧
    (∀ r ∈ opcodeMap, ∀ q ∈ opcodeMap, w &&& r.mask = r.pattern → w &&& q.mask = q.pattern → r = q) ∧
    ((∀ r ∈ opcodeMap, w &&& r.mask ≠ r.pattern) ↔ ∃ e, decode (.pkt w) = .error e) ∧
    (9 ≤ pktOpc w → ∃ e, decode (.pkt w) = .error e)

/-! ## The step (60_exceptions.md R188) -/

/-- R188, R52: the packet next in the order of acceptance runs as the instruction it decodes to, on the port it came by;
on the audio port only while no block is in flight. How the order reaches the step is the model's choice (log 1). -/
def Obligations.StepRunsDecodedPacket : Prop :=
  ∀ (s : State) (p : Port) (w : Packet) (rest : List Input) (i : Instr),
    s.inputs = .packet p w :: rest → (p = .audio → s.busy = false) → decode (.pkt w) = .ok i →
    step s = exec i { s with inputs := rest, port := p }

/-- R188, R16: while a block is in flight the sequencer runs the instruction its position decodes to, on its turn (log 1),
when no input waits, or when a packet waits for the audio port (R52). With no block in flight and no packet the core waits
and nothing changes (R201, R210, log 27). -/
def Obligations.StepRunsSequencerPosition : Prop :=
  ∀ s : State,
    (∀ i : Instr, s.busy = true → decode (sequencerCode s) = .ok i →
      (∀ rest, s.inputs = .advance :: rest → step s = exec i { s with inputs := rest }) ∧
      (s.inputs = [] → step s = exec i s) ∧
      (∀ w rest, s.inputs = .packet .audio w :: rest → step s = exec i s)) ∧
    (s.busy = false →
      (∀ rest, s.inputs = .advance :: rest → step s = .next { s with inputs := rest }) ∧
      (s.inputs = [] → step s = .next s))

/-- R69, R70: the position in each phase decodes to the phase, and inside DIST, on the shaper's turn (log 16), to the
shaper of `TYPE`. -/
def Obligations.SequencerPositionNamesItsRow : Prop :=
  ∀ s : State,
    (s.ph = .latch → decode (sequencerCode s) = .ok .latch) ∧
    (s.ph = .clear → decode (sequencerCode s) = .ok .clear) ∧
    (s.ph = .coef → decode (sequencerCode s) = .ok .coef) ∧
    (s.ph = .up → decode (sequencerCode s) = .ok .up) ∧
    (s.ph = .hpf → decode (sequencerCode s) = .ok .hpf) ∧
    (s.ph = .mid → decode (sequencerCode s) = .ok .mid) ∧
    (s.ph = .dist → s.dstage ≠ .shape → decode (sequencerCode s) = .ok .dist) ∧
    (s.ph = .dist → s.dstage = .shape → s.type = .wa → decode (sequencerCode s) = .ok .shapeWa) ∧
    (s.ph = .dist → s.dstage = .shape → s.type = .sa → decode (sequencerCode s) = .ok .shapeSa) ∧
    (s.ph = .dist → s.dstage = .shape → s.type = .bi → decode (sequencerCode s) = .ok .shapeBi) ∧
    (s.ph = .lpf → decode (sequencerCode s) = .ok .lpf) ∧
    (s.ph = .down → decode (sequencerCode s) = .ok .down)

/-- R73 (a), R181, R182: a packet that matches no row records `ILLEGAL_CMD` and does nothing else. That it sends no
response is the model's reading (log 21). -/
def Obligations.IllegalPacketFaults : Prop :=
  ∀ (s : State) (p : Port) (w : Packet) (rest : List Input),
    s.inputs = .packet p w :: rest → (p = .audio → s.busy = false) →
    (∀ r ∈ opcodeMap, w &&& r.mask ≠ r.pattern) →
    step s = .next (faultRecorded { s with inputs := rest, port := p } .illegalCmd)

/-! ## Reset (10_state.md R28, 70_reset_and_hazards.md R200) -/

/-- R28, R200, R11: what the machine right after reset holds, where the spec gives a value. -/
def Obligations.ResetStateHoldsSpecValues : Prop :=
  State.reset.st = .uninit ∧ State.reset.busy = false ∧ State.reset.ph = .idle ∧ State.reset.fault = false ∧
  State.reset.cause = .none ∧ (∀ r ∈ parameterTable, State.reset.param.get r.slot = r.dflt) ∧
  statusWord State.reset = 0#32

/-- R200: the reset input, in any state, ends a block in flight and leaves the values of R28. What the agents have yet to
send and the responses already sent stay (log 6). -/
def Obligations.ResetInputAtAnyTime : Prop :=
  ∀ (s : State) (rest : List Input), s.inputs = .rst :: rest →
    ∃ t, step s = .next t ∧ t.st = .uninit ∧ t.busy = false ∧ t.ph = .idle ∧ t.fault = false ∧ t.cause = .none ∧
      (∀ r ∈ parameterTable, t.param.get r.slot = r.dflt) ∧ t.inputs = rest ∧ t.resp = s.resp

/-! ## Command packets (44_port_commands.md) -/

/-- R160: NOP, on either port, in every state. -/
def Obligations.NopChangesNothing : Prop :=
  ∀ s : State, exec .nop s = .next s

/-- R161: PREPARE, refused on the control port, refused on bad operands, else the new configuration, all filter and
oversampler memories at +0, `CO L TYPE BUF WBUF` left open, everything else as it was. `BUSY = 0`, `PH = IDLE` and `CH IX
NIN NOUT` being left open are R28's, read as effects of PREPARE (log 24); that `gate cg d0 d1`, the model's own words, are
kept is its choice (log 16). Derived from R161 and R28. -/
def Obligations.PrepareStartsStream : Prop :=
  ∀ (n : Nat) (fs : F) (s : State),
    (s.port = .control → exec (.prepare n fs) s = .next (faultRecorded s .port)) ∧
    (s.port = .audio →
      (isNaN fs = true ∨ flt 0x00000000#32 fs = false ∨ fs = 0x7F800000#32 ∨ n = 0 ∨ Config.nblkMax < n) →
      exec (.prepare n fs) s = .next (faultRecorded s .badConfig)) ∧
    (s.port = .audio → isNaN fs = false → flt 0x00000000#32 fs = true → fs ≠ 0x7F800000#32 → n ≠ 0 →
      n ≤ Config.nblkMax →
      ∃ t, exec (.prepare n fs) s = .next t ∧
        t.fs = fs ∧ t.nblk = n ∧ t.st = .prepared ∧ t.busy = false ∧ t.ph = .idle ∧
        (∀ (r : Role) (c : Chan), (t.z.get r).get c = ⟨0x00000000#32, 0x00000000#32⟩) ∧
        (∀ c : Chan, (t.os.get c).cleared) ∧
        t = { s with
          fs := t.fs, nblk := t.nblk, st := t.st, busy := t.busy, ph := t.ph, z := t.z, os := t.os, ch := t.ch, ix := t.ix,
          nin := t.nin, nout := t.nout, l := t.l, type := t.type, co := t.co, mem := t.mem, bufEpoch := t.bufEpoch,
          wbufEpoch := t.wbufEpoch, draws := t.draws })

/-- R162, R183: PROCESS, refused by port, then by layout, then by lifecycle state; else the block starts at LATCH with all
ten slots to be latched (the model's bookkeeping, log 14). `CH` and `IX` at 0 on entering LATCH and `dstage` at its start
are the model's choices (log 17, log 16). -/
def Obligations.ProcessStartsBlock : Prop :=
  ∀ (nout nin : Nat) (s : State),
    (s.port = .control → exec (.process nout nin) s = .next (faultRecorded s .port)) ∧
    (s.port = .audio → (nin, nout) ∉ [(1, 1), (1, 2), (2, 2)] →
      exec (.process nout nin) s = .next (faultRecorded s .badLayout)) ∧
    (s.port = .audio → (nin, nout) ∈ [(1, 1), (1, 2), (2, 2)] → (s.st = .uninit ∨ s.st = .released) →
      exec (.process nout nin) s = .next (faultRecorded s .notPrepared)) ∧
    (s.port = .audio → (nin, nout) ∈ [(1, 1), (1, 2), (2, 2)] → (s.st = .prepared ∨ s.st = .processing) →
      exec (.process nout nin) s = .next { s with
        busy := true, nin := nin, nout := nout, st := .processing, ph := .latch, ch := .c0, ix := 0, dstage := .gate,
        latchLeft := [.drive, .range, .blend, .volume, .midFreq, .midGain, .highPassFreq, .lowPassFreq,
          .distortionType, .bypass] })

/-- R163: RELEASE, refused on the control port, nothing in `UNINIT`, else `RELEASED` with the oversampler memories at +0,
the filter memories and `WBUF` left open, every word of `BUF` and everything else as it was. `BUSY = 0` and `PH = IDLE` are
R28's, read as effects of RELEASE (log 24); that `gate cg d0 d1`, the model's own words, are kept is its choice (log 16).
Derived from R163 and R28. -/
def Obligations.ReleaseEndsStream : Prop :=
  ∀ s : State,
    (s.port = .control → exec .release s = .next (faultRecorded s .port)) ∧
    (s.port = .audio → s.st = .uninit → exec .release s = .next s) ∧
    (s.port = .audio → s.st ≠ .uninit →
      ∃ t, exec .release s = .next t ∧
        t.st = .released ∧ t.busy = false ∧ t.ph = .idle ∧ (∀ c : Chan, (t.os.get c).cleared) ∧
        (∀ a < 2 ^ 24, readWord t a = readWord s a) ∧
        t = { s with
          st := t.st, busy := t.busy, ph := t.ph, os := t.os, z := t.z, mem := t.mem, wbufEpoch := t.wbufEpoch,
          draws := t.draws })

/-- R164, R11: WRP, refused on the audio port, refused on an index above 9, else the clamped value in the slot and nothing
else. -/
def Obligations.WrpStoresClampedValue : Prop :=
  ∀ (idx : Nat) (v : F) (s : State),
    (s.port = .audio → exec (.wrp idx v) s = .next (faultRecorded s .port)) ∧
    (s.port = .control → 9 < idx → exec (.wrp idx v) s = .next (faultRecorded s .badIndex)) ∧
    (s.port = .control → ∀ r ∈ parameterTable, r.idx = idx →
      ∃ t, exec (.wrp idx v) s = .next t ∧
        t.param.get r.slot = (if isNaN v || flt v r.lo then r.lo else if fgt v r.hi then r.hi else v) ∧
        (∀ q : Param, q ≠ r.slot → t.param.get q = s.param.get q) ∧
        t = { s with param := t.param })

/-- R165, R66, R181: RDP answers the slot's word on the port it came by; with an index above 9 it records `BAD_INDEX` and
answers one word of which nothing is said. Nothing else changes but the count of draws (log 5). -/
def Obligations.RdpAnswersSlot : Prop :=
  ∀ (idx : Nat) (s : State),
    (9 < idx → ∃ w : F, exec (.rdp idx) s =
      .next { faultRecorded s .badIndex with resp := s.resp ++ [(s.port, w)], draws := s.draws + 1 }) ∧
    (∀ r ∈ parameterTable, r.idx = idx →
      exec (.rdp idx) s = .next { s with resp := s.resp ++ [(s.port, s.param.get r.slot)] })

/-- R166, R44: WRB, refused on the control port, refused in `UNINIT` or past the block, else one word of `BUF`. -/
def Obligations.WrbWritesBuffer : Prop :=
  ∀ (c : Chan) (i : Nat) (v : F) (s : State),
    (s.port = .control → exec (.wrb c i v) s = .next (faultRecorded s .port)) ∧
    (s.port = .audio → (s.st = .uninit ∨ s.nblk ≤ i) → exec (.wrb c i v) s = .next (faultRecorded s .badIndex)) ∧
    (s.port = .audio → s.st ≠ .uninit → i < s.nblk →
      ∃ t, exec (.wrb c i v) s = .next t ∧
        readWord t (bufAddr s.nblk c i) = v ∧
        (∀ b, b ≠ bufAddr s.nblk c i → readWord t b = readWord s b) ∧
        t = { s with mem := t.mem })

/-- R167, R44, R66, R181: RDB answers one word of `BUF`; refused on the control port, in `UNINIT` and past the block, where
it answers one word of which nothing is said. -/
def Obligations.RdbAnswersBuffer : Prop :=
  ∀ (c : Chan) (i : Nat) (s : State),
    (s.port = .control → ∃ w : F, exec (.rdb c i) s =
      .next { faultRecorded s .port with resp := s.resp ++ [(s.port, w)], draws := s.draws + 1 }) ∧
    (s.port = .audio → (s.st = .uninit ∨ s.nblk ≤ i) → ∃ w : F, exec (.rdb c i) s =
      .next { faultRecorded s .badIndex with resp := s.resp ++ [(s.port, w)], draws := s.draws + 1 }) ∧
    (s.port = .audio → s.st ≠ .uninit → i < s.nblk →
      exec (.rdb c i) s = .next { s with resp := s.resp ++ [(s.port, readWord s (bufAddr s.nblk c i))] })

/-- R168, R18, R15, R70, R182: RDS answers STATUS, bit for bit, on either port, and changes nothing else. -/
def Obligations.RdsAnswersStatus : Prop :=
  ∀ s : State, ∃ w : F,
    exec .rds s = .next { s with resp := s.resp ++ [(s.port, w)] } ∧
    w.extractLsb' 0 2 = stCode s.st ∧ w.getLsbD 2 = s.busy ∧ w.getLsbD 3 = s.fault ∧
    w.extractLsb' 4 4 = causeCode s.cause ∧ w.extractLsb' 8 4 = phCode s.ph ∧ w.extractLsb' 12 20 = 0#20 ∧
    [Lifecycle.uninit, .prepared, .processing, .released].map stCode = [0#2, 1#2, 2#2, 3#2] ∧
    [Cause.none, .illegalCmd, .notPrepared, .badConfig, .badLayout, .port, .badIndex].map causeCode =
      [0#4, 1#4, 2#4, 3#4, 4#4, 5#4, 6#4] ∧
    [Phase.idle, .latch, .clear, .coef, .up, .hpf, .mid, .dist, .lpf, .down].map phCode =
      [0#4, 1#4, 2#4, 3#4, 4#4, 5#4, 6#4, 7#4, 8#4, 9#4]

/-- R44, R166, R167: what WRB stores RDB answers, and no other word of `BUF` answers it. -/
def Obligations.BufferReadsAfterWrite : Prop :=
  ∀ (s : State) (c d : Chan) (i j : Nat) (v : F),
    s.port = .audio → s.st ≠ .uninit → i < s.nblk → j < s.nblk →
    ∃ t u, exec (.wrb c i v) s = .next t ∧ exec (.rdb d j) t = .next u ∧
      u.resp = s.resp ++ [(.audio, if d = c ∧ j = i then v else readWord s (bufAddr s.nblk d j))]

/-- R44, R45, R64: the addresses of the two buffers, distinct for distinct words and apart from each other for every block
size PREPARE accepts. -/
def Obligations.BufferAddressesAreDistinct : Prop :=
  ∀ (n : Nat) (c d : Chan) (i j : Nat),
    bufAddr n .c0 i = i ∧ bufAddr n .c1 i = n + i ∧
    wbufAddr n .c0 i = 2 ^ 24 + i ∧ wbufAddr n .c1 i = 2 ^ 24 + 2 * n + i ∧
    (i < n → j < n → bufAddr n c i = bufAddr n d j → c = d ∧ i = j) ∧
    (i < 2 * n → j < 2 * n → wbufAddr n c i = wbufAddr n d j → c = d ∧ i = j) ∧
    (n ≤ Config.nblkMax → i < n → bufAddr n c i < wbufAddr n d j)

/-! ## Rules over all packets and steps -/

/-- R17, R181, R182, R183: a step other than reset keeps `FAULT` once it is set, and with it `CAUSE`. While `FAULT` is clear
a packet that is accepted sets it exactly if one of the conditions of R182 holds of it, and `CAUSE` then is the code of the
first that does, in the order of R183; nothing else sets it. -/
def Obligations.FirstCauseKept : Prop :=
  ∀ s t : State, step s = .next t → (∀ rest, s.inputs ≠ .rst :: rest) →
    (s.fault = true → t.fault = true ∧ t.cause = s.cause) ∧
    (s.fault = false → ∀ p w rest, s.inputs = .packet p w :: rest → (p = .audio → s.busy = false) →
      (t.fault = true ↔ packetCause s p w ≠ .none) ∧
      t.cause = if packetCause s p w = .none then s.cause else packetCause s p w) ∧
    (s.fault = false → t.fault = true →
      ∃ p w rest, s.inputs = .packet p w :: rest ∧ (p = .audio → s.busy = false) ∧ t.cause = packetCause s p w)

/-- R180, R11: no phase and no shaper raises a fault, writes a parameter or answers; each has a next state in every state.
-/
def Obligations.BlockRaisesNothing : Prop :=
  ∀ i ∈ [Instr.latch, .clear, .coef, .up, .hpf, .mid, .dist, .lpf, .down, .shapeWa, .shapeSa, .shapeBi],
    ∀ s : State, ∃ t, exec i s = .next t ∧ t.fault = s.fault ∧ t.cause = s.cause ∧ t.param = s.param ∧
      t.resp = s.resp ∧ t.inputs = s.inputs ∧ t.fs = s.fs ∧ t.nblk = s.nblk ∧ t.st = s.st

/-- R55, R187: a packet on the control port, whatever it is and whether or not a block is in flight, reaches the
parameters, the fault registers and its own response, and nothing else. -/
def Obligations.ControlPortReachesOnlyParameters : Prop :=
  ∀ (s t : State) (w : Packet) (rest : List Input),
    s.inputs = .packet .control w :: rest → step s = .next t →
    t = { s with
      inputs := rest, port := .control, param := t.param, fault := t.fault, cause := t.cause, resp := t.resp,
      draws := t.draws }

/-- R11, R187: a step changes the parameter bank only by reset or by a WRP on the control port. -/
def Obligations.OnlyWrpWritesParameters : Prop :=
  ∀ s t : State, step s = .next t → t.param ≠ s.param →
    (∃ rest, s.inputs = .rst :: rest) ∨
    (∃ w rest idx v, s.inputs = .packet .control w :: rest ∧ decode (.pkt w) = .ok (.wrp idx v))

/-- R148: the lifecycle transitions of every instruction, by the table of the rule. -/
def Obligations.LifecycleTransitions : Prop :=
  ∀ (i : Instr) (s : State), ∃ t, exec i s = .next t ∧
    t.st = match i with
      | .prepare n fs => if s.port = .audio ∧ badConfig n fs = false then .prepared else s.st
      | .process nout nin =>
        if s.port = .audio ∧ legalLayout nin nout = true ∧ (s.st = .prepared ∨ s.st = .processing) then .processing
        else s.st
      | .release => if s.port = .audio ∧ s.st ≠ .uninit then .released else s.st
      | _ => s.st

/-! ## LATCH, CLEAR and the bypass (43_filter_chain_block.md) -/

/-- R139, R140, R25 (b): LATCH reads the bypass slot first, and where it is above 0.5 (a NaN is not, R67) the block ends
with nothing else written; then each of the others once, whichever comes (log 14); with the last one `TYPE` is computed and
CLEAR begins. Each read copies the slot's word as it is now. The position is the model's choice: at CLEAR's start `IX` is 0,
`CH` is 0 for `NIN = 0` and 1 for every other `NIN`, 2 too, and `dstage` is at its start; the bypass exit keeps `CH` and
`IX` (log 17, log 16). -/
def Obligations.LatchReadsEachSlotOnce : Prop :=
  ∀ s : State,
    (Param.bypass ∈ s.latchLeft → fgt s.param.bypass 0x3F000000#32 = true →
      exec .latch s = .next { s with
        l := s.l.set .bypass s.param.bypass, latchLeft := [], ph := .idle, busy := false }) ∧
    (Param.bypass ∈ s.latchLeft → fgt s.param.bypass 0x3F000000#32 = false ∨ isNaN s.param.bypass = true →
      exec .latch s = .next { s with
        l := s.l.set .bypass s.param.bypass, latchLeft := s.latchLeft.erase .bypass }) ∧
    (Param.bypass ∉ s.latchLeft → 2 ≤ s.latchLeft.length →
      ∃ p ∈ s.latchLeft, exec .latch s = .next { s with
        l := s.l.set p (s.param.get p), latchLeft := s.latchLeft.erase p, draws := s.draws + 1 }) ∧
    (∀ p, p ≠ Param.bypass → s.latchLeft = [p] →
      ∃ t, exec .latch s = .next t ∧
        t.l.get p = s.param.get p ∧ (∀ q, q ≠ p → t.l.get q = s.l.get q) ∧
        t.type = typeCode t.l.distortionType ∧
        t = { s with
          l := t.l, latchLeft := [], type := t.type, ph := .clear, ix := 0, dstage := .gate,
          ch := if s.nin = 0 then .c0 else .c1 })

/-- R140, R26, R209: a PROCESS accepted while the bypass slot is above 0.5 is over after two steps and has left every word
of `BUF` and `WBUF`, the coefficients, the filter and oversampler memories, `TYPE` and `L[0..8]` as they were; `ST` is
`PROCESSING`. The two steps are the acceptance and the bypass read (R188; log 15). -/
def Obligations.BypassedBlockIsIdentity : Prop :=
  ∀ (s : State) (w : Packet) (nout nin : Nat),
    s.inputs = [.packet .audio w] → decode (.pkt w) = .ok (.process nout nin) → s.busy = false →
    (nin, nout) ∈ [(1, 1), (1, 2), (2, 2)] → (s.st = .prepared ∨ s.st = .processing) →
    fgt s.param.bypass 0x3F000000#32 = true →
    ∃ t : State, Sys2Proof.core.run 2 s = .next t ∧ t.st = .processing ∧ t.busy = false ∧ t.ph = .idle ∧
      (∀ a, readWord t a = readWord s a) ∧
      (∀ p, p ≠ Param.bypass → t.l.get p = s.l.get p) ∧ t.l.bypass = s.param.bypass ∧
      t = { s with
        inputs := [], port := .audio, st := t.st, ph := t.ph, l := t.l, nin := nin, nout := nout,
        ch := t.ch, ix := t.ix, dstage := t.dstage, latchLeft := t.latchLeft }

/-- R139, R51: with nothing falling between its reads, LATCH takes ten steps, in whatever order the slots are read (log 14),
and then `L` is the whole bank, `TYPE` its type code, and the block goes on with CLEAR. One read a step is R188's grain; the
order, the position and `dstage` afterwards are the model's (log 14, log 17, log 16). -/
def Obligations.LatchPhaseCopiesBank : Prop :=
  ∀ s : State, s.busy = true → s.ph = .latch → s.inputs = [] → fgt s.param.bypass 0x3F000000#32 = false →
    s.latchLeft.Perm [.drive, .range, .blend, .volume, .midFreq, .midGain, .highPassFreq, .lowPassFreq,
      .distortionType, .bypass] →
    ∃ t : State, Sys2Proof.core.run 10 s = .next t ∧ t.l = s.param ∧ t.type = typeCode s.param.distortionType ∧
      t.ph = .clear ∧ t.latchLeft = [] ∧
      t = { s with
        l := t.l, type := t.type, ph := t.ph, ch := t.ch, ix := t.ix, dstage := t.dstage, latchLeft := t.latchLeft,
        draws := t.draws }

/-- R68, R212: the type code of every word. -/
def Obligations.TypeCodeThresholds : Prop :=
  ∀ v : F,
    (isNaN v = true → typeCode v = .wa) ∧
    (isNaN v = false → flt v 0x3E800000#32 = true → typeCode v = .wa) ∧
    (isNaN v = false → flt v 0x3E800000#32 = false → flt v 0x3F400000#32 = true → typeCode v = .sa) ∧
    (isNaN v = false → flt v 0x3F400000#32 = false → typeCode v = .bi) ∧
    [Shaper.wa, .sa, .bi].map typeBits = [0#2, 1#2, 2#2]

/-- R141: CLEAR writes +0 to one sample of a channel from `NIN` to `NOUT - 1` and goes on; with no such channel it goes
straight on to COEF (that this takes a step is the model's grain, log 15). The position goes on as `movedOn` has it, with
the model's choice of `CH`, `IX` and `dstage` on entering a phase (log 17, log 16). -/
def Obligations.ClearSilencesExtraChannel : Prop :=
  ∀ s : State,
    (s.nin ≤ chanIndex s.ch → chanIndex s.ch < s.nout → s.ix < s.nblk →
      ∃ t, exec .clear s = .next t ∧
        readWord t (bufAddr s.nblk s.ch s.ix) = 0x00000000#32 ∧
        (∀ b, b ≠ bufAddr s.nblk s.ch s.ix → readWord t b = readWord s b) ∧
        movedOn s t s.nout s.nblk .coef ∧
        t = { s with mem := t.mem, ph := t.ph, ch := t.ch, ix := t.ix, dstage := t.dstage }) ∧
    (s.nout ≤ s.nin → exec .clear s = .next { s with ph := .coef, ch := .c0, ix := 0, dstage := .gate })

/-- R49, R50, R51: a WRP that lands before the latch read of its slot is seen by the block in flight, one that lands after
it is not; the bank holds the new word either way. For every slot and every set of slots still to be read (`latchLeft`, one
read a step, log 14), in a block that the bypass read does not end: (1) a WRP of a slot still to be read, then the rest of
LATCH; (2) a WRP of the bypass slot still to be read, then that read, which ends the block if the new word is above 0.5
(R140); (3) a WRP of a slot already read, then the rest of LATCH; (4) one more read, then the WRP: where that read was of
the slot, `L` holds the old word; it was of the slot if the slot is the only one left, or bypass, which is read first. -/
def Obligations.LatchReadAgainstWrite : Prop :=
  ∀ (s : State) (w : Packet) (r : ParamRow) (v : F),
    r ∈ parameterTable → decode (.pkt w) = .ok (.wrp r.idx v) →
    isNaN v = false → flt v r.lo = false → fgt v r.hi = false →
    s.busy = true → s.ph = .latch → s.latchLeft.Nodup →
    (r.slot ∈ s.latchLeft → r.slot ≠ .bypass →
      (Param.bypass ∈ s.latchLeft → fgt s.param.bypass 0x3F000000#32 = false) →
      ∃ t : State,
        Sys2Proof.core.run (1 + s.latchLeft.length) { s with inputs := [.packet .control w] } = .next t ∧
        t.l.get r.slot = v ∧ t.param.get r.slot = v ∧ t.ph = .clear) ∧
    (r.slot ∈ s.latchLeft → r.slot = .bypass →
      ∃ t : State, Sys2Proof.core.run 2 { s with inputs := [.packet .control w] } = .next t ∧
        t.l.get r.slot = v ∧ t.param.get r.slot = v ∧ (t.busy = false ↔ fgt v 0x3F000000#32 = true)) ∧
    (r.slot ∉ s.latchLeft → (∃ q ∈ s.latchLeft, q ≠ Param.bypass) →
      (Param.bypass ∈ s.latchLeft → fgt s.param.bypass 0x3F000000#32 = false) →
      ∃ t : State,
        Sys2Proof.core.run (1 + s.latchLeft.length) { s with inputs := [.packet .control w] } = .next t ∧
        t.l.get r.slot = s.l.get r.slot ∧ t.param.get r.slot = v ∧ t.ph = .clear) ∧
    (r.slot ∈ s.latchLeft →
      (Param.bypass ∈ s.latchLeft → r.slot ≠ .bypass → fgt s.param.bypass 0x3F000000#32 = false) →
      ∃ u : State, Sys2Proof.core.run 2 { s with inputs := [.advance, .packet .control w] } = .next u ∧
        u.param.get r.slot = v ∧ (r.slot ∉ u.latchLeft → u.l.get r.slot = s.param.get r.slot) ∧
        (s.latchLeft = [r.slot] ∨ r.slot = .bypass → r.slot ∉ u.latchLeft) ∧
        (s.latchLeft = [r.slot] → r.slot ≠ .bypass → u.ph = .clear))

/-- R50, R205: once LATCH is over, no write to the parameter bank changes anything the block in flight computes. -/
def Obligations.LatchedParametersHold : Prop :=
  ∀ i ∈ [Instr.clear, .coef, .up, .hpf, .mid, .dist, .lpf, .down, .shapeWa, .shapeSa, .shapeBi],
    ∀ (s : State) (b : Params), ∃ t, exec i s = .next t ∧
      exec i { s with param := b } = .next { t with param := b }

/-- The model's choice of grain (log 15): a phase with nothing left to do at its position takes one step to the next phase;
it touches nothing but the position, and LATCH writes `TYPE` as well, as its last read would. `CH` and `IX` on entering a
phase and at the end of the block are the model's choice (log 17), `dstage` too (log 16). No run comes to such a position
but in CLEAR (`StepKeepsInvariant`), where R141 has no channel to clear. -/
def Obligations.PhaseWithoutSampleMovesOn : Prop :=
  ∀ s : State,
    (∀ x ∈ [(Instr.hpf, Phase.mid), (.mid, .dist), (.dist, .lpf), (.lpf, .down)],
      (s.nin ≤ chanIndex s.ch ∨ 2 * s.nblk ≤ s.ix) →
      exec x.1 s = .next { s with ph := x.2, ch := .c0, ix := 0, dstage := .gate }) ∧
    ((s.nin ≤ chanIndex s.ch ∨ s.nblk ≤ s.ix) →
      exec .up s = .next { s with ph := .hpf, ch := .c0, ix := 0, dstage := .gate }) ∧
    ((s.nin ≤ chanIndex s.ch ∨ s.nblk ≤ s.ix) → exec .down s = .next { s with ph := .idle, busy := false }) ∧
    ((chanIndex s.ch < s.nin ∨ s.nout ≤ chanIndex s.ch ∨ s.nblk ≤ s.ix) →
      exec .clear s = .next { s with ph := .coef, ch := .c0, ix := 0, dstage := .gate }) ∧
    (s.latchLeft = [] → exec .latch s = .next { s with
      type := typeCode s.l.distortionType, ph := .clear, ch := if s.nin = 0 then .c0 else .c1, ix := 0, dstage := .gate })

/-! ## COEF (40_coefficients.md) -/

/-- R82, R81: the high-pass bundle, for a cutoff above zero (for the others the coefficients are left open, log 25),
whatever `K_NYQ` (log 11) and the rate multiple (log 12) of the build. -/
def Obligations.CoefHighPassFormula : Prop :=
  ∀ s : State, fgt s.l.highPassFreq 0x00000000#32 = true →
    ∃ t, exec .coef s = .next t ∧
      let fse := fmul s.fs coefFsMult
      let fmax := fmul Config.kNyq fse
      let f := if fgt s.l.highPassFreq fmax then fmax else s.l.highPassFreq
      let x := fdiv (fmul 0x40490FDB#32 f) fse
      let n := numTan x
      let n2 := fmul n n
      let iq := fdiv 0x3F800000#32 0x3F3504F3#32
      let c1 := fdiv 0x3F800000#32 (fadd (fadd 0x3F800000#32 (fmul iq n)) n2)
      t.co.hp.b0 = c1 ∧ t.co.hp.b1 = fmul c1 0xC0000000#32 ∧ t.co.hp.b2 = c1 ∧
      t.co.hp.a1 = fmul (fmul c1 0x40000000#32) (fsub n2 0x3F800000#32) ∧
      t.co.hp.a2 = fmul c1 (fadd (fsub 0x3F800000#32 (fmul iq n)) n2)

/-- R83, R81: the low-pass bundle, for a cutoff above zero (log 25), whatever `K_NYQ` (log 11) and the rate multiple (log
12). -/
def Obligations.CoefLowPassFormula : Prop :=
  ∀ s : State, fgt s.l.lowPassFreq 0x00000000#32 = true →
    ∃ t, exec .coef s = .next t ∧
      let fse := fmul s.fs coefFsMult
      let fmax := fmul Config.kNyq fse
      let f := if fgt s.l.lowPassFreq fmax then fmax else s.l.lowPassFreq
      let x := fdiv (fmul 0x40490FDB#32 f) fse
      let n := fdiv 0x3F800000#32 (numTan x)
      let n2 := fmul n n
      let iq := fdiv 0x3F800000#32 0x3F333333#32
      let c1 := fdiv 0x3F800000#32 (fadd (fadd 0x3F800000#32 (fmul iq n)) n2)
      t.co.lp.b0 = c1 ∧ t.co.lp.b1 = fmul c1 0x40000000#32 ∧ t.co.lp.b2 = c1 ∧
      t.co.lp.a1 = fmul (fmul c1 0x40000000#32) (fsub 0x3F800000#32 n2) ∧
      t.co.lp.a2 = fmul c1 (fadd (fsub 0x3F800000#32 (fmul iq n)) n2)

/-- R84, R85, R81: the peaking bundle, for a cutoff above zero (log 25), whatever `K_NYQ` (log 11) and the multiple (log
12). -/
def Obligations.CoefMidFormula : Prop :=
  ∀ s : State, fgt s.l.midFreq 0x00000000#32 = true →
    ∃ t, exec .coef s = .next t ∧
      let fse := fmul s.fs coefFsMult
      let fmax := fmul Config.kNyq fse
      let f := if fgt s.l.midFreq fmax then fmax else s.l.midFreq
      let g := numPow10 (fdiv s.l.midGain 0x41A00000#32)
      let a := fsqrt g
      let w := fdiv (fmul (fmul 0x40000000#32 0x40490FDB#32) f) fse
      let al := fdiv (numSin w) (fmul 0x3F800000#32 0x40000000#32)
      let c2 := fmul 0xC0000000#32 (numCos w)
      let aA := fmul al a
      let aoA := fdiv al a
      let inv := fdiv 0x3F800000#32 (fadd 0x3F800000#32 aoA)
      t.co.mid.b0 = fmul (fadd 0x3F800000#32 aA) inv ∧ t.co.mid.b1 = fmul c2 inv ∧
      t.co.mid.b2 = fmul (fsub 0x3F800000#32 aA) inv ∧ t.co.mid.a1 = fmul c2 inv ∧
      t.co.mid.a2 = fmul (fsub 0x3F800000#32 aoA) inv

/-- R80, R86: COEF completes in every state, writes the coefficient bank and the position and nothing else (the count of
draws is the model's, log 25), and for cutoffs above zero gives equal banks for equal `FS` and `L`. That it takes one step
is the model's grain (log 15), `CH`, `IX` and `dstage` at UP's start its choice (log 17, log 16). -/
def Obligations.CoefIsPure : Prop :=
  ∀ s r : State, ∃ t u, exec .coef s = .next t ∧ exec .coef r = .next u ∧
    t = { s with co := t.co, draws := s.draws + 1, ph := .up, ch := .c0, ix := 0, dstage := .gate } ∧
    (fgt s.l.highPassFreq 0x00000000#32 = true → fgt s.l.midFreq 0x00000000#32 = true →
      fgt s.l.lowPassFreq 0x00000000#32 = true → r.fs = s.fs → r.l = s.l → u.co = t.co)

/-! ## UP and DOWN (41_oversampler.md) -/

/-- R101: the cascade of allpass sections, section by section (with no section it returns its input); and the
coefficients a build can have (log 13) are the words of the open interval (-1, 1). -/
def Obligations.AllpassCascade : Prop :=
  (∀ (a v x : F) (coefs mem : List F),
    cascade [] mem x = (x, mem) ∧
    cascade (a :: coefs) (v :: mem) x =
      ((cascade coefs mem (fadd (fmul a x) v)).1,
        fsub x (fmul a (fadd (fmul a x) v)) :: (cascade coefs mem (fadd (fmul a x) v)).2)) ∧
  (∀ w : F, (∃ c : AllpassCoef, fpack c.1 c.2.val = w) ↔ flt 0xBF800000#32 w = true ∧ flt w 0x3F800000#32 = true) ∧
  (∀ w ∈ Config.osAD ++ Config.osAP, ∃ c : AllpassCoef, fpack c.1 c.2.val = w)

/-- R102, R44, R45: one sample of UP: the pair of wide words, the memories of the upsampler of this channel, the position,
and nothing else. One sample a step is the model's grain (log 15); the position goes on as `movedOn` has it (log 17, log
16). -/
def Obligations.UpWritesWidePair : Prop :=
  ∀ s : State, chanIndex s.ch < s.nin → s.ix < s.nblk →
    ∃ t, exec .up s = .next t ∧
      let m := s.os.get s.ch
      let x := readWord s (bufAddr s.nblk s.ch s.ix)
      let d := cascade Config.osAD m.ud x
      let p := cascade Config.osAP m.up x
      readWord t (wbufAddr s.nblk s.ch (2 * s.ix)) = d.1 ∧
      readWord t (wbufAddr s.nblk s.ch (2 * s.ix + 1)) = p.1 ∧
      (∀ b, b ≠ wbufAddr s.nblk s.ch (2 * s.ix) → b ≠ wbufAddr s.nblk s.ch (2 * s.ix + 1) →
        readWord t b = readWord s b) ∧
      t.os.get s.ch = { m with ud := d.2, up := p.2 } ∧
      (∀ c, c ≠ s.ch → t.os.get c = s.os.get c) ∧
      movedOn s t s.nin s.nblk .hpf ∧
      t = { s with mem := t.mem, os := t.os, ph := t.ph, ch := t.ch, ix := t.ix, dstage := t.dstage }

/-- R103, R44, R45, R146: one sample of DOWN: the output word, the memories of the downsampler of this channel, the position
(the block ends after the last sample), and nothing else. One sample a step is the model's grain (log 15); the position goes
on as `movedOn` has it (log 17, log 16). -/
def Obligations.DownWritesOutput : Prop :=
  ∀ s : State, chanIndex s.ch < s.nin → s.ix < s.nblk →
    ∃ t, exec .down s = .next t ∧
      let m := s.os.get s.ch
      let d := cascade Config.osAD m.dd (readWord s (wbufAddr s.nblk s.ch (2 * s.ix)))
      let p := cascade Config.osAP m.dp (readWord s (wbufAddr s.nblk s.ch (2 * s.ix + 1)))
      readWord t (bufAddr s.nblk s.ch s.ix) = fmul (fadd m.dz d.1) 0x3F000000#32 ∧
      (∀ b, b ≠ bufAddr s.nblk s.ch s.ix → readWord t b = readWord s b) ∧
      t.os.get s.ch = { m with dd := d.2, dp := p.2, dz := p.1 } ∧
      (∀ c, c ≠ s.ch → t.os.get c = s.os.get c) ∧
      movedOn s t s.nin s.nblk .idle ∧
      t = { s with
        mem := t.mem, os := t.os, ph := t.ph, busy := t.busy, ch := t.ch, ix := t.ix, dstage := t.dstage }

/-- R106: with silent memories, UP of a zero sample writes zeros and DOWN of two zero wide samples writes a zero, and the
memories stay silent, whatever the coefficients (log 13). -/
def Obligations.SilenceThroughOversampler : Prop :=
  ∀ s : State, chanIndex s.ch < s.nin → s.ix < s.nblk → (s.os.get s.ch).silent →
    (isZero (readWord s (bufAddr s.nblk s.ch s.ix)) = true →
      ∃ t, exec .up s = .next t ∧ (t.os.get s.ch).silent ∧
        isZero (readWord t (wbufAddr s.nblk s.ch (2 * s.ix))) = true ∧
        isZero (readWord t (wbufAddr s.nblk s.ch (2 * s.ix + 1))) = true) ∧
    (isZero (readWord s (wbufAddr s.nblk s.ch (2 * s.ix))) = true →
      isZero (readWord s (wbufAddr s.nblk s.ch (2 * s.ix + 1))) = true →
      ∃ t, exec .down s = .next t ∧ (t.os.get s.ch).silent ∧
        isZero (readWord t (bufAddr s.nblk s.ch s.ix)) = true)

/-! ## HPF, MID and LPF (43_filter_chain_block.md) -/

/-- R135, R136, R137: one wide sample of a filter phase: the output word, the two state words of the role on this channel
(the new `Z1` from the old `Z2`), the position, and nothing else. One sample a step is the model's grain (log 15); the
position goes on as `movedOn` has it (log 17, log 16). -/
def Obligations.FilterStep : Prop :=
  ∀ x ∈ [(Instr.hpf, Role.hp, Phase.mid), (.mid, .mid, .dist), (.lpf, .lp, .down)],
    ∀ s : State, chanIndex s.ch < s.nin → s.ix < 2 * s.nblk →
      ∃ t, exec x.1 s = .next t ∧
        let k := s.co.get x.2.1
        let z := (s.z.get x.2.1).get s.ch
        let v := readWord s (wbufAddr s.nblk s.ch s.ix)
        let y := fadd (fmul k.b0 v) z.z1
        readWord t (wbufAddr s.nblk s.ch s.ix) = y ∧
        (∀ b, b ≠ wbufAddr s.nblk s.ch s.ix → readWord t b = readWord s b) ∧
        (t.z.get x.2.1).get s.ch =
          ⟨fadd (fsub (fmul k.b1 v) (fmul k.a1 y)) z.z2, fsub (fmul k.b2 v) (fmul k.a2 y)⟩ ∧
        (∀ (r : Role) (c : Chan), r ≠ x.2.1 ∨ c ≠ s.ch → (t.z.get r).get c = (s.z.get r).get c) ∧
        movedOn s t s.nin (2 * s.nblk) x.2.2 ∧
        t = { s with mem := t.mem, z := t.z, ph := t.ph, ch := t.ch, ix := t.ix, dstage := t.dstage }

/-- R136: a whole filter phase. From its first position, with no input in between, it filters the wide block of every input
channel in increasing order and leaves the state words, every other role and channel, `BUF` and the rest as the rule says.
That it takes `NIN * 2 * NBLK` steps is the model's grain (log 15), that it starts and ends at channel and sample 0 its
choice (log 17), and `dstage` is its own (log 16). -/
def Obligations.FilterPhaseFiltersWholeBlock : Prop :=
  ∀ x ∈ [(Phase.hpf, Role.hp, Phase.mid), (.mid, .mid, .dist), (.lpf, .lp, .down)],
    ∀ s : State, s.busy = true → s.ph = x.1 → s.inputs = [] → s.ch = .c0 → s.ix = 0 → (s.nin = 1 ∨ s.nin = 2) →
      0 < s.nblk →
      ∃ t : State, Sys2Proof.core.run (s.nin * (2 * s.nblk)) s = .next t ∧
        t.ph = x.2.2 ∧ t.ch = .c0 ∧ t.ix = 0 ∧
        (∀ c : Chan, chanIndex c < s.nin →
          let out := filterList (s.co.get x.2.1) ((s.z.get x.2.1).get c)
            ((List.range (2 * s.nblk)).map fun j => readWord s (wbufAddr s.nblk c j))
          ((List.range (2 * s.nblk)).map fun j => readWord t (wbufAddr s.nblk c j)) = out.1 ∧
          (t.z.get x.2.1).get c = out.2) ∧
        (∀ c : Chan, s.nin ≤ chanIndex c → (t.z.get x.2.1).get c = (s.z.get x.2.1).get c ∧
          ∀ j < 2 * s.nblk, readWord t (wbufAddr s.nblk c j) = readWord s (wbufAddr s.nblk c j)) ∧
        (∀ r : Role, r ≠ x.2.1 → t.z.get r = s.z.get r) ∧
        (∀ a < 2 ^ 24, readWord t a = readWord s a) ∧
        t = { s with mem := t.mem, z := t.z, ph := t.ph, dstage := t.dstage }

/-- R135, R84: with `b0 = 1`, `b1 = a1`, `b2 = a2` and a cleared state the peaking filter is the identity on finite samples
whose products do not overflow, and the state stays +0. A sample of -0 comes out as +0 and leaves zeros of either sign in
the state, by the sums of R6. -/
def Obligations.FlatMidFilterIsIdentity : Prop :=
  ∀ s : State, chanIndex s.ch < s.nin → s.ix < 2 * s.nblk →
    s.co.mid.b0 = 0x3F800000#32 → s.co.mid.b1 = s.co.mid.a1 → s.co.mid.b2 = s.co.mid.a2 →
    (s.z.mid.get s.ch) = ⟨0x00000000#32, 0x00000000#32⟩ →
    isFinite (readWord s (wbufAddr s.nblk s.ch s.ix)) = true →
    isFinite (fmul s.co.mid.a1 (readWord s (wbufAddr s.nblk s.ch s.ix))) = true →
    isFinite (fmul s.co.mid.a2 (readWord s (wbufAddr s.nblk s.ch s.ix))) = true →
    ∃ t, exec .mid s = .next t ∧
      readWord t (wbufAddr s.nblk s.ch s.ix) =
        (if readWord s (wbufAddr s.nblk s.ch s.ix) = 0x80000000#32 then 0x00000000#32
          else readWord s (wbufAddr s.nblk s.ch s.ix)) ∧
      (readWord s (wbufAddr s.nblk s.ch s.ix) ≠ 0x80000000#32 →
        t.z.mid.get s.ch = ⟨0x00000000#32, 0x00000000#32⟩) ∧
      isZero (t.z.mid.get s.ch).z1 = true ∧ isZero (t.z.mid.get s.ch).z2 = true

/-! ## DIST and the shapers (42_distortion.md) -/

/-- R124, R116, R117, R122, R123: the parts of one wide sample of DIST, each one step (the model's division, log 16): GATE
and PREGAIN; the shaper that `TYPE` names; POSTGAIN and MIX, after which the position goes on as `movedOn` has it (log 17).
-/
def Obligations.DistParts : Prop :=
  ∀ s : State, chanIndex s.ch < s.nin → s.ix < 2 * s.nblk →
    (s.dstage = .gate → exec .dist s =
      let clean := readWord s (wbufAddr s.nblk s.ch s.ix)
      let gate := if flt (fabs clean) 0x3C23D70A#32 then 0x3DCCCCCD#32 else 0x3F800000#32
      .next { s with
        gate := gate, cg := fmul clean gate, d0 := fmul (fmul clean gate) (fmul s.l.range 0x40A00000#32),
        dstage := .shape }) ∧
    (s.dstage = .shape → exec .dist s =
      exec (match s.type with | .wa => .shapeWa | .sa => .shapeSa | .bi => .shapeBi) s) ∧
    (s.dstage = .mix → ∃ t, exec .dist s = .next t ∧
      let d2 := fmul s.d1 (fadd 0x3F000000#32 (fmul s.l.volume 0x3FC00000#32))
      let wet := fmul d2 s.l.blend
      let dry := fmul s.cg (fsub 0x3F800000#32 s.l.blend)
      readWord t (wbufAddr s.nblk s.ch s.ix) = fmul (fadd wet dry) s.gate ∧
      (∀ b, b ≠ wbufAddr s.nblk s.ch s.ix → readWord t b = readWord s b) ∧
      movedOn { s with dstage := .gate } t s.nin (2 * s.nblk) .lpf ∧
      t = { s with mem := t.mem, ph := t.ph, ch := t.ch, ix := t.ix, dstage := t.dstage })

/-- R119: SHAPE.WA, in every state. -/
def Obligations.ShapeWaFormula : Prop :=
  ∀ s : State, exec .shapeWa s = .next { s with
    d1 := fmul (numTanh (fmul s.d0 (fadd 0x3F800000#32 s.l.drive))) 0x3F666666#32, dstage := .mix }

/-- R120: SHAPE.SA, in every state. -/
def Obligations.ShapeSaFormula : Prop :=
  ∀ s : State,
    let t := fmul (numTanh (fmul s.d0 0x3F19999A#32)) 0x3FE66666#32
    let p := fmul t (fadd 0x3F800000#32 (fmul s.l.drive 0x40000000#32))
    exec .shapeSa s = .next { s with
      d1 := if flt p 0xBF666666#32 then 0xBF666666#32 else if fgt p 0x3F666666#32 then 0x3F666666#32 else p,
      dstage := .mix }

/-- R121: SHAPE.BI, in every state. -/
def Obligations.ShapeBiFormula : Prop :=
  ∀ s : State,
    let folded := fsub s.d0 (fmul 0x3E4CCCCD#32 (fmul (fmul s.d0 s.d0) s.d0))
    let p := numSin (fmul (fmul folded 0x40490FDB#32) (fadd 0x3F000000#32 (fmul s.l.drive 0x3F000000#32)))
    exec .shapeBi s = .next { s with
      d1 := if flt p 0xBF666666#32 then 0xBF666666#32 else if fgt p 0x3F666666#32 then 0x3F666666#32 else p,
      dstage := .mix }

/-- R115 to R124: one wide sample through the whole engine: the output word as a formula of the input word, `TYPE` and `L`,
every other word and every filter and oversampler memory as before. That it takes three steps, with `gate cg d0 d1` in State
between them, is the model's choice (log 16), and so is where the position goes after the last sample (log 17). -/
def Obligations.DistSampleFormula : Prop :=
  ∀ s : State, s.busy = true → s.ph = .dist → s.dstage = .gate → s.inputs = [] →
    chanIndex s.ch < s.nin → s.ix < 2 * s.nblk →
    ∃ t : State, Sys2Proof.core.run 3 s = .next t ∧
      let clean := readWord s (wbufAddr s.nblk s.ch s.ix)
      let gate := if flt (fabs clean) 0x3C23D70A#32 then 0x3DCCCCCD#32 else 0x3F800000#32
      let cg := fmul clean gate
      let d0 := fmul cg (fmul s.l.range 0x40A00000#32)
      let d1 := match s.type with
        | .wa => fmul (numTanh (fmul d0 (fadd 0x3F800000#32 s.l.drive))) 0x3F666666#32
        | .sa => clamp (fmul (fmul (numTanh (fmul d0 0x3F19999A#32)) 0x3FE66666#32)
            (fadd 0x3F800000#32 (fmul s.l.drive 0x40000000#32))) 0xBF666666#32 0x3F666666#32
        | .bi => clamp (numSin (fmul (fmul (fsub d0 (fmul 0x3E4CCCCD#32 (fmul (fmul d0 d0) d0))) 0x40490FDB#32)
            (fadd 0x3F000000#32 (fmul s.l.drive 0x3F000000#32)))) 0xBF666666#32 0x3F666666#32
      let d2 := fmul d1 (fadd 0x3F000000#32 (fmul s.l.volume 0x3FC00000#32))
      readWord t (wbufAddr s.nblk s.ch s.ix) =
        fmul (fadd (fmul d2 s.l.blend) (fmul cg (fsub 0x3F800000#32 s.l.blend))) gate ∧
      (∀ b, b ≠ wbufAddr s.nblk s.ch s.ix → readWord t b = readWord s b) ∧
      movedOn s t s.nin (2 * s.nblk) .lpf ∧
      t = { s with
        mem := t.mem, ph := t.ph, ch := t.ch, ix := t.ix, dstage := t.dstage, gate := t.gate, cg := t.cg, d0 := t.d0,
        d1 := t.d1 }

/-- R119, R120, R121: what a shaper writes is a NaN or within [-0.9, 0.9]; for SHAPE.WA where the argument of `TANH` is
finite (`NUM.P3` says nothing else). -/
def Obligations.ShapersStayBounded : Prop :=
  ∀ i ∈ [Instr.shapeWa, .shapeSa, .shapeBi], ∀ s : State,
    (i = .shapeWa → isFinite (fmul s.d0 (fadd 0x3F800000#32 s.l.drive)) = true) →
    ∃ t, exec i s = .next t ∧ flt t.d1 0xBF666666#32 = false ∧ fgt t.d1 0x3F666666#32 = false

/-- R119: SHAPE.WA is odd, bit for bit, where the argument of `TANH` is finite (`NUM.P2`). -/
def Obligations.ShapeWaIsOdd : Prop :=
  ∀ s : State, isFinite (fmul s.d0 (fadd 0x3F800000#32 s.l.drive)) = true →
    ∃ t u, exec .shapeWa s = .next t ∧ exec .shapeWa { s with d0 := fneg s.d0 } = .next u ∧ u.d1 = fneg t.d1

/-- R125 (c): with legal parameters a zero sample comes out of the engine as a zero, for all three types. That the engine
takes three steps for it is the model's choice (log 16). -/
def Obligations.ZeroSampleThroughEngine : Prop :=
  ∀ s : State, s.busy = true → s.ph = .dist → s.dstage = .gate → s.inputs = [] →
    chanIndex s.ch < s.nin → s.ix < 2 * s.nblk → s.l.inRange →
    isZero (readWord s (wbufAddr s.nblk s.ch s.ix)) = true →
    ∃ t : State, Sys2Proof.core.run 3 s = .next t ∧ isZero (readWord t (wbufAddr s.nblk s.ch s.ix)) = true

/-! ## Arithmetic (00_scope.md R6, R9) -/

/-- R6, R5: the valid basic operations. On finite words the exact real result rounded once, to nearest, ties to even, with
overflow to infinity (units of 2^-149 throughout), and the sign of a zero result as in IEEE 754: an exact zero sum or
difference is +0 but for two zeros of that sign, a product or quotient has the sign of its operands together, a root keeps
the sign of its zero. With an infinite operand: the infinities and zeros that IEEE 754 gives. A non-zero finite word over a
zero is an infinity. What is left are the invalid operations (`InvalidOperationsGiveNaN`). -/
def Obligations.BasicOperationsRoundToNearest : Prop :=
  ∀ a b : F,
    (isFinite a = true → isFinite b = true →
      roundsTo ((signedUnits a : ℝ) + signedUnits b) (fadd a b) ∧
      fsign (fadd a b) = (if signedUnits a + signedUnits b = 0 then fsign a && fsign b
        else decide (signedUnits a + signedUnits b < 0)) ∧
      roundsTo ((signedUnits a : ℝ) - signedUnits b) (fsub a b) ∧
      fsign (fsub a b) = (if signedUnits a = signedUnits b then fsign a && !fsign b
        else decide (signedUnits a < signedUnits b)) ∧
      roundsTo ((signedUnits a : ℝ) * signedUnits b / 2 ^ 149) (fmul a b) ∧
      fsign (fmul a b) = (fsign a != fsign b) ∧
      (isZero b = false →
        roundsTo ((signedUnits a : ℝ) / signedUnits b * 2 ^ 149) (fdiv a b) ∧ fsign (fdiv a b) = (fsign a != fsign b)) ∧
      (isZero a = true ∨ fsign a = false →
        roundsTo (Real.sqrt ((signedUnits a : ℝ) * 2 ^ 149)) (fsqrt a) ∧ fsign (fsqrt a) = fsign a)) ∧
    (isInf a = true → isFinite b = true →
      fadd a b = a ∧ fadd b a = a ∧ fsub a b = a ∧ fsub b a = fneg a ∧
      fdiv a b = (if fsign a = fsign b then 0x7F800000#32 else 0xFF800000#32) ∧
      fdiv b a = (if fsign a = fsign b then 0x00000000#32 else 0x80000000#32)) ∧
    (isInf a = true → isInf b = true →
      (fsign a = fsign b → fadd a b = a) ∧ (fsign a ≠ fsign b → fsub a b = a)) ∧
    (isInf a = true → isNaN b = false → isZero b = false →
      fmul a b = (if fsign a = fsign b then 0x7F800000#32 else 0xFF800000#32) ∧ fmul b a = fmul a b) ∧
    (isFinite a = true → isZero a = false → isZero b = true →
      fdiv a b = (if fsign a = fsign b then 0x7F800000#32 else 0xFF800000#32)) ∧
    (isInf a = true → fsign a = false → fsqrt a = a)

/-- R6: an invalid operation, and one on a NaN, gives a NaN; nothing is said of which (U9, log 9). -/
def Obligations.InvalidOperationsGiveNaN : Prop :=
  ∀ a b : F,
    (isNaN a = true ∨ isNaN b = true → ∀ f ∈ [fadd, fsub, fmul, fdiv], isNaN (f a b) = true) ∧
    (isNaN a = true → isNaN (fsqrt a) = true) ∧
    (isInf a = true → isInf b = true → fsign a ≠ fsign b → isNaN (fadd a b) = true) ∧
    (isInf a = true → isInf b = true → fsign a = fsign b → isNaN (fsub a b) = true) ∧
    (isZero a = true → isInf b = true → isNaN (fmul a b) = true ∧ isNaN (fmul b a) = true) ∧
    (isZero a = true → isZero b = true → isNaN (fdiv a b) = true) ∧
    (isInf a = true → isInf b = true → isNaN (fdiv a b) = true) ∧
    (fsign a = true → isZero a = false → isNaN a = false → isNaN (fsqrt a) = true)

/-- R9: `fabs` clears `bits[31]`; on finite words the comparison is that of the values (so the two zeros are equal), an
infinity lies beyond every other word on its side, a NaN compares false; `clamp` and `ROUND_HAZ` are as the rule defines
them. -/
def Obligations.ComparisonsFollowValues : Prop :=
  ∀ x y lo hi : F,
    (isFinite x = true → isFinite y = true → (flt x y = true ↔ signedUnits x < signedUnits y)) ∧
    (isNaN x = true ∨ isNaN y = true → flt x y = false) ∧
    (isInf x = true → isNaN y = false → (flt x y = true ↔ fsign x = true ∧ y ≠ x)) ∧
    (isInf y = true → isNaN x = false → (flt x y = true ↔ fsign y = false ∧ x ≠ y)) ∧
    fgt x y = flt y x ∧ fabs x = x &&& 0x7FFFFFFF#32 ∧
    clamp x lo hi = (if flt x lo then lo else if flt hi x then hi else x) ∧
    (isNaN x = true → clamp x lo hi = x) ∧
    (isFinite x = true →
      (∀ n : Int, |signedUnits x - roundHaz x * 2 ^ 149| ≤ |signedUnits x - n * 2 ^ 149|) ∧
      (∀ n : Int, n ≠ roundHaz x → |signedUnits x - roundHaz x * 2 ^ 149| = |signedUnits x - n * 2 ^ 149| →
        |n| < |roundHaz x|))

/-! ## Invariants and whole runs -/

/-- R16, R17, R11, R14, R22, R42: every step keeps what the rules promise of every state. -/
def Obligations.StepKeepsInvariant : Prop :=
  ∀ s t : State, s.Inv → step s = .next t → t.Inv

/-- The machine right after reset satisfies the invariant (with the model's values of log 3 and log 4 where R28 gives none).
-/
def Obligations.ResetSatisfiesInvariant : Prop := State.reset.Inv

/-- R21, R149: a step of the sequencer on one channel leaves the other channel's words and memories as they were. -/
def Obligations.ChannelsAreIndependent : Prop :=
  ∀ i ∈ [Instr.up, .hpf, .mid, .dist, .lpf, .down], ∀ (s : State) (c : Chan),
    c ≠ s.ch → s.nblk ≤ Config.nblkMax →
    ∃ t, exec i s = .next t ∧ t.os.get c = s.os.get c ∧
      (∀ r : Role, (t.z.get r).get c = (s.z.get r).get c) ∧
      (∀ j < s.nblk, readWord t (bufAddr s.nblk c j) = readWord s (bufAddr s.nblk c j)) ∧
      (∀ j < 2 * s.nblk, readWord t (wbufAddr s.nblk c j) = readWord s (wbufAddr s.nblk c j))

/-- R138, R146, R210: a block in flight always ends, with the audio port free, whatever is in the buffer, the parameters and
the memories. Nothing is said of the number of steps. -/
def Obligations.BlockAlwaysEnds : Prop :=
  ∀ s : State, s.Inv → s.busy = true → s.inputs = [] →
    ∃ (n : Nat) (t : State), Sys2Proof.core.run n s = .next t ∧ t.busy = false ∧ t.ph = .idle ∧ t.fault = s.fault ∧
      t.cause = s.cause ∧ t.st = .processing
end

