-- ==== Sys2Proof/Laws/Banks.lean ====
section
/-! SUPPORT. Banks by name, by channel and by role: what is written is read back, and nothing else moves. -/

namespace Sys2Proof.Machine

@[simp] theorem Params.get_set_same (b : Params) (p : Param) (v : F) : (b.set p v).get p = v := by
  cases p <;> rfl

theorem Params.get_set_other (b : Params) (p q : Param) (v : F) (h : q ≠ p) : (b.set p v).get q = b.get q := by
  cases p <;> cases q <;> first | rfl | exact absurd rfl h

/-- Two banks with the same slots are the same. -/
theorem Params.ext_get (a b : Params) (h : ∀ p, a.get p = b.get p) : a = b := by
  cases a
  cases b
  have h0 := h .drive
  have h1 := h .range
  have h2 := h .blend
  have h3 := h .volume
  have h4 := h .midFreq
  have h5 := h .midGain
  have h6 := h .highPassFreq
  have h7 := h .lowPassFreq
  have h8 := h .distortionType
  have h9 := h .bypass
  simp_all [Params.get]

@[simp] theorem PerChan.get_set_same {α : Type} (b : PerChan α) (c : Chan) (v : α) : (b.set c v).get c = v := by
  cases c <;> rfl

theorem PerChan.get_set_other {α : Type} (b : PerChan α) (c d : Chan) (v : α) (h : d ≠ c) :
    (b.set c v).get d = b.get d := by
  cases c <;> cases d <;> first | rfl | exact absurd rfl h

@[simp] theorem PerRole.get_set_same {α : Type} (b : PerRole α) (r : Role) (v : α) : (b.set r v).get r = v := by
  cases r <;> rfl

theorem PerRole.get_set_other {α : Type} (b : PerRole α) (r q : Role) (v : α) (h : q ≠ r) :
    (b.set r v).get q = b.get q := by
  cases r <;> cases q <;> first | rfl | exact absurd rfl h

/-- An index names a slot exactly when it is at most 9. -/
theorem paramOfIdx_eq_none (idx : Nat) : paramOfIdx idx = none ↔ 9 < idx := by
  simp [paramOfIdx, allParams]
  omega

/-- The channel counts that PROCESS accepts. -/
theorem legalLayout_iff (nin nout : Nat) :
    legalLayout nin nout = true ↔ (nin = 1 ∧ nout = 1) ∨ (nin = 1 ∧ nout = 2) ∨ (nin = 2 ∧ nout = 2) := by
  simp [legalLayout, or_assoc]

theorem chanIndex_le_one (c : Chan) : chanIndex c ≤ 1 := by
  cases c <;> simp [chanIndex]

/-- Distinct words of `BUF` have distinct addresses. -/
theorem bufAddr_inj (n : Nat) (c d : Chan) (i j : Nat) (hi : i < n) (hj : j < n)
    (h : bufAddr n c i = bufAddr n d j) : c = d ∧ i = j := by
  cases c <;> cases d <;> simp [bufAddr, chanIndex] at h ⊢ <;> omega

/-- Distinct words of `WBUF` have distinct addresses. -/
theorem wbufAddr_inj (n : Nat) (c d : Chan) (i j : Nat) (hi : i < 2 * n) (hj : j < 2 * n)
    (h : wbufAddr n c i = wbufAddr n d j) : c = d ∧ i = j := by
  cases c <;> cases d <;> simp [wbufAddr, chanIndex] at h ⊢ <;> omega

/-- `BUF` lies below `WBUF` for every block size that PREPARE accepts. -/
theorem bufAddr_lt_wbufBase (n : Nat) (c : Chan) (i : Nat) (hn : n ≤ Config.nblkMax) (hi : i < n) :
    bufAddr n c i < wbufBase := by
  have := chanIndex_le_one c
  have h2 : chanIndex c * n ≤ 1 * n := Nat.mul_le_mul_right n this
  simp only [bufAddr, wbufBase, Config.nblkMax] at *
  omega

/-- `WBUF` lies from `WBUF_BASE` upward. -/
theorem wbufBase_le_wbufAddr (n : Nat) (c : Chan) (j : Nat) : wbufBase ≤ wbufAddr n c j := by
  simp only [wbufAddr]
  omega

end Sys2Proof.Machine
end

