-- ==== Sys2Proof/Laws/State.lean ====
section
/-! SUPPORT. One lemma for each field and each update of the state, so that no proof unfolds a record update. -/

namespace Sys2Proof.Machine

/-! `writeWord` -/

@[simp] theorem writeWord_fs (s : State) (a : Nat) (v : F) :
    (writeWord s a v).fs = s.fs := rfl
@[simp] theorem writeWord_nblk (s : State) (a : Nat) (v : F) :
    (writeWord s a v).nblk = s.nblk := rfl
@[simp] theorem writeWord_st (s : State) (a : Nat) (v : F) :
    (writeWord s a v).st = s.st := rfl
@[simp] theorem writeWord_busy (s : State) (a : Nat) (v : F) :
    (writeWord s a v).busy = s.busy := rfl
@[simp] theorem writeWord_ph (s : State) (a : Nat) (v : F) :
    (writeWord s a v).ph = s.ph := rfl
@[simp] theorem writeWord_ch (s : State) (a : Nat) (v : F) :
    (writeWord s a v).ch = s.ch := rfl
@[simp] theorem writeWord_ix (s : State) (a : Nat) (v : F) :
    (writeWord s a v).ix = s.ix := rfl
@[simp] theorem writeWord_nin (s : State) (a : Nat) (v : F) :
    (writeWord s a v).nin = s.nin := rfl
@[simp] theorem writeWord_nout (s : State) (a : Nat) (v : F) :
    (writeWord s a v).nout = s.nout := rfl
@[simp] theorem writeWord_fault (s : State) (a : Nat) (v : F) :
    (writeWord s a v).fault = s.fault := rfl
@[simp] theorem writeWord_cause (s : State) (a : Nat) (v : F) :
    (writeWord s a v).cause = s.cause := rfl
@[simp] theorem writeWord_param (s : State) (a : Nat) (v : F) :
    (writeWord s a v).param = s.param := rfl
@[simp] theorem writeWord_l (s : State) (a : Nat) (v : F) :
    (writeWord s a v).l = s.l := rfl
@[simp] theorem writeWord_type (s : State) (a : Nat) (v : F) :
    (writeWord s a v).type = s.type := rfl
@[simp] theorem writeWord_co (s : State) (a : Nat) (v : F) :
    (writeWord s a v).co = s.co := rfl
@[simp] theorem writeWord_z (s : State) (a : Nat) (v : F) :
    (writeWord s a v).z = s.z := rfl
@[simp] theorem writeWord_os (s : State) (a : Nat) (v : F) :
    (writeWord s a v).os = s.os := rfl
@[simp] theorem writeWord_mem (s : State) (a : Nat) (v : F) :
    (writeWord s a v).mem = memStore s.mem a v := rfl
@[simp] theorem writeWord_gate (s : State) (a : Nat) (v : F) :
    (writeWord s a v).gate = s.gate := rfl
@[simp] theorem writeWord_cg (s : State) (a : Nat) (v : F) :
    (writeWord s a v).cg = s.cg := rfl
@[simp] theorem writeWord_d0 (s : State) (a : Nat) (v : F) :
    (writeWord s a v).d0 = s.d0 := rfl
@[simp] theorem writeWord_d1 (s : State) (a : Nat) (v : F) :
    (writeWord s a v).d1 = s.d1 := rfl
@[simp] theorem writeWord_dstage (s : State) (a : Nat) (v : F) :
    (writeWord s a v).dstage = s.dstage := rfl
@[simp] theorem writeWord_latchLeft (s : State) (a : Nat) (v : F) :
    (writeWord s a v).latchLeft = s.latchLeft := rfl
@[simp] theorem writeWord_draws (s : State) (a : Nat) (v : F) :
    (writeWord s a v).draws = s.draws := rfl
@[simp] theorem writeWord_bufEpoch (s : State) (a : Nat) (v : F) :
    (writeWord s a v).bufEpoch = s.bufEpoch := rfl
@[simp] theorem writeWord_wbufEpoch (s : State) (a : Nat) (v : F) :
    (writeWord s a v).wbufEpoch = s.wbufEpoch := rfl
@[simp] theorem writeWord_inputs (s : State) (a : Nat) (v : F) :
    (writeWord s a v).inputs = s.inputs := rfl
@[simp] theorem writeWord_port (s : State) (a : Nat) (v : F) :
    (writeWord s a v).port = s.port := rfl
@[simp] theorem writeWord_resp (s : State) (a : Nat) (v : F) :
    (writeWord s a v).resp = s.resp := rfl

/-! `writeBuf` -/

@[simp] theorem writeBuf_fs (s : State) (c : Chan) (i : Nat) (v : F) :
    (writeBuf s c i v).fs = s.fs := rfl
@[simp] theorem writeBuf_nblk (s : State) (c : Chan) (i : Nat) (v : F) :
    (writeBuf s c i v).nblk = s.nblk := rfl
@[simp] theorem writeBuf_st (s : State) (c : Chan) (i : Nat) (v : F) :
    (writeBuf s c i v).st = s.st := rfl
@[simp] theorem writeBuf_busy (s : State) (c : Chan) (i : Nat) (v : F) :
    (writeBuf s c i v).busy = s.busy := rfl
@[simp] theorem writeBuf_ph (s : State) (c : Chan) (i : Nat) (v : F) :
    (writeBuf s c i v).ph = s.ph := rfl
@[simp] theorem writeBuf_ch (s : State) (c : Chan) (i : Nat) (v : F) :
    (writeBuf s c i v).ch = s.ch := rfl
@[simp] theorem writeBuf_ix (s : State) (c : Chan) (i : Nat) (v : F) :
    (writeBuf s c i v).ix = s.ix := rfl
@[simp] theorem writeBuf_nin (s : State) (c : Chan) (i : Nat) (v : F) :
    (writeBuf s c i v).nin = s.nin := rfl
@[simp] theorem writeBuf_nout (s : State) (c : Chan) (i : Nat) (v : F) :
    (writeBuf s c i v).nout = s.nout := rfl
@[simp] theorem writeBuf_fault (s : State) (c : Chan) (i : Nat) (v : F) :
    (writeBuf s c i v).fault = s.fault := rfl
@[simp] theorem writeBuf_cause (s : State) (c : Chan) (i : Nat) (v : F) :
    (writeBuf s c i v).cause = s.cause := rfl
@[simp] theorem writeBuf_param (s : State) (c : Chan) (i : Nat) (v : F) :
    (writeBuf s c i v).param = s.param := rfl
@[simp] theorem writeBuf_l (s : State) (c : Chan) (i : Nat) (v : F) :
    (writeBuf s c i v).l = s.l := rfl
@[simp] theorem writeBuf_type (s : State) (c : Chan) (i : Nat) (v : F) :
    (writeBuf s c i v).type = s.type := rfl
@[simp] theorem writeBuf_co (s : State) (c : Chan) (i : Nat) (v : F) :
    (writeBuf s c i v).co = s.co := rfl
@[simp] theorem writeBuf_z (s : State) (c : Chan) (i : Nat) (v : F) :
    (writeBuf s c i v).z = s.z := rfl
@[simp] theorem writeBuf_os (s : State) (c : Chan) (i : Nat) (v : F) :
    (writeBuf s c i v).os = s.os := rfl
@[simp] theorem writeBuf_mem (s : State) (c : Chan) (i : Nat) (v : F) :
    (writeBuf s c i v).mem = memStore s.mem (bufAddr s.nblk c i) v := rfl
@[simp] theorem writeBuf_gate (s : State) (c : Chan) (i : Nat) (v : F) :
    (writeBuf s c i v).gate = s.gate := rfl
@[simp] theorem writeBuf_cg (s : State) (c : Chan) (i : Nat) (v : F) :
    (writeBuf s c i v).cg = s.cg := rfl
@[simp] theorem writeBuf_d0 (s : State) (c : Chan) (i : Nat) (v : F) :
    (writeBuf s c i v).d0 = s.d0 := rfl
@[simp] theorem writeBuf_d1 (s : State) (c : Chan) (i : Nat) (v : F) :
    (writeBuf s c i v).d1 = s.d1 := rfl
@[simp] theorem writeBuf_dstage (s : State) (c : Chan) (i : Nat) (v : F) :
    (writeBuf s c i v).dstage = s.dstage := rfl
@[simp] theorem writeBuf_latchLeft (s : State) (c : Chan) (i : Nat) (v : F) :
    (writeBuf s c i v).latchLeft = s.latchLeft := rfl
@[simp] theorem writeBuf_draws (s : State) (c : Chan) (i : Nat) (v : F) :
    (writeBuf s c i v).draws = s.draws := rfl
@[simp] theorem writeBuf_bufEpoch (s : State) (c : Chan) (i : Nat) (v : F) :
    (writeBuf s c i v).bufEpoch = s.bufEpoch := rfl
@[simp] theorem writeBuf_wbufEpoch (s : State) (c : Chan) (i : Nat) (v : F) :
    (writeBuf s c i v).wbufEpoch = s.wbufEpoch := rfl
@[simp] theorem writeBuf_inputs (s : State) (c : Chan) (i : Nat) (v : F) :
    (writeBuf s c i v).inputs = s.inputs := rfl
@[simp] theorem writeBuf_port (s : State) (c : Chan) (i : Nat) (v : F) :
    (writeBuf s c i v).port = s.port := rfl
@[simp] theorem writeBuf_resp (s : State) (c : Chan) (i : Nat) (v : F) :
    (writeBuf s c i v).resp = s.resp := rfl

/-! `writeWbuf` -/

@[simp] theorem writeWbuf_fs (s : State) (c : Chan) (j : Nat) (v : F) :
    (writeWbuf s c j v).fs = s.fs := rfl
@[simp] theorem writeWbuf_nblk (s : State) (c : Chan) (j : Nat) (v : F) :
    (writeWbuf s c j v).nblk = s.nblk := rfl
@[simp] theorem writeWbuf_st (s : State) (c : Chan) (j : Nat) (v : F) :
    (writeWbuf s c j v).st = s.st := rfl
@[simp] theorem writeWbuf_busy (s : State) (c : Chan) (j : Nat) (v : F) :
    (writeWbuf s c j v).busy = s.busy := rfl
@[simp] theorem writeWbuf_ph (s : State) (c : Chan) (j : Nat) (v : F) :
    (writeWbuf s c j v).ph = s.ph := rfl
@[simp] theorem writeWbuf_ch (s : State) (c : Chan) (j : Nat) (v : F) :
    (writeWbuf s c j v).ch = s.ch := rfl
@[simp] theorem writeWbuf_ix (s : State) (c : Chan) (j : Nat) (v : F) :
    (writeWbuf s c j v).ix = s.ix := rfl
@[simp] theorem writeWbuf_nin (s : State) (c : Chan) (j : Nat) (v : F) :
    (writeWbuf s c j v).nin = s.nin := rfl
@[simp] theorem writeWbuf_nout (s : State) (c : Chan) (j : Nat) (v : F) :
    (writeWbuf s c j v).nout = s.nout := rfl
@[simp] theorem writeWbuf_fault (s : State) (c : Chan) (j : Nat) (v : F) :
    (writeWbuf s c j v).fault = s.fault := rfl
@[simp] theorem writeWbuf_cause (s : State) (c : Chan) (j : Nat) (v : F) :
    (writeWbuf s c j v).cause = s.cause := rfl
@[simp] theorem writeWbuf_param (s : State) (c : Chan) (j : Nat) (v : F) :
    (writeWbuf s c j v).param = s.param := rfl
@[simp] theorem writeWbuf_l (s : State) (c : Chan) (j : Nat) (v : F) :
    (writeWbuf s c j v).l = s.l := rfl
@[simp] theorem writeWbuf_type (s : State) (c : Chan) (j : Nat) (v : F) :
    (writeWbuf s c j v).type = s.type := rfl
@[simp] theorem writeWbuf_co (s : State) (c : Chan) (j : Nat) (v : F) :
    (writeWbuf s c j v).co = s.co := rfl
@[simp] theorem writeWbuf_z (s : State) (c : Chan) (j : Nat) (v : F) :
    (writeWbuf s c j v).z = s.z := rfl
@[simp] theorem writeWbuf_os (s : State) (c : Chan) (j : Nat) (v : F) :
    (writeWbuf s c j v).os = s.os := rfl
@[simp] theorem writeWbuf_mem (s : State) (c : Chan) (j : Nat) (v : F) :
    (writeWbuf s c j v).mem = memStore s.mem (wbufAddr s.nblk c j) v := rfl
@[simp] theorem writeWbuf_gate (s : State) (c : Chan) (j : Nat) (v : F) :
    (writeWbuf s c j v).gate = s.gate := rfl
@[simp] theorem writeWbuf_cg (s : State) (c : Chan) (j : Nat) (v : F) :
    (writeWbuf s c j v).cg = s.cg := rfl
@[simp] theorem writeWbuf_d0 (s : State) (c : Chan) (j : Nat) (v : F) :
    (writeWbuf s c j v).d0 = s.d0 := rfl
@[simp] theorem writeWbuf_d1 (s : State) (c : Chan) (j : Nat) (v : F) :
    (writeWbuf s c j v).d1 = s.d1 := rfl
@[simp] theorem writeWbuf_dstage (s : State) (c : Chan) (j : Nat) (v : F) :
    (writeWbuf s c j v).dstage = s.dstage := rfl
@[simp] theorem writeWbuf_latchLeft (s : State) (c : Chan) (j : Nat) (v : F) :
    (writeWbuf s c j v).latchLeft = s.latchLeft := rfl
@[simp] theorem writeWbuf_draws (s : State) (c : Chan) (j : Nat) (v : F) :
    (writeWbuf s c j v).draws = s.draws := rfl
@[simp] theorem writeWbuf_bufEpoch (s : State) (c : Chan) (j : Nat) (v : F) :
    (writeWbuf s c j v).bufEpoch = s.bufEpoch := rfl
@[simp] theorem writeWbuf_wbufEpoch (s : State) (c : Chan) (j : Nat) (v : F) :
    (writeWbuf s c j v).wbufEpoch = s.wbufEpoch := rfl
@[simp] theorem writeWbuf_inputs (s : State) (c : Chan) (j : Nat) (v : F) :
    (writeWbuf s c j v).inputs = s.inputs := rfl
@[simp] theorem writeWbuf_port (s : State) (c : Chan) (j : Nat) (v : F) :
    (writeWbuf s c j v).port = s.port := rfl
@[simp] theorem writeWbuf_resp (s : State) (c : Chan) (j : Nat) (v : F) :
    (writeWbuf s c j v).resp = s.resp := rfl

/-! `respond` -/

@[simp] theorem respond_fs (s : State) (w : F) :
    (respond s w).fs = s.fs := rfl
@[simp] theorem respond_nblk (s : State) (w : F) :
    (respond s w).nblk = s.nblk := rfl
@[simp] theorem respond_st (s : State) (w : F) :
    (respond s w).st = s.st := rfl
@[simp] theorem respond_busy (s : State) (w : F) :
    (respond s w).busy = s.busy := rfl
@[simp] theorem respond_ph (s : State) (w : F) :
    (respond s w).ph = s.ph := rfl
@[simp] theorem respond_ch (s : State) (w : F) :
    (respond s w).ch = s.ch := rfl
@[simp] theorem respond_ix (s : State) (w : F) :
    (respond s w).ix = s.ix := rfl
@[simp] theorem respond_nin (s : State) (w : F) :
    (respond s w).nin = s.nin := rfl
@[simp] theorem respond_nout (s : State) (w : F) :
    (respond s w).nout = s.nout := rfl
@[simp] theorem respond_fault (s : State) (w : F) :
    (respond s w).fault = s.fault := rfl
@[simp] theorem respond_cause (s : State) (w : F) :
    (respond s w).cause = s.cause := rfl
@[simp] theorem respond_param (s : State) (w : F) :
    (respond s w).param = s.param := rfl
@[simp] theorem respond_l (s : State) (w : F) :
    (respond s w).l = s.l := rfl
@[simp] theorem respond_type (s : State) (w : F) :
    (respond s w).type = s.type := rfl
@[simp] theorem respond_co (s : State) (w : F) :
    (respond s w).co = s.co := rfl
@[simp] theorem respond_z (s : State) (w : F) :
    (respond s w).z = s.z := rfl
@[simp] theorem respond_os (s : State) (w : F) :
    (respond s w).os = s.os := rfl
@[simp] theorem respond_mem (s : State) (w : F) :
    (respond s w).mem = s.mem := rfl
@[simp] theorem respond_gate (s : State) (w : F) :
    (respond s w).gate = s.gate := rfl
@[simp] theorem respond_cg (s : State) (w : F) :
    (respond s w).cg = s.cg := rfl
@[simp] theorem respond_d0 (s : State) (w : F) :
    (respond s w).d0 = s.d0 := rfl
@[simp] theorem respond_d1 (s : State) (w : F) :
    (respond s w).d1 = s.d1 := rfl
@[simp] theorem respond_dstage (s : State) (w : F) :
    (respond s w).dstage = s.dstage := rfl
@[simp] theorem respond_latchLeft (s : State) (w : F) :
    (respond s w).latchLeft = s.latchLeft := rfl
@[simp] theorem respond_draws (s : State) (w : F) :
    (respond s w).draws = s.draws := rfl
@[simp] theorem respond_bufEpoch (s : State) (w : F) :
    (respond s w).bufEpoch = s.bufEpoch := rfl
@[simp] theorem respond_wbufEpoch (s : State) (w : F) :
    (respond s w).wbufEpoch = s.wbufEpoch := rfl
@[simp] theorem respond_inputs (s : State) (w : F) :
    (respond s w).inputs = s.inputs := rfl
@[simp] theorem respond_port (s : State) (w : F) :
    (respond s w).port = s.port := rfl
@[simp] theorem respond_resp (s : State) (w : F) :
    (respond s w).resp = s.resp ++ [(s.port, w)] := rfl

/-! `respondDraw` -/

@[simp] theorem respondDraw_fs (s : State) :
    (respondDraw s).fs = s.fs := rfl
@[simp] theorem respondDraw_nblk (s : State) :
    (respondDraw s).nblk = s.nblk := rfl
@[simp] theorem respondDraw_st (s : State) :
    (respondDraw s).st = s.st := rfl
@[simp] theorem respondDraw_busy (s : State) :
    (respondDraw s).busy = s.busy := rfl
@[simp] theorem respondDraw_ph (s : State) :
    (respondDraw s).ph = s.ph := rfl
@[simp] theorem respondDraw_ch (s : State) :
    (respondDraw s).ch = s.ch := rfl
@[simp] theorem respondDraw_ix (s : State) :
    (respondDraw s).ix = s.ix := rfl
@[simp] theorem respondDraw_nin (s : State) :
    (respondDraw s).nin = s.nin := rfl
@[simp] theorem respondDraw_nout (s : State) :
    (respondDraw s).nout = s.nout := rfl
@[simp] theorem respondDraw_fault (s : State) :
    (respondDraw s).fault = s.fault := rfl
@[simp] theorem respondDraw_cause (s : State) :
    (respondDraw s).cause = s.cause := rfl
@[simp] theorem respondDraw_param (s : State) :
    (respondDraw s).param = s.param := rfl
@[simp] theorem respondDraw_l (s : State) :
    (respondDraw s).l = s.l := rfl
@[simp] theorem respondDraw_type (s : State) :
    (respondDraw s).type = s.type := rfl
@[simp] theorem respondDraw_co (s : State) :
    (respondDraw s).co = s.co := rfl
@[simp] theorem respondDraw_z (s : State) :
    (respondDraw s).z = s.z := rfl
@[simp] theorem respondDraw_os (s : State) :
    (respondDraw s).os = s.os := rfl
@[simp] theorem respondDraw_mem (s : State) :
    (respondDraw s).mem = s.mem := rfl
@[simp] theorem respondDraw_gate (s : State) :
    (respondDraw s).gate = s.gate := rfl
@[simp] theorem respondDraw_cg (s : State) :
    (respondDraw s).cg = s.cg := rfl
@[simp] theorem respondDraw_d0 (s : State) :
    (respondDraw s).d0 = s.d0 := rfl
@[simp] theorem respondDraw_d1 (s : State) :
    (respondDraw s).d1 = s.d1 := rfl
@[simp] theorem respondDraw_dstage (s : State) :
    (respondDraw s).dstage = s.dstage := rfl
@[simp] theorem respondDraw_latchLeft (s : State) :
    (respondDraw s).latchLeft = s.latchLeft := rfl
@[simp] theorem respondDraw_draws (s : State) :
    (respondDraw s).draws = s.draws + 1 := rfl
@[simp] theorem respondDraw_bufEpoch (s : State) :
    (respondDraw s).bufEpoch = s.bufEpoch := rfl
@[simp] theorem respondDraw_wbufEpoch (s : State) :
    (respondDraw s).wbufEpoch = s.wbufEpoch := rfl
@[simp] theorem respondDraw_inputs (s : State) :
    (respondDraw s).inputs = s.inputs := rfl
@[simp] theorem respondDraw_port (s : State) :
    (respondDraw s).port = s.port := rfl
@[simp] theorem respondDraw_resp (s : State) :
    (respondDraw s).resp = s.resp ++ [(s.port, Config.draw s.draws .resp)] := rfl

/-! `raiseFault` -/

@[simp] theorem raiseFault_fs (s : State) (x : Cause) :
    (raiseFault s x).fs = s.fs := rfl
@[simp] theorem raiseFault_nblk (s : State) (x : Cause) :
    (raiseFault s x).nblk = s.nblk := rfl
@[simp] theorem raiseFault_st (s : State) (x : Cause) :
    (raiseFault s x).st = s.st := rfl
@[simp] theorem raiseFault_busy (s : State) (x : Cause) :
    (raiseFault s x).busy = s.busy := rfl
@[simp] theorem raiseFault_ph (s : State) (x : Cause) :
    (raiseFault s x).ph = s.ph := rfl
@[simp] theorem raiseFault_ch (s : State) (x : Cause) :
    (raiseFault s x).ch = s.ch := rfl
@[simp] theorem raiseFault_ix (s : State) (x : Cause) :
    (raiseFault s x).ix = s.ix := rfl
@[simp] theorem raiseFault_nin (s : State) (x : Cause) :
    (raiseFault s x).nin = s.nin := rfl
@[simp] theorem raiseFault_nout (s : State) (x : Cause) :
    (raiseFault s x).nout = s.nout := rfl
@[simp] theorem raiseFault_fault (s : State) (x : Cause) :
    (raiseFault s x).fault = true := rfl
@[simp] theorem raiseFault_cause (s : State) (x : Cause) :
    (raiseFault s x).cause = if s.fault then s.cause else x := rfl
@[simp] theorem raiseFault_param (s : State) (x : Cause) :
    (raiseFault s x).param = s.param := rfl
@[simp] theorem raiseFault_l (s : State) (x : Cause) :
    (raiseFault s x).l = s.l := rfl
@[simp] theorem raiseFault_type (s : State) (x : Cause) :
    (raiseFault s x).type = s.type := rfl
@[simp] theorem raiseFault_co (s : State) (x : Cause) :
    (raiseFault s x).co = s.co := rfl
@[simp] theorem raiseFault_z (s : State) (x : Cause) :
    (raiseFault s x).z = s.z := rfl
@[simp] theorem raiseFault_os (s : State) (x : Cause) :
    (raiseFault s x).os = s.os := rfl
@[simp] theorem raiseFault_mem (s : State) (x : Cause) :
    (raiseFault s x).mem = s.mem := rfl
@[simp] theorem raiseFault_gate (s : State) (x : Cause) :
    (raiseFault s x).gate = s.gate := rfl
@[simp] theorem raiseFault_cg (s : State) (x : Cause) :
    (raiseFault s x).cg = s.cg := rfl
@[simp] theorem raiseFault_d0 (s : State) (x : Cause) :
    (raiseFault s x).d0 = s.d0 := rfl
@[simp] theorem raiseFault_d1 (s : State) (x : Cause) :
    (raiseFault s x).d1 = s.d1 := rfl
@[simp] theorem raiseFault_dstage (s : State) (x : Cause) :
    (raiseFault s x).dstage = s.dstage := rfl
@[simp] theorem raiseFault_latchLeft (s : State) (x : Cause) :
    (raiseFault s x).latchLeft = s.latchLeft := rfl
@[simp] theorem raiseFault_draws (s : State) (x : Cause) :
    (raiseFault s x).draws = s.draws := rfl
@[simp] theorem raiseFault_bufEpoch (s : State) (x : Cause) :
    (raiseFault s x).bufEpoch = s.bufEpoch := rfl
@[simp] theorem raiseFault_wbufEpoch (s : State) (x : Cause) :
    (raiseFault s x).wbufEpoch = s.wbufEpoch := rfl
@[simp] theorem raiseFault_inputs (s : State) (x : Cause) :
    (raiseFault s x).inputs = s.inputs := rfl
@[simp] theorem raiseFault_port (s : State) (x : Cause) :
    (raiseFault s x).port = s.port := rfl
@[simp] theorem raiseFault_resp (s : State) (x : Cause) :
    (raiseFault s x).resp = s.resp := rfl

/-! `raiseReadFault` -/

@[simp] theorem raiseReadFault_fs (s : State) (x : Cause) :
    (raiseReadFault s x).fs = s.fs := rfl
@[simp] theorem raiseReadFault_nblk (s : State) (x : Cause) :
    (raiseReadFault s x).nblk = s.nblk := rfl
@[simp] theorem raiseReadFault_st (s : State) (x : Cause) :
    (raiseReadFault s x).st = s.st := rfl
@[simp] theorem raiseReadFault_busy (s : State) (x : Cause) :
    (raiseReadFault s x).busy = s.busy := rfl
@[simp] theorem raiseReadFault_ph (s : State) (x : Cause) :
    (raiseReadFault s x).ph = s.ph := rfl
@[simp] theorem raiseReadFault_ch (s : State) (x : Cause) :
    (raiseReadFault s x).ch = s.ch := rfl
@[simp] theorem raiseReadFault_ix (s : State) (x : Cause) :
    (raiseReadFault s x).ix = s.ix := rfl
@[simp] theorem raiseReadFault_nin (s : State) (x : Cause) :
    (raiseReadFault s x).nin = s.nin := rfl
@[simp] theorem raiseReadFault_nout (s : State) (x : Cause) :
    (raiseReadFault s x).nout = s.nout := rfl
@[simp] theorem raiseReadFault_fault (s : State) (x : Cause) :
    (raiseReadFault s x).fault = true := rfl
@[simp] theorem raiseReadFault_cause (s : State) (x : Cause) :
    (raiseReadFault s x).cause = if s.fault then s.cause else x := rfl
@[simp] theorem raiseReadFault_param (s : State) (x : Cause) :
    (raiseReadFault s x).param = s.param := rfl
@[simp] theorem raiseReadFault_l (s : State) (x : Cause) :
    (raiseReadFault s x).l = s.l := rfl
@[simp] theorem raiseReadFault_type (s : State) (x : Cause) :
    (raiseReadFault s x).type = s.type := rfl
@[simp] theorem raiseReadFault_co (s : State) (x : Cause) :
    (raiseReadFault s x).co = s.co := rfl
@[simp] theorem raiseReadFault_z (s : State) (x : Cause) :
    (raiseReadFault s x).z = s.z := rfl
@[simp] theorem raiseReadFault_os (s : State) (x : Cause) :
    (raiseReadFault s x).os = s.os := rfl
@[simp] theorem raiseReadFault_mem (s : State) (x : Cause) :
    (raiseReadFault s x).mem = s.mem := rfl
@[simp] theorem raiseReadFault_gate (s : State) (x : Cause) :
    (raiseReadFault s x).gate = s.gate := rfl
@[simp] theorem raiseReadFault_cg (s : State) (x : Cause) :
    (raiseReadFault s x).cg = s.cg := rfl
@[simp] theorem raiseReadFault_d0 (s : State) (x : Cause) :
    (raiseReadFault s x).d0 = s.d0 := rfl
@[simp] theorem raiseReadFault_d1 (s : State) (x : Cause) :
    (raiseReadFault s x).d1 = s.d1 := rfl
@[simp] theorem raiseReadFault_dstage (s : State) (x : Cause) :
    (raiseReadFault s x).dstage = s.dstage := rfl
@[simp] theorem raiseReadFault_latchLeft (s : State) (x : Cause) :
    (raiseReadFault s x).latchLeft = s.latchLeft := rfl
@[simp] theorem raiseReadFault_draws (s : State) (x : Cause) :
    (raiseReadFault s x).draws = s.draws + 1 := rfl
@[simp] theorem raiseReadFault_bufEpoch (s : State) (x : Cause) :
    (raiseReadFault s x).bufEpoch = s.bufEpoch := rfl
@[simp] theorem raiseReadFault_wbufEpoch (s : State) (x : Cause) :
    (raiseReadFault s x).wbufEpoch = s.wbufEpoch := rfl
@[simp] theorem raiseReadFault_inputs (s : State) (x : Cause) :
    (raiseReadFault s x).inputs = s.inputs := rfl
@[simp] theorem raiseReadFault_port (s : State) (x : Cause) :
    (raiseReadFault s x).port = s.port := rfl
@[simp] theorem raiseReadFault_resp (s : State) (x : Cause) :
    (raiseReadFault s x).resp = s.resp ++ [(s.port, Config.draw s.draws .resp)] := rfl

/-! `latchSlot` -/

@[simp] theorem latchSlot_fs (s : State) (p : Param) :
    (latchSlot s p).fs = s.fs := rfl
@[simp] theorem latchSlot_nblk (s : State) (p : Param) :
    (latchSlot s p).nblk = s.nblk := rfl
@[simp] theorem latchSlot_st (s : State) (p : Param) :
    (latchSlot s p).st = s.st := rfl
@[simp] theorem latchSlot_busy (s : State) (p : Param) :
    (latchSlot s p).busy = s.busy := rfl
@[simp] theorem latchSlot_ph (s : State) (p : Param) :
    (latchSlot s p).ph = s.ph := rfl
@[simp] theorem latchSlot_ch (s : State) (p : Param) :
    (latchSlot s p).ch = s.ch := rfl
@[simp] theorem latchSlot_ix (s : State) (p : Param) :
    (latchSlot s p).ix = s.ix := rfl
@[simp] theorem latchSlot_nin (s : State) (p : Param) :
    (latchSlot s p).nin = s.nin := rfl
@[simp] theorem latchSlot_nout (s : State) (p : Param) :
    (latchSlot s p).nout = s.nout := rfl
@[simp] theorem latchSlot_fault (s : State) (p : Param) :
    (latchSlot s p).fault = s.fault := rfl
@[simp] theorem latchSlot_cause (s : State) (p : Param) :
    (latchSlot s p).cause = s.cause := rfl
@[simp] theorem latchSlot_param (s : State) (p : Param) :
    (latchSlot s p).param = s.param := rfl
@[simp] theorem latchSlot_l (s : State) (p : Param) :
    (latchSlot s p).l = s.l.set p (s.param.get p) := rfl
@[simp] theorem latchSlot_type (s : State) (p : Param) :
    (latchSlot s p).type = s.type := rfl
@[simp] theorem latchSlot_co (s : State) (p : Param) :
    (latchSlot s p).co = s.co := rfl
@[simp] theorem latchSlot_z (s : State) (p : Param) :
    (latchSlot s p).z = s.z := rfl
@[simp] theorem latchSlot_os (s : State) (p : Param) :
    (latchSlot s p).os = s.os := rfl
@[simp] theorem latchSlot_mem (s : State) (p : Param) :
    (latchSlot s p).mem = s.mem := rfl
@[simp] theorem latchSlot_gate (s : State) (p : Param) :
    (latchSlot s p).gate = s.gate := rfl
@[simp] theorem latchSlot_cg (s : State) (p : Param) :
    (latchSlot s p).cg = s.cg := rfl
@[simp] theorem latchSlot_d0 (s : State) (p : Param) :
    (latchSlot s p).d0 = s.d0 := rfl
@[simp] theorem latchSlot_d1 (s : State) (p : Param) :
    (latchSlot s p).d1 = s.d1 := rfl
@[simp] theorem latchSlot_dstage (s : State) (p : Param) :
    (latchSlot s p).dstage = s.dstage := rfl
@[simp] theorem latchSlot_latchLeft (s : State) (p : Param) :
    (latchSlot s p).latchLeft = s.latchLeft.erase p := rfl
@[simp] theorem latchSlot_draws (s : State) (p : Param) :
    (latchSlot s p).draws = s.draws := rfl
@[simp] theorem latchSlot_bufEpoch (s : State) (p : Param) :
    (latchSlot s p).bufEpoch = s.bufEpoch := rfl
@[simp] theorem latchSlot_wbufEpoch (s : State) (p : Param) :
    (latchSlot s p).wbufEpoch = s.wbufEpoch := rfl
@[simp] theorem latchSlot_inputs (s : State) (p : Param) :
    (latchSlot s p).inputs = s.inputs := rfl
@[simp] theorem latchSlot_port (s : State) (p : Param) :
    (latchSlot s p).port = s.port := rfl
@[simp] theorem latchSlot_resp (s : State) (p : Param) :
    (latchSlot s p).resp = s.resp := rfl

/-! `putShaped` -/

@[simp] theorem putShaped_fs (s : State) (w : F) :
    (putShaped s w).fs = s.fs := rfl
@[simp] theorem putShaped_nblk (s : State) (w : F) :
    (putShaped s w).nblk = s.nblk := rfl
@[simp] theorem putShaped_st (s : State) (w : F) :
    (putShaped s w).st = s.st := rfl
@[simp] theorem putShaped_busy (s : State) (w : F) :
    (putShaped s w).busy = s.busy := rfl
@[simp] theorem putShaped_ph (s : State) (w : F) :
    (putShaped s w).ph = s.ph := rfl
@[simp] theorem putShaped_ch (s : State) (w : F) :
    (putShaped s w).ch = s.ch := rfl
@[simp] theorem putShaped_ix (s : State) (w : F) :
    (putShaped s w).ix = s.ix := rfl
@[simp] theorem putShaped_nin (s : State) (w : F) :
    (putShaped s w).nin = s.nin := rfl
@[simp] theorem putShaped_nout (s : State) (w : F) :
    (putShaped s w).nout = s.nout := rfl
@[simp] theorem putShaped_fault (s : State) (w : F) :
    (putShaped s w).fault = s.fault := rfl
@[simp] theorem putShaped_cause (s : State) (w : F) :
    (putShaped s w).cause = s.cause := rfl
@[simp] theorem putShaped_param (s : State) (w : F) :
    (putShaped s w).param = s.param := rfl
@[simp] theorem putShaped_l (s : State) (w : F) :
    (putShaped s w).l = s.l := rfl
@[simp] theorem putShaped_type (s : State) (w : F) :
    (putShaped s w).type = s.type := rfl
@[simp] theorem putShaped_co (s : State) (w : F) :
    (putShaped s w).co = s.co := rfl
@[simp] theorem putShaped_z (s : State) (w : F) :
    (putShaped s w).z = s.z := rfl
@[simp] theorem putShaped_os (s : State) (w : F) :
    (putShaped s w).os = s.os := rfl
@[simp] theorem putShaped_mem (s : State) (w : F) :
    (putShaped s w).mem = s.mem := rfl
@[simp] theorem putShaped_gate (s : State) (w : F) :
    (putShaped s w).gate = s.gate := rfl
@[simp] theorem putShaped_cg (s : State) (w : F) :
    (putShaped s w).cg = s.cg := rfl
@[simp] theorem putShaped_d0 (s : State) (w : F) :
    (putShaped s w).d0 = s.d0 := rfl
@[simp] theorem putShaped_d1 (s : State) (w : F) :
    (putShaped s w).d1 = w := rfl
@[simp] theorem putShaped_dstage (s : State) (w : F) :
    (putShaped s w).dstage = .mix := rfl
@[simp] theorem putShaped_latchLeft (s : State) (w : F) :
    (putShaped s w).latchLeft = s.latchLeft := rfl
@[simp] theorem putShaped_draws (s : State) (w : F) :
    (putShaped s w).draws = s.draws := rfl
@[simp] theorem putShaped_bufEpoch (s : State) (w : F) :
    (putShaped s w).bufEpoch = s.bufEpoch := rfl
@[simp] theorem putShaped_wbufEpoch (s : State) (w : F) :
    (putShaped s w).wbufEpoch = s.wbufEpoch := rfl
@[simp] theorem putShaped_inputs (s : State) (w : F) :
    (putShaped s w).inputs = s.inputs := rfl
@[simp] theorem putShaped_port (s : State) (w : F) :
    (putShaped s w).port = s.port := rfl
@[simp] theorem putShaped_resp (s : State) (w : F) :
    (putShaped s w).resp = s.resp := rfl

/-! `distGate` -/

@[simp] theorem distGate_fs (s : State) (x : F) :
    (distGate s x).fs = s.fs := rfl
@[simp] theorem distGate_nblk (s : State) (x : F) :
    (distGate s x).nblk = s.nblk := rfl
@[simp] theorem distGate_st (s : State) (x : F) :
    (distGate s x).st = s.st := rfl
@[simp] theorem distGate_busy (s : State) (x : F) :
    (distGate s x).busy = s.busy := rfl
@[simp] theorem distGate_ph (s : State) (x : F) :
    (distGate s x).ph = s.ph := rfl
@[simp] theorem distGate_ch (s : State) (x : F) :
    (distGate s x).ch = s.ch := rfl
@[simp] theorem distGate_ix (s : State) (x : F) :
    (distGate s x).ix = s.ix := rfl
@[simp] theorem distGate_nin (s : State) (x : F) :
    (distGate s x).nin = s.nin := rfl
@[simp] theorem distGate_nout (s : State) (x : F) :
    (distGate s x).nout = s.nout := rfl
@[simp] theorem distGate_fault (s : State) (x : F) :
    (distGate s x).fault = s.fault := rfl
@[simp] theorem distGate_cause (s : State) (x : F) :
    (distGate s x).cause = s.cause := rfl
@[simp] theorem distGate_param (s : State) (x : F) :
    (distGate s x).param = s.param := rfl
@[simp] theorem distGate_l (s : State) (x : F) :
    (distGate s x).l = s.l := rfl
@[simp] theorem distGate_type (s : State) (x : F) :
    (distGate s x).type = s.type := rfl
@[simp] theorem distGate_co (s : State) (x : F) :
    (distGate s x).co = s.co := rfl
@[simp] theorem distGate_z (s : State) (x : F) :
    (distGate s x).z = s.z := rfl
@[simp] theorem distGate_os (s : State) (x : F) :
    (distGate s x).os = s.os := rfl
@[simp] theorem distGate_mem (s : State) (x : F) :
    (distGate s x).mem = s.mem := rfl
@[simp] theorem distGate_gate (s : State) (x : F) :
    (distGate s x).gate = gateFactor x := rfl
@[simp] theorem distGate_cg (s : State) (x : F) :
    (distGate s x).cg = fmul x (gateFactor x) := rfl
@[simp] theorem distGate_d0 (s : State) (x : F) :
    (distGate s x).d0 = pregain s.l.range (fmul x (gateFactor x)) := rfl
@[simp] theorem distGate_d1 (s : State) (x : F) :
    (distGate s x).d1 = s.d1 := rfl
@[simp] theorem distGate_dstage (s : State) (x : F) :
    (distGate s x).dstage = .shape := rfl
@[simp] theorem distGate_latchLeft (s : State) (x : F) :
    (distGate s x).latchLeft = s.latchLeft := rfl
@[simp] theorem distGate_draws (s : State) (x : F) :
    (distGate s x).draws = s.draws := rfl
@[simp] theorem distGate_bufEpoch (s : State) (x : F) :
    (distGate s x).bufEpoch = s.bufEpoch := rfl
@[simp] theorem distGate_wbufEpoch (s : State) (x : F) :
    (distGate s x).wbufEpoch = s.wbufEpoch := rfl
@[simp] theorem distGate_inputs (s : State) (x : F) :
    (distGate s x).inputs = s.inputs := rfl
@[simp] theorem distGate_port (s : State) (x : F) :
    (distGate s x).port = s.port := rfl
@[simp] theorem distGate_resp (s : State) (x : F) :
    (distGate s x).resp = s.resp := rfl

/-! `enterPhase` moves the position and nothing else. -/

@[simp] theorem enterPhase_fs (s : State) (p : Phase) : (enterPhase s p).fs = s.fs := by
  cases p <;> rfl
@[simp] theorem enterPhase_nblk (s : State) (p : Phase) : (enterPhase s p).nblk = s.nblk := by
  cases p <;> rfl
@[simp] theorem enterPhase_st (s : State) (p : Phase) : (enterPhase s p).st = s.st := by
  cases p <;> rfl
@[simp] theorem enterPhase_nin (s : State) (p : Phase) : (enterPhase s p).nin = s.nin := by
  cases p <;> rfl
@[simp] theorem enterPhase_nout (s : State) (p : Phase) : (enterPhase s p).nout = s.nout := by
  cases p <;> rfl
@[simp] theorem enterPhase_fault (s : State) (p : Phase) : (enterPhase s p).fault = s.fault := by
  cases p <;> rfl
@[simp] theorem enterPhase_cause (s : State) (p : Phase) : (enterPhase s p).cause = s.cause := by
  cases p <;> rfl
@[simp] theorem enterPhase_param (s : State) (p : Phase) : (enterPhase s p).param = s.param := by
  cases p <;> rfl
@[simp] theorem enterPhase_l (s : State) (p : Phase) : (enterPhase s p).l = s.l := by
  cases p <;> rfl
@[simp] theorem enterPhase_type (s : State) (p : Phase) : (enterPhase s p).type = s.type := by
  cases p <;> rfl
@[simp] theorem enterPhase_co (s : State) (p : Phase) : (enterPhase s p).co = s.co := by
  cases p <;> rfl
@[simp] theorem enterPhase_z (s : State) (p : Phase) : (enterPhase s p).z = s.z := by
  cases p <;> rfl
@[simp] theorem enterPhase_os (s : State) (p : Phase) : (enterPhase s p).os = s.os := by
  cases p <;> rfl
@[simp] theorem enterPhase_mem (s : State) (p : Phase) : (enterPhase s p).mem = s.mem := by
  cases p <;> rfl
@[simp] theorem enterPhase_gate (s : State) (p : Phase) : (enterPhase s p).gate = s.gate := by
  cases p <;> rfl
@[simp] theorem enterPhase_cg (s : State) (p : Phase) : (enterPhase s p).cg = s.cg := by
  cases p <;> rfl
@[simp] theorem enterPhase_d0 (s : State) (p : Phase) : (enterPhase s p).d0 = s.d0 := by
  cases p <;> rfl
@[simp] theorem enterPhase_d1 (s : State) (p : Phase) : (enterPhase s p).d1 = s.d1 := by
  cases p <;> rfl
@[simp] theorem enterPhase_latchLeft (s : State) (p : Phase) : (enterPhase s p).latchLeft = s.latchLeft := by
  cases p <;> rfl
@[simp] theorem enterPhase_draws (s : State) (p : Phase) : (enterPhase s p).draws = s.draws := by
  cases p <;> rfl
@[simp] theorem enterPhase_bufEpoch (s : State) (p : Phase) : (enterPhase s p).bufEpoch = s.bufEpoch := by
  cases p <;> rfl
@[simp] theorem enterPhase_wbufEpoch (s : State) (p : Phase) : (enterPhase s p).wbufEpoch = s.wbufEpoch := by
  cases p <;> rfl
@[simp] theorem enterPhase_inputs (s : State) (p : Phase) : (enterPhase s p).inputs = s.inputs := by
  cases p <;> rfl
@[simp] theorem enterPhase_port (s : State) (p : Phase) : (enterPhase s p).port = s.port := by
  cases p <;> rfl
@[simp] theorem enterPhase_resp (s : State) (p : Phase) : (enterPhase s p).resp = s.resp := by
  cases p <;> rfl

@[simp] theorem enterPhase_ph (s : State) (p : Phase) : (enterPhase s p).ph = p := by
  cases p <;> rfl

theorem enterPhase_busy (s : State) (p : Phase) :
    (enterPhase s p).busy = if p = .idle then false else s.busy := by
  cases p <;> rfl

theorem enterPhase_ix (s : State) (p : Phase) : (enterPhase s p).ix = if p = .idle then s.ix else 0 := by
  cases p <;> rfl

theorem enterPhase_dstage (s : State) (p : Phase) :
    (enterPhase s p).dstage = if p = .idle then s.dstage else .gate := by
  cases p <;> rfl

theorem enterPhase_ch (s : State) (p : Phase) :
    (enterPhase s p).ch =
      if p = .idle then s.ch else if p = .clear then chanOfIndex s.nin else .c0 := by
  cases p <;> rfl

/-! `nextSample` moves the position and nothing else. -/

/-- Everything `nextSample` can do. -/
theorem nextSample_cases (s : State) (hi lim : Nat) (p : Phase) :
    (s.ix + 1 < lim ∧ nextSample s hi lim p = { s with ix := s.ix + 1 }) ∨
    (¬ s.ix + 1 < lim ∧ chanIndex s.ch + 1 < hi ∧ nextSample s hi lim p = { s with ch := .c1, ix := 0 }) ∨
    (¬ s.ix + 1 < lim ∧ ¬ chanIndex s.ch + 1 < hi ∧ nextSample s hi lim p = enterPhase s p) := by
  unfold nextSample
  by_cases h1 : s.ix + 1 < lim
  · exact Or.inl ⟨h1, by simp [h1]⟩
  · by_cases h2 : chanIndex s.ch + 1 < hi
    · exact Or.inr (Or.inl ⟨h1, h2, by simp [h1, h2]⟩)
    · exact Or.inr (Or.inr ⟨h1, h2, by simp [h1, h2]⟩)

@[simp] theorem nextSample_fs (s : State) (hi lim : Nat) (p : Phase) :
    (nextSample s hi lim p).fs = s.fs := by
  obtain ⟨-, h⟩ | ⟨-, -, h⟩ | ⟨-, -, h⟩ := nextSample_cases s hi lim p <;> simp [h]
@[simp] theorem nextSample_nblk (s : State) (hi lim : Nat) (p : Phase) :
    (nextSample s hi lim p).nblk = s.nblk := by
  obtain ⟨-, h⟩ | ⟨-, -, h⟩ | ⟨-, -, h⟩ := nextSample_cases s hi lim p <;> simp [h]
@[simp] theorem nextSample_st (s : State) (hi lim : Nat) (p : Phase) :
    (nextSample s hi lim p).st = s.st := by
  obtain ⟨-, h⟩ | ⟨-, -, h⟩ | ⟨-, -, h⟩ := nextSample_cases s hi lim p <;> simp [h]
@[simp] theorem nextSample_nin (s : State) (hi lim : Nat) (p : Phase) :
    (nextSample s hi lim p).nin = s.nin := by
  obtain ⟨-, h⟩ | ⟨-, -, h⟩ | ⟨-, -, h⟩ := nextSample_cases s hi lim p <;> simp [h]
@[simp] theorem nextSample_nout (s : State) (hi lim : Nat) (p : Phase) :
    (nextSample s hi lim p).nout = s.nout := by
  obtain ⟨-, h⟩ | ⟨-, -, h⟩ | ⟨-, -, h⟩ := nextSample_cases s hi lim p <;> simp [h]
@[simp] theorem nextSample_fault (s : State) (hi lim : Nat) (p : Phase) :
    (nextSample s hi lim p).fault = s.fault := by
  obtain ⟨-, h⟩ | ⟨-, -, h⟩ | ⟨-, -, h⟩ := nextSample_cases s hi lim p <;> simp [h]
@[simp] theorem nextSample_cause (s : State) (hi lim : Nat) (p : Phase) :
    (nextSample s hi lim p).cause = s.cause := by
  obtain ⟨-, h⟩ | ⟨-, -, h⟩ | ⟨-, -, h⟩ := nextSample_cases s hi lim p <;> simp [h]
@[simp] theorem nextSample_param (s : State) (hi lim : Nat) (p : Phase) :
    (nextSample s hi lim p).param = s.param := by
  obtain ⟨-, h⟩ | ⟨-, -, h⟩ | ⟨-, -, h⟩ := nextSample_cases s hi lim p <;> simp [h]
@[simp] theorem nextSample_l (s : State) (hi lim : Nat) (p : Phase) :
    (nextSample s hi lim p).l = s.l := by
  obtain ⟨-, h⟩ | ⟨-, -, h⟩ | ⟨-, -, h⟩ := nextSample_cases s hi lim p <;> simp [h]
@[simp] theorem nextSample_type (s : State) (hi lim : Nat) (p : Phase) :
    (nextSample s hi lim p).type = s.type := by
  obtain ⟨-, h⟩ | ⟨-, -, h⟩ | ⟨-, -, h⟩ := nextSample_cases s hi lim p <;> simp [h]
@[simp] theorem nextSample_co (s : State) (hi lim : Nat) (p : Phase) :
    (nextSample s hi lim p).co = s.co := by
  obtain ⟨-, h⟩ | ⟨-, -, h⟩ | ⟨-, -, h⟩ := nextSample_cases s hi lim p <;> simp [h]
@[simp] theorem nextSample_z (s : State) (hi lim : Nat) (p : Phase) :
    (nextSample s hi lim p).z = s.z := by
  obtain ⟨-, h⟩ | ⟨-, -, h⟩ | ⟨-, -, h⟩ := nextSample_cases s hi lim p <;> simp [h]
@[simp] theorem nextSample_os (s : State) (hi lim : Nat) (p : Phase) :
    (nextSample s hi lim p).os = s.os := by
  obtain ⟨-, h⟩ | ⟨-, -, h⟩ | ⟨-, -, h⟩ := nextSample_cases s hi lim p <;> simp [h]
@[simp] theorem nextSample_mem (s : State) (hi lim : Nat) (p : Phase) :
    (nextSample s hi lim p).mem = s.mem := by
  obtain ⟨-, h⟩ | ⟨-, -, h⟩ | ⟨-, -, h⟩ := nextSample_cases s hi lim p <;> simp [h]
@[simp] theorem nextSample_gate (s : State) (hi lim : Nat) (p : Phase) :
    (nextSample s hi lim p).gate = s.gate := by
  obtain ⟨-, h⟩ | ⟨-, -, h⟩ | ⟨-, -, h⟩ := nextSample_cases s hi lim p <;> simp [h]
@[simp] theorem nextSample_cg (s : State) (hi lim : Nat) (p : Phase) :
    (nextSample s hi lim p).cg = s.cg := by
  obtain ⟨-, h⟩ | ⟨-, -, h⟩ | ⟨-, -, h⟩ := nextSample_cases s hi lim p <;> simp [h]
@[simp] theorem nextSample_d0 (s : State) (hi lim : Nat) (p : Phase) :
    (nextSample s hi lim p).d0 = s.d0 := by
  obtain ⟨-, h⟩ | ⟨-, -, h⟩ | ⟨-, -, h⟩ := nextSample_cases s hi lim p <;> simp [h]
@[simp] theorem nextSample_d1 (s : State) (hi lim : Nat) (p : Phase) :
    (nextSample s hi lim p).d1 = s.d1 := by
  obtain ⟨-, h⟩ | ⟨-, -, h⟩ | ⟨-, -, h⟩ := nextSample_cases s hi lim p <;> simp [h]
@[simp] theorem nextSample_latchLeft (s : State) (hi lim : Nat) (p : Phase) :
    (nextSample s hi lim p).latchLeft = s.latchLeft := by
  obtain ⟨-, h⟩ | ⟨-, -, h⟩ | ⟨-, -, h⟩ := nextSample_cases s hi lim p <;> simp [h]
@[simp] theorem nextSample_draws (s : State) (hi lim : Nat) (p : Phase) :
    (nextSample s hi lim p).draws = s.draws := by
  obtain ⟨-, h⟩ | ⟨-, -, h⟩ | ⟨-, -, h⟩ := nextSample_cases s hi lim p <;> simp [h]
@[simp] theorem nextSample_bufEpoch (s : State) (hi lim : Nat) (p : Phase) :
    (nextSample s hi lim p).bufEpoch = s.bufEpoch := by
  obtain ⟨-, h⟩ | ⟨-, -, h⟩ | ⟨-, -, h⟩ := nextSample_cases s hi lim p <;> simp [h]
@[simp] theorem nextSample_wbufEpoch (s : State) (hi lim : Nat) (p : Phase) :
    (nextSample s hi lim p).wbufEpoch = s.wbufEpoch := by
  obtain ⟨-, h⟩ | ⟨-, -, h⟩ | ⟨-, -, h⟩ := nextSample_cases s hi lim p <;> simp [h]
@[simp] theorem nextSample_inputs (s : State) (hi lim : Nat) (p : Phase) :
    (nextSample s hi lim p).inputs = s.inputs := by
  obtain ⟨-, h⟩ | ⟨-, -, h⟩ | ⟨-, -, h⟩ := nextSample_cases s hi lim p <;> simp [h]
@[simp] theorem nextSample_port (s : State) (hi lim : Nat) (p : Phase) :
    (nextSample s hi lim p).port = s.port := by
  obtain ⟨-, h⟩ | ⟨-, -, h⟩ | ⟨-, -, h⟩ := nextSample_cases s hi lim p <;> simp [h]
@[simp] theorem nextSample_resp (s : State) (hi lim : Nat) (p : Phase) :
    (nextSample s hi lim p).resp = s.resp := by
  obtain ⟨-, h⟩ | ⟨-, -, h⟩ | ⟨-, -, h⟩ := nextSample_cases s hi lim p <;> simp [h]

/-! `prepareStream` -/

@[simp] theorem prepareStream_fs (s : State) (n : Nat) (x : F) :
    (prepareStream s n x).fs = x := rfl
@[simp] theorem prepareStream_nblk (s : State) (n : Nat) (x : F) :
    (prepareStream s n x).nblk = n := rfl
@[simp] theorem prepareStream_st (s : State) (n : Nat) (x : F) :
    (prepareStream s n x).st = .prepared := rfl
@[simp] theorem prepareStream_busy (s : State) (n : Nat) (x : F) :
    (prepareStream s n x).busy = false := rfl
@[simp] theorem prepareStream_ph (s : State) (n : Nat) (x : F) :
    (prepareStream s n x).ph = .idle := rfl
@[simp] theorem prepareStream_ch (s : State) (n : Nat) (x : F) :
    (prepareStream s n x).ch = chanOfIndex (drawnNat s.draws .ch 1) := rfl
@[simp] theorem prepareStream_ix (s : State) (n : Nat) (x : F) :
    (prepareStream s n x).ix = drawnNat s.draws .ix 24 := rfl
@[simp] theorem prepareStream_nin (s : State) (n : Nat) (x : F) :
    (prepareStream s n x).nin = drawnNat s.draws .nin 2 := rfl
@[simp] theorem prepareStream_nout (s : State) (n : Nat) (x : F) :
    (prepareStream s n x).nout = drawnNat s.draws .nout 2 := rfl
@[simp] theorem prepareStream_fault (s : State) (n : Nat) (x : F) :
    (prepareStream s n x).fault = s.fault := rfl
@[simp] theorem prepareStream_cause (s : State) (n : Nat) (x : F) :
    (prepareStream s n x).cause = s.cause := rfl
@[simp] theorem prepareStream_param (s : State) (n : Nat) (x : F) :
    (prepareStream s n x).param = s.param := rfl
@[simp] theorem prepareStream_l (s : State) (n : Nat) (x : F) :
    (prepareStream s n x).l = drawnParams s.draws := rfl
@[simp] theorem prepareStream_type (s : State) (n : Nat) (x : F) :
    (prepareStream s n x).type = drawnType s.draws := rfl
@[simp] theorem prepareStream_co (s : State) (n : Nat) (x : F) :
    (prepareStream s n x).co = drawnCo s.draws := rfl
@[simp] theorem prepareStream_z (s : State) (n : Nat) (x : F) :
    (prepareStream s n x).z = zeroZ := rfl
@[simp] theorem prepareStream_os (s : State) (n : Nat) (x : F) :
    (prepareStream s n x).os = zeroOs := rfl
@[simp] theorem prepareStream_mem (s : State) (n : Nat) (x : F) :
    (prepareStream s n x).mem = [] := rfl
@[simp] theorem prepareStream_gate (s : State) (n : Nat) (x : F) :
    (prepareStream s n x).gate = s.gate := rfl
@[simp] theorem prepareStream_cg (s : State) (n : Nat) (x : F) :
    (prepareStream s n x).cg = s.cg := rfl
@[simp] theorem prepareStream_d0 (s : State) (n : Nat) (x : F) :
    (prepareStream s n x).d0 = s.d0 := rfl
@[simp] theorem prepareStream_d1 (s : State) (n : Nat) (x : F) :
    (prepareStream s n x).d1 = s.d1 := rfl
@[simp] theorem prepareStream_dstage (s : State) (n : Nat) (x : F) :
    (prepareStream s n x).dstage = s.dstage := rfl
@[simp] theorem prepareStream_latchLeft (s : State) (n : Nat) (x : F) :
    (prepareStream s n x).latchLeft = s.latchLeft := rfl
@[simp] theorem prepareStream_draws (s : State) (n : Nat) (x : F) :
    (prepareStream s n x).draws = s.draws + 1 := rfl
@[simp] theorem prepareStream_bufEpoch (s : State) (n : Nat) (x : F) :
    (prepareStream s n x).bufEpoch = s.draws := rfl
@[simp] theorem prepareStream_wbufEpoch (s : State) (n : Nat) (x : F) :
    (prepareStream s n x).wbufEpoch = s.draws := rfl
@[simp] theorem prepareStream_inputs (s : State) (n : Nat) (x : F) :
    (prepareStream s n x).inputs = s.inputs := rfl
@[simp] theorem prepareStream_port (s : State) (n : Nat) (x : F) :
    (prepareStream s n x).port = s.port := rfl
@[simp] theorem prepareStream_resp (s : State) (n : Nat) (x : F) :
    (prepareStream s n x).resp = s.resp := rfl

/-! `releaseStream` -/

@[simp] theorem releaseStream_fs (s : State) :
    (releaseStream s).fs = s.fs := rfl
@[simp] theorem releaseStream_nblk (s : State) :
    (releaseStream s).nblk = s.nblk := rfl
@[simp] theorem releaseStream_st (s : State) :
    (releaseStream s).st = .released := rfl
@[simp] theorem releaseStream_busy (s : State) :
    (releaseStream s).busy = false := rfl
@[simp] theorem releaseStream_ph (s : State) :
    (releaseStream s).ph = .idle := rfl
@[simp] theorem releaseStream_ch (s : State) :
    (releaseStream s).ch = s.ch := rfl
@[simp] theorem releaseStream_ix (s : State) :
    (releaseStream s).ix = s.ix := rfl
@[simp] theorem releaseStream_nin (s : State) :
    (releaseStream s).nin = s.nin := rfl
@[simp] theorem releaseStream_nout (s : State) :
    (releaseStream s).nout = s.nout := rfl
@[simp] theorem releaseStream_fault (s : State) :
    (releaseStream s).fault = s.fault := rfl
@[simp] theorem releaseStream_cause (s : State) :
    (releaseStream s).cause = s.cause := rfl
@[simp] theorem releaseStream_param (s : State) :
    (releaseStream s).param = s.param := rfl
@[simp] theorem releaseStream_l (s : State) :
    (releaseStream s).l = s.l := rfl
@[simp] theorem releaseStream_type (s : State) :
    (releaseStream s).type = s.type := rfl
@[simp] theorem releaseStream_co (s : State) :
    (releaseStream s).co = s.co := rfl
@[simp] theorem releaseStream_z (s : State) :
    (releaseStream s).z = drawnZ s.draws := rfl
@[simp] theorem releaseStream_os (s : State) :
    (releaseStream s).os = zeroOs := rfl
@[simp] theorem releaseStream_mem (s : State) :
    (releaseStream s).mem = s.mem.filter fun e => decide (e.1 < wbufBase) := rfl
@[simp] theorem releaseStream_gate (s : State) :
    (releaseStream s).gate = s.gate := rfl
@[simp] theorem releaseStream_cg (s : State) :
    (releaseStream s).cg = s.cg := rfl
@[simp] theorem releaseStream_d0 (s : State) :
    (releaseStream s).d0 = s.d0 := rfl
@[simp] theorem releaseStream_d1 (s : State) :
    (releaseStream s).d1 = s.d1 := rfl
@[simp] theorem releaseStream_dstage (s : State) :
    (releaseStream s).dstage = s.dstage := rfl
@[simp] theorem releaseStream_latchLeft (s : State) :
    (releaseStream s).latchLeft = s.latchLeft := rfl
@[simp] theorem releaseStream_draws (s : State) :
    (releaseStream s).draws = s.draws + 1 := rfl
@[simp] theorem releaseStream_bufEpoch (s : State) :
    (releaseStream s).bufEpoch = s.bufEpoch := rfl
@[simp] theorem releaseStream_wbufEpoch (s : State) :
    (releaseStream s).wbufEpoch = s.draws := rfl
@[simp] theorem releaseStream_inputs (s : State) :
    (releaseStream s).inputs = s.inputs := rfl
@[simp] theorem releaseStream_port (s : State) :
    (releaseStream s).port = s.port := rfl
@[simp] theorem releaseStream_resp (s : State) :
    (releaseStream s).resp = s.resp := rfl

/-! `hardReset` -/

@[simp] theorem hardReset_fs (s : State) :
    (hardReset s).fs = Config.draw s.draws .fs := rfl
@[simp] theorem hardReset_nblk (s : State) :
    (hardReset s).nblk = drawnNat s.draws .nblk 24 := rfl
@[simp] theorem hardReset_st (s : State) :
    (hardReset s).st = .uninit := rfl
@[simp] theorem hardReset_busy (s : State) :
    (hardReset s).busy = false := rfl
@[simp] theorem hardReset_ph (s : State) :
    (hardReset s).ph = .idle := rfl
@[simp] theorem hardReset_ch (s : State) :
    (hardReset s).ch = chanOfIndex (drawnNat s.draws .ch 1) := rfl
@[simp] theorem hardReset_ix (s : State) :
    (hardReset s).ix = drawnNat s.draws .ix 24 := rfl
@[simp] theorem hardReset_nin (s : State) :
    (hardReset s).nin = drawnNat s.draws .nin 2 := rfl
@[simp] theorem hardReset_nout (s : State) :
    (hardReset s).nout = drawnNat s.draws .nout 2 := rfl
@[simp] theorem hardReset_fault (s : State) :
    (hardReset s).fault = false := rfl
@[simp] theorem hardReset_cause (s : State) :
    (hardReset s).cause = .none := rfl
@[simp] theorem hardReset_param (s : State) :
    (hardReset s).param = Params.defaults := rfl
@[simp] theorem hardReset_l (s : State) :
    (hardReset s).l = drawnParams s.draws := rfl
@[simp] theorem hardReset_type (s : State) :
    (hardReset s).type = drawnType s.draws := rfl
@[simp] theorem hardReset_co (s : State) :
    (hardReset s).co = drawnCo s.draws := rfl
@[simp] theorem hardReset_z (s : State) :
    (hardReset s).z = drawnZ s.draws := rfl
@[simp] theorem hardReset_os (s : State) :
    (hardReset s).os = ⟨drawnOsMem s.draws .c0, drawnOsMem s.draws .c1⟩ := rfl
@[simp] theorem hardReset_mem (s : State) :
    (hardReset s).mem = [] := rfl
@[simp] theorem hardReset_gate (s : State) :
    (hardReset s).gate = s.gate := rfl
@[simp] theorem hardReset_cg (s : State) :
    (hardReset s).cg = s.cg := rfl
@[simp] theorem hardReset_d0 (s : State) :
    (hardReset s).d0 = s.d0 := rfl
@[simp] theorem hardReset_d1 (s : State) :
    (hardReset s).d1 = s.d1 := rfl
@[simp] theorem hardReset_dstage (s : State) :
    (hardReset s).dstage = .gate := rfl
@[simp] theorem hardReset_latchLeft (s : State) :
    (hardReset s).latchLeft = [] := rfl
@[simp] theorem hardReset_draws (s : State) :
    (hardReset s).draws = s.draws + 1 := rfl
@[simp] theorem hardReset_bufEpoch (s : State) :
    (hardReset s).bufEpoch = s.draws := rfl
@[simp] theorem hardReset_wbufEpoch (s : State) :
    (hardReset s).wbufEpoch = s.draws := rfl
@[simp] theorem hardReset_inputs (s : State) :
    (hardReset s).inputs = s.inputs := rfl
@[simp] theorem hardReset_port (s : State) :
    (hardReset s).port = s.port := rfl
@[simp] theorem hardReset_resp (s : State) :
    (hardReset s).resp = s.resp := rfl

end Sys2Proof.Machine
end

