-- ==== Sys2Proof/Laws/Memory.lean ====
section
/-! SUPPORT. The data space: reading after writing, and the canonical form that every memory operation keeps. -/

namespace Sys2Proof.Machine

/-- A stored word is read back. -/
@[simp] theorem memLookup_memStore_same (m : Memory) (a : Nat) (v : F) :
    memLookup (memStore m a v) a = some v := by
  induction m with
  | nil => simp [memStore, memLookup]
  | cons e m ih =>
    obtain ⟨b, w⟩ := e
    simp only [memStore]
    split
    · simp [memLookup]
    · split
      · simp [memLookup]
      · rename_i h1 h2
        simp [memLookup, ih, Ne.symm h2]

/-- A store leaves every other address alone. -/
theorem memLookup_memStore_other (m : Memory) (a b : Nat) (v : F) (h : b ≠ a) :
    memLookup (memStore m a v) b = memLookup m b := by
  induction m with
  | nil => simp [memStore, memLookup, h.symm]
  | cons e m ih =>
    obtain ⟨c, w⟩ := e
    simp only [memStore]
    split
    · simp [memLookup, h.symm]
    · split
      · rename_i _ h2
        subst h2
        simp [memLookup, h.symm]
      · simp [memLookup, ih]

/-- The canonical form in terms of the library: addresses pairwise rising. -/
theorem memWf_iff_pairwise (m : Memory) : memWf m = true ↔ m.Pairwise fun x y => x.1 < y.1 := by
  induction m with
  | nil => simp [memWf]
  | cons e m ih =>
    obtain ⟨a, v⟩ := e
    cases m with
    | nil => simp [memWf]
    | cons e' m' =>
      obtain ⟨b, w⟩ := e'
      simp only [memWf, Bool.and_eq_true, decide_eq_true_eq, ih]
      constructor
      · rintro ⟨hab, hp⟩
        refine List.pairwise_cons.2 ⟨?_, hp⟩
        intro x hx
        rcases List.mem_cons.1 hx with rfl | hx
        · exact hab
        · exact lt_trans hab ((List.pairwise_cons.1 hp).1 x hx)
      · intro hp
        exact ⟨(List.pairwise_cons.1 hp).1 (b, w) List.mem_cons_self, (List.pairwise_cons.1 hp).2⟩

/-- The addresses listed after a store: the old ones and the one stored to. -/
theorem mem_memStore_fst (m : Memory) (a : Nat) (v : F) (e : Nat × F) (h : e ∈ memStore m a v) :
    e = (a, v) ∨ e ∈ m := by
  induction m with
  | nil => simpa [memStore] using h
  | cons x m ih =>
    obtain ⟨b, w⟩ := x
    simp only [memStore] at h
    split at h
    · simpa using h
    · split at h
      · rcases List.mem_cons.1 h with h | h
        · exact Or.inl h
        · exact Or.inr (List.mem_cons_of_mem _ h)
      · rcases List.mem_cons.1 h with h | h
        · exact Or.inr (h ▸ List.mem_cons_self)
        · rcases ih h with h | h
          · exact Or.inl h
          · exact Or.inr (List.mem_cons_of_mem _ h)

/-- A store keeps the canonical form. -/
theorem memWf_memStore (m : Memory) (a : Nat) (v : F) (h : memWf m = true) : memWf (memStore m a v) = true := by
  rw [memWf_iff_pairwise] at h ⊢
  induction m with
  | nil => simp [memStore]
  | cons e m ih =>
    obtain ⟨b, w⟩ := e
    obtain ⟨hb, hm⟩ := List.pairwise_cons.1 h
    simp only [memStore]
    split
    · rename_i hab
      refine List.pairwise_cons.2 ⟨?_, h⟩
      intro x hx
      rcases List.mem_cons.1 hx with rfl | hx
      · exact hab
      · exact lt_trans hab (hb x hx)
    · split
      · rename_i _ hab
        subst hab
        exact List.pairwise_cons.2 ⟨hb, hm⟩
      · rename_i h1 h2
        refine List.pairwise_cons.2 ⟨?_, ih hm⟩
        intro x hx
        rcases mem_memStore_fst m a v x hx with rfl | hx
        · show b < a
          omega
        · exact hb x hx

/-- Dropping entries keeps the canonical form. -/
theorem memWf_filter (m : Memory) (p : Nat × F → Bool) (h : memWf m = true) : memWf (m.filter p) = true := by
  rw [memWf_iff_pairwise] at h ⊢
  exact h.filter p

/-- Dropping entries leaves the words alone whose entries are kept. -/
theorem memLookup_filter (m : Memory) (q : Nat → Bool) (a : Nat) (h : q a = true) :
    memLookup (m.filter fun e => q e.1) a = memLookup m a := by
  induction m with
  | nil => rfl
  | cons e m ih =>
    obtain ⟨b, w⟩ := e
    by_cases hb : b = a
    · subst hb
      simp [h, memLookup]
    · by_cases hq : q b = true
      · simp [hq, memLookup, hb, ih]
      · simp [hq, memLookup, hb, ih]

/-- A word written is read back. -/
@[simp] theorem readWord_writeWord_same (s : State) (a : Nat) (v : F) : readWord (writeWord s a v) a = v := by
  simp [readWord]

/-- A write leaves every other word alone. -/
theorem readWord_writeWord_other (s : State) (a b : Nat) (v : F) (h : b ≠ a) :
    readWord (writeWord s a v) b = readWord s b := by
  simp [readWord, unwrittenWord, memLookup_memStore_other _ _ _ _ h]

/-- A read depends on the memory and on the two epochs alone. -/
theorem readWord_congr (s t : State) (a : Nat) (hm : t.mem = s.mem) (hb : t.bufEpoch = s.bufEpoch)
    (hw : t.wbufEpoch = s.wbufEpoch) : readWord t a = readWord s a := by
  simp [readWord, unwrittenWord, hm, hb, hw]

@[simp] theorem readWord_enterPhase (s : State) (p : Phase) (a : Nat) :
    readWord (enterPhase s p) a = readWord s a := readWord_congr _ _ _ (by simp) (by simp) (by simp)

@[simp] theorem readWord_nextSample (s : State) (hi lim : Nat) (p : Phase) (a : Nat) :
    readWord (nextSample s hi lim p) a = readWord s a := readWord_congr _ _ _ (by simp) (by simp) (by simp)

/-- The memory after reset has the canonical form. -/
theorem reset_memWf : memWf State.reset.mem = true := rfl

end Sys2Proof.Machine
end

