-- ==== Sys2Proof/Laws/Ops.lean ====
section
/-! SUPPORT. What each shared operation can do, once. -/

namespace Sys2Proof.Machine

/-- Taking a fault when one is recorded changes nothing but keeps the record (60_exceptions.md R181). -/
theorem raiseFault_of_fault (s : State) (c : Cause) (h : s.fault = true) : raiseFault s c = s := by
  cases s
  simp_all [raiseFault]

/-- The first fault records its cause. -/
theorem raiseFault_cause_first (s : State) (c : Cause) (h : s.fault = false) : (raiseFault s c).cause = c := by
  simp [h]

/-- What RDP, RDB and the phases read of the data space does not depend on faults and responses. -/
@[simp] theorem readWord_raiseFault (s : State) (c : Cause) (a : Nat) :
    readWord (raiseFault s c) a = readWord s a := rfl

@[simp] theorem readWord_respond (s : State) (w : F) (a : Nat) : readWord (respond s w) a = readWord s a := rfl

/-- A sample is at hand exactly when the channel and the index are in range. -/
theorem atSample_iff (s : State) (lo hi lim : Nat) :
    atSample s lo hi lim = true ↔ lo ≤ chanIndex s.ch ∧ chanIndex s.ch < hi ∧ s.ix < lim := by
  simp [atSample, and_assoc]

/-- A cascade keeps the number of memory words. -/
theorem cascade_length (coefs : List F) : ∀ (mem : List F) (x : F), (cascade coefs mem x).2.length = mem.length := by
  induction coefs with
  | nil => intro mem x; simp [cascade]
  | cons a coefs ih =>
    intro mem x
    cases mem with
    | nil => simp [cascade]
    | cons v mem => simp [cascade, ih]

/-- A cascade of no sections returns its input (41_oversampler.md R101). -/
@[simp] theorem cascade_nil (mem : List F) (x : F) : cascade [] mem x = (x, mem) := by
  simp [cascade]

/-- The two things a filter phase can do with a sample. -/
theorem filterSample_cases (s : State) (r : Role) (p : Phase) :
    (atSample s 0 s.nin (2 * s.nblk) = true ∧
      filterSample s r p =
        nextSample
          { writeWbuf s s.ch s.ix
              (biquadStep (s.co.get r) ((s.z.get r).get s.ch) (readWbuf s s.ch s.ix)).1 with
            z := s.z.set r ((s.z.get r).set s.ch
              (biquadStep (s.co.get r) ((s.z.get r).get s.ch) (readWbuf s s.ch s.ix)).2) }
          s.nin (2 * s.nblk) p) ∨
    (atSample s 0 s.nin (2 * s.nblk) = false ∧ filterSample s r p = enterPhase s p) := by
  cases h : atSample s 0 s.nin (2 * s.nblk)
  · exact Or.inr ⟨rfl, by simp [filterSample, h]⟩
  · exact Or.inl ⟨rfl, by simp [filterSample, h]⟩

/-- The value of a bank of phases' limits: the codes are read back. -/
theorem phaseOfCode_phCode (p : Phase) : phaseOfCode (phCode p) = p := by
  cases p <;> rfl

theorem shaperOfCode_typeBits (t : Shaper) : shaperOfCode (typeBits t) = t := by
  cases t <;> rfl

end Sys2Proof.Machine
end

