-- ==== Sys2Proof/Laws/Step.lean ====
section
/-! SUPPORT. What a step can do, once: the inversion lemma of `step`, the instructions each kind of code decodes to, and
that every instruction has a next state. -/

namespace Sys2Proof.Machine

/-- Every instruction has a next state in every state: nothing in this hardware is stuck. -/
theorem exec_total (i : Instr) (s : State) : ∃ t, exec i s = .next t := by
  cases i <;>
    simp only [exec, execNop, execPrepare, execProcess, execRelease, execWrp, execRdp, execWrb, execRdb, execRds,
      execLatch, execClear, execCoef, execUp, execHpf, execMid, execDist, execLpf, execDown, execShapeWa, execShapeSa,
      execShapeBi]
  all_goals repeat' split
  all_goals exact ⟨_, rfl⟩

/-- The phases of the sequencer as instructions. -/
def phaseInstr : Phase → Option Instr
  | .idle => none
  | .latch => some .latch
  | .clear => some .clear
  | .coef => some .coef
  | .up => some .up
  | .hpf => some .hpf
  | .mid => some .mid
  | .dist => some .dist
  | .lpf => some .lpf
  | .down => some .down

/-- The shapers as instructions. -/
def shaperInstr : Shaper → Instr
  | .wa => .shapeWa
  | .sa => .shapeSa
  | .bi => .shapeBi

theorem decode_phCode (p : Phase) (i : Instr) : decode (.ph (phCode p)) = .ok i ↔ phaseInstr p = some i := by
  cases p <;> simp [decode, decodePhase, phCode, phaseInstr]

theorem decode_typeBits (t : Shaper) : decode (.type (typeBits t)) = .ok (shaperInstr t) := by
  cases t <;> rfl

/-- What the sequencer runs: the shaper named by `TYPE` inside DIST, else the phase named by `PH`. -/
theorem decode_sequencerCode (s : State) (i : Instr) :
    decode (sequencerCode s) = .ok i ↔
      (s.ph = .dist ∧ s.dstage = .shape ∧ i = shaperInstr s.type) ∨
      (¬ (s.ph = .dist ∧ s.dstage = .shape) ∧ phaseInstr s.ph = some i) := by
  by_cases h : s.ph = .dist ∧ s.dstage = .shape
  · simp [sequencerCode, h, decode_typeBits, eq_comm]
  · simp only [sequencerCode, if_neg h, decode_phCode]
    simp [h]
    tauto

/-- A run goes on from the state its first step gives. -/
theorem run_succ (n : Nat) (s t : State) (h : step s = .next t) :
    Sys2Proof.core.run (n + 1) s = Sys2Proof.core.run n t := by
  have h' : Sys2Proof.core.step s = .next t := h
  simp only [Host.Core.run, h']

/-- Everything a step can do. -/
theorem step_cases (s t : State) (h : step s = .next t) :
    (∃ rest, s.inputs = .rst :: rest ∧ t = hardReset { s with inputs := rest }) ∨
    (∃ p w rest, s.inputs = .packet p w :: rest ∧ (p = .audio → s.busy = false) ∧
      ((∃ i, decode (.pkt w) = .ok i ∧ exec i { s with inputs := rest, port := p } = .next t) ∨
        (∃ e, decode (.pkt w) = .error e ∧ t = illegalPacket { s with inputs := rest, port := p }))) ∨
    (∃ rest, (s.inputs = rest ∨ s.inputs = .advance :: rest) ∧
      ((s.busy = false ∧ t = { s with inputs := rest }) ∨
        (s.busy = true ∧ ∃ i, decode (sequencerCode s) = .ok i ∧ exec i { s with inputs := rest } = .next t))) := by
  have hseq : ∀ s1 : State, (if s1.busy then
      match decode (sequencerCode s1) with
      | .ok i => exec i s1
      | .error _ => .fault .busyWithoutPhase
    else Host.Outcome.next s1) = .next t →
      ((s1.busy = false ∧ t = s1) ∨ (s1.busy = true ∧ ∃ i, decode (sequencerCode s1) = .ok i ∧ exec i s1 = .next t)) := by
    intro s1 h1
    by_cases hb : s1.busy = true
    swap
    · simp only [if_neg hb, Host.Outcome.next.injEq] at h1
      exact Or.inl ⟨by simpa using hb, h1.symm⟩
    · simp only [if_pos hb] at h1
      cases hd : decode (sequencerCode s1) with
      | error e => simp [hd] at h1
      | ok i => exact Or.inr ⟨hb, i, rfl, by simpa [hd] using h1⟩
  have hpkt : ∀ (w : Packet) (s1 : State),
      (match decode (.pkt w) with
      | .ok i => exec i s1
      | .error _ => Host.Outcome.next (illegalPacket s1)) = .next t →
      ((∃ i, decode (.pkt w) = .ok i ∧ exec i s1 = .next t) ∨
        (∃ e, decode (.pkt w) = .error e ∧ t = illegalPacket s1)) := by
    intro w s1 h1
    cases hd : decode (.pkt w) with
    | error e =>
      simp only [hd, Host.Outcome.next.injEq] at h1
      exact Or.inr ⟨e, rfl, h1.symm⟩
    | ok i => exact Or.inl ⟨i, rfl, by simpa [hd] using h1⟩
  unfold step nextTurn at h
  cases hin : s.inputs with
  | nil =>
    simp only [hin] at h
    refine Or.inr (Or.inr ⟨[], Or.inl rfl, ?_⟩)
    have hs : ({ s with inputs := [] } : State) = s := by rw [← hin]
    rw [hs]
    exact hseq s h
  | cons x rest =>
    cases x with
    | rst =>
      simp only [hin, Host.Outcome.next.injEq] at h
      exact Or.inl ⟨rest, rfl, h.symm⟩
    | advance =>
      simp only [hin] at h
      exact Or.inr (Or.inr ⟨rest, Or.inr rfl, hseq { s with inputs := rest } h⟩)
    | packet p w =>
      cases p with
      | control =>
        simp only [hin] at h
        exact Or.inr (Or.inl ⟨.control, w, rest, rfl, by simp, hpkt w _ h⟩)
      | audio =>
        simp only [hin] at h
        by_cases hb : s.busy = true
        · simp only [if_pos hb] at h
          refine Or.inr (Or.inr ⟨.packet .audio w :: rest, Or.inl rfl, ?_⟩)
          have hs : ({ s with inputs := .packet .audio w :: rest } : State) = s := by rw [← hin]
          rw [hs]
          exact hseq s (by rw [if_pos hb]; exact h)
        · simp only [if_neg hb] at h
          exact Or.inr (Or.inl ⟨.audio, w, rest, rfl, fun _ => by simpa using hb, hpkt w _ h⟩)

end Sys2Proof.Machine
end

