-- ==== Sys2Proof/Laws/Draws.lean ====
section
/-! SUPPORT. No two events share a draw (10_state.md R28; log 5, log 7): the numbers in use stay below the counter, which an
event that draws takes and moves past. -/

namespace Sys2Proof.Machine

/-- The draws that unwritten words show have been made. -/
def State.drawsOk (s : State) : Prop := s.bufEpoch < s.draws ∧ s.wbufEpoch < s.draws

theorem reset_drawsOk : State.reset.drawsOk := by
  constructor <;> decide

/-- An instruction never takes the counter back, and an epoch that it sets is the number the counter had. -/
theorem exec_draws (i : Instr) (s t : State) (h : exec i s = .next t) :
    (t.draws = s.draws ∨ t.draws = s.draws + 1) ∧
    (t.bufEpoch = s.bufEpoch ∨ (t.bufEpoch = s.draws ∧ t.draws = s.draws + 1)) ∧
    (t.wbufEpoch = s.wbufEpoch ∨ (t.wbufEpoch = s.draws ∧ t.draws = s.draws + 1)) := by
  cases i <;>
    simp only [exec, execNop, execPrepare, execProcess, execRelease, execWrp, execRdp, execWrb, execRdb, execRds,
      execLatch, execClear, execCoef, execUp, execHpf, execMid, execDist, execLpf, execDown, execShapeWa, execShapeSa,
      execShapeBi, filterSample, nextSample, endLatch] at h
  all_goals (repeat' split at h)
  all_goals
    obtain rfl := Host.Outcome.next.inj h
    simp [raiseFault, raiseReadFault, respondDraw, respond, prepareStream, releaseStream, writeBuf, writeWbuf, writeWord,
      bypassExit, latchSlot, putShaped, distGate, enterPhase]

/-- Every step keeps the draws in use below the counter. -/
theorem step_drawsOk (s t : State) (hs : s.drawsOk) (h : step s = .next t) : t.drawsOk := by
  unfold State.drawsOk at *
  rcases step_cases s t h with ⟨r, _, rfl⟩ | ⟨p, w, r, _, _, ⟨i, _, hi⟩ | ⟨_, _, rfl⟩⟩ | ⟨r, _, ⟨_, rfl⟩ | ⟨_, i, _, hi⟩⟩
  · simp [hardReset]
  · have := exec_draws i _ _ hi
    simp only at this
    omega
  · exact hs
  · exact hs
  · have := exec_draws i _ _ hi
    simp only at this
    omega

end Sys2Proof.Machine
end

