-- ==== Sys2Proof/Laws/Encoding.lean ====
section
/-! SUPPORT. The fields of a packet as arithmetic, and that a packet made of fields that fit gives them back. -/

namespace Sys2Proof

theorem mkPacket_toNat (opc sel idx : Nat) (data : F) : (mkPacket opc sel idx data).toNat =
    (opc * 1152921504606846976 + sel * 72057594037927936 + idx * 4294967296 + data.toNat) %
      18446744073709551616 := by
  simp only [mkPacket, BitVec.toNat_ofNat]
  rfl

theorem pktOpc_toNat (w : Packet) : pktOpc w = w.toNat / 1152921504606846976 % 16 := by
  simp only [pktOpc, BitVec.extractLsb'_toNat, Nat.shiftRight_eq_div_pow]

theorem pktSel_toNat (w : Packet) : pktSel w = w.toNat / 72057594037927936 % 16 := by
  simp only [pktSel, BitVec.extractLsb'_toNat, Nat.shiftRight_eq_div_pow]

theorem pktIdx_toNat (w : Packet) : pktIdx w = w.toNat / 4294967296 % 16777216 := by
  simp only [pktIdx, BitVec.extractLsb'_toNat, Nat.shiftRight_eq_div_pow]

theorem pktData_toNat (w : Packet) : (pktData w).toNat = w.toNat % 4294967296 := by
  simp only [pktData, BitVec.extractLsb'_toNat, Nat.shiftRight_eq_div_pow]
  simp

theorem pktOpc_mkPacket (opc sel idx : Nat) (data : F) (ho : opc < 16) (hs : sel < 16) (hi : idx < 2 ^ 24) :
    pktOpc (mkPacket opc sel idx data) = opc := by
  have hd := data.isLt
  rw [pktOpc_toNat, mkPacket_toNat]
  omega

theorem pktSel_mkPacket (opc sel idx : Nat) (data : F) (hs : sel < 16) (hi : idx < 2 ^ 24) :
    pktSel (mkPacket opc sel idx data) = sel := by
  have hd := data.isLt
  rw [pktSel_toNat, mkPacket_toNat]
  omega

theorem pktIdx_mkPacket (opc sel idx : Nat) (data : F) (hi : idx < 2 ^ 24) :
    pktIdx (mkPacket opc sel idx data) = idx := by
  have hd := data.isLt
  rw [pktIdx_toNat, mkPacket_toNat]
  omega

theorem pktData_mkPacket (opc sel idx : Nat) (data : F) :
    pktData (mkPacket opc sel idx data) = data := by
  have hd := data.isLt
  apply BitVec.eq_of_toNat_eq
  rw [pktData_toNat, mkPacket_toNat]
  omega

theorem chanBit_lt (c : Chan) : chanBit c < 2 := by
  cases c <;> simp [chanBit]

theorem chanOfBit_chanBit (c : Chan) : chanOfBit (chanBit c) = c := by
  cases c <;> rfl

end Sys2Proof
end

