-- ==== Sys2Proof/Laws/Float.lean ====
section
/-! SUPPORT. First facts about the arithmetic of format `F`: signs and magnitudes, NaN results, zeros, values that need no
rounding, comparisons. -/

namespace Sys2Proof.Machine

theorem fmag_lt (x : F) : fmag x < 2 ^ 31 := Nat.mod_lt _ (by norm_num)

@[simp] theorem fmag_fpack (s : Bool) (m : Nat) (h : m < 2 ^ 31) : fmag (fpack s m) = m := by
  cases s <;> simp [fmag, fpack] <;> omega

@[simp] theorem fsign_fpack (s : Bool) (m : Nat) : fsign (fpack s m) = s := by
  cases s <;> simp [fsign, fpack] <;> omega

@[simp] theorem fpack_fsign_fmag (x : F) : fpack (fsign x) (fmag x) = x := by
  have hx := x.isLt
  apply BitVec.eq_of_toNat_eq
  by_cases h : 2 ^ 31 ≤ x.toNat
  · simp only [fpack, fsign, fmag, h, decide_true, if_true, BitVec.toNat_ofNat]
    omega
  · simp only [fpack, fsign, fmag, h, decide_false, Bool.false_eq_true, if_false, BitVec.toNat_ofNat]
    omega

/-- A word is its sign and its magnitude. -/
theorem word_ext (x y : F) (hs : fsign x = fsign y) (hm : fmag x = fmag y) : x = y := by
  rw [← fpack_fsign_fmag x, ← fpack_fsign_fmag y, hs, hm]

@[simp] theorem fmag_fneg (x : F) : fmag (fneg x) = fmag x := fmag_fpack _ _ (fmag_lt x)

@[simp] theorem fsign_fneg (x : F) : fsign (fneg x) = !fsign x := fsign_fpack _ _

@[simp] theorem fmag_fabs (x : F) : fmag (fabs x) = fmag x := fmag_fpack _ _ (fmag_lt x)

@[simp] theorem fsign_fabs (x : F) : fsign (fabs x) = false := fsign_fpack _ _

@[simp] theorem fneg_fneg (x : F) : fneg (fneg x) = x := by
  apply word_ext <;> simp

theorem isNaN_fneg (x : F) : isNaN (fneg x) = isNaN x := by simp [isNaN]

theorem isInf_fneg (x : F) : isInf (fneg x) = isInf x := by simp [isInf]

theorem isZero_fneg (x : F) : isZero (fneg x) = isZero x := by simp [isZero]

@[simp] theorem units_fneg (x : F) : units (fneg x) = units x := by simp [units]

@[simp] theorem signedUnits_fneg (x : F) : signedUnits (fneg x) = -signedUnits x := by
  simp only [signedUnits, fsign_fneg, units_fneg]
  cases fsign x <;> simp

/-- Every word is a NaN, an infinity or finite. -/
theorem word_trichotomy (x : F) : isNaN x = true ∨ isInf x = true ∨ isFinite x = true := by
  simp only [isNaN, isInf, isFinite, decide_eq_true_eq]
  omega

theorem not_isNaN_of_isFinite (x : F) (h : isFinite x = true) : isNaN x = false := by
  simp only [isNaN, isFinite, decide_eq_true_eq, decide_eq_false_iff_not] at *
  omega

theorem not_isInf_of_isFinite (x : F) (h : isFinite x = true) : isInf x = false := by
  simp only [isInf, isFinite, decide_eq_true_eq, decide_eq_false_iff_not] at *
  omega

theorem isFinite_of_isZero (x : F) (h : isZero x = true) : isFinite x = true := by
  simp only [isZero, isFinite, decide_eq_true_eq] at *
  omega

/-- A zero has no units, and nothing else has none. -/
theorem units_eq_zero_iff (x : F) : units x = 0 ↔ isZero x = true := by
  simp only [units, isZero, decide_eq_true_eq]
  by_cases h : fmag x / 2 ^ 23 = 0
  · rw [if_pos h]
    omega
  · rw [if_neg h]
    have : 0 < (2 ^ 23 + fmag x % 2 ^ 23) * 2 ^ (fmag x / 2 ^ 23 - 1) :=
      Nat.mul_pos (by omega) (Nat.two_pow_pos _)
    omega

/-- The result of an invalid operation is a NaN (R6), and every NaN is possible. -/
theorem isNaN_nanResult (op : FOp) (a b : F) : isNaN (nanResult op a b) = true := by
  have h := (Config.nanBits op a b).2.isLt
  have hm : fmag (nanResult op a b) = 0x7F800001 + (Config.nanBits op a b).2.val := fmag_fpack _ _ (by omega)
  exact decide_eq_true (by omega)

/-! ## Rounding -/

theorem roundMag_le (m k : Nat) : roundMag m k ≤ 0x7F800000 := Nat.min_le_right _ _

theorem roundMag_lt (m k : Nat) : roundMag m k < 2 ^ 31 :=
  lt_of_le_of_lt (roundMag_le m k) (by norm_num)

@[simp] theorem roundMag_zero (k : Nat) : roundMag 0 k = 0 := by
  simp [roundMag]

/-- Scaling by a power of two moves the top bit. -/
theorem log2_mul_two_pow (m n : Nat) (hm : m ≠ 0) : (m * 2 ^ n).log2 = m.log2 + n := by
  have hp : 0 < 2 ^ n := Nat.two_pow_pos n
  refine (Nat.log2_eq_iff (Nat.mul_ne_zero hm hp.ne')).2 ⟨?_, ?_⟩
  · rw [pow_add]
    exact Nat.mul_le_mul_right _ (Nat.log2_self_le hm)
  · rw [show m.log2 + n + 1 = (m.log2 + 1) + n by omega, pow_add _ _ n]
    exact Nat.mul_lt_mul_of_pos_right Nat.lt_log2_self hp

/-- The magnitude that a number of units rounds to does not depend on the scale it is given in. -/
theorem roundMag_scale (m k n : Nat) (hm : m ≠ 0) : roundMag (m * 2 ^ n) (k + n) = roundMag m k := by
  have hlog := log2_mul_two_pow m n hm
  have hj : (m * 2 ^ n).log2 - (k + n + 23) = m.log2 - (k + 23) := by omega
  simp only [roundMag, hj]
  generalize m.log2 - (k + 23) = j
  have hsh : j + (k + n) = (j + k) + n := by omega
  have hpos : 0 < 2 ^ n := Nat.two_pow_pos n
  rw [hsh, pow_add 2 (j + k) n, Nat.mul_div_mul_right _ _ hpos, Nat.mul_mod_mul_right]
  have h1 : (2 ^ (j + k) * 2 ^ n < 2 * (m % 2 ^ (j + k) * 2 ^ n)) ↔ (2 ^ (j + k) < 2 * (m % 2 ^ (j + k))) := by
    rw [← mul_assoc]
    exact Nat.mul_lt_mul_right hpos
  have h2 : (2 * (m % 2 ^ (j + k) * 2 ^ n) = 2 ^ (j + k) * 2 ^ n) ↔ (2 * (m % 2 ^ (j + k)) = 2 ^ (j + k)) := by
    rw [← mul_assoc]
    exact Nat.mul_left_inj hpos.ne'
  simp only [h1, h2]

/-- A finite word's own units round to the word. -/
theorem roundMag_units (x : F) (h : isFinite x = true) : roundMag (units x) 0 = fmag x := by
  simp only [isFinite, decide_eq_true_eq] at h
  have hdm := Nat.div_add_mod (fmag x) (2 ^ 23)
  have hr := Nat.mod_lt (fmag x) (show 0 < 2 ^ 23 by norm_num)
  simp only [units]
  generalize fmag x / 2 ^ 23 = e at *
  generalize fmag x % 2 ^ 23 = f at *
  by_cases he : e = 0
  · subst he
    have hlog : f.log2 - 23 = 0 := by
      rcases Nat.eq_zero_or_pos f with rfl | hf
      · rfl
      · have := (Nat.log2_lt hf.ne').2 hr
        omega
    have hf : f = fmag x := by omega
    simp [roundMag, hlog, Nat.mod_one, ← hf]
    omega
  · rw [if_neg he]
    have hm : 2 ^ 23 + f ≠ 0 := by omega
    have hlog0 : (2 ^ 23 + f).log2 = 23 := (Nat.log2_eq_iff hm).2 ⟨by omega, by omega⟩
    have hlog : ((2 ^ 23 + f) * 2 ^ (e - 1)).log2 = 23 + (e - 1) := by
      rw [log2_mul_two_pow _ _ hm, hlog0]
    have hj : 23 + (e - 1) - (0 + 23) = e - 1 := by omega
    have hpos : 0 < 2 ^ (e - 1) := Nat.two_pow_pos _
    simp only [roundMag, hlog, hj, Nat.add_zero, Nat.mul_div_cancel _ hpos, Nat.mul_mod_left]
    have : ¬ 2 ^ (e - 1) < 2 * 0 := by omega
    have h0 : ¬ (2 * 0 = 2 ^ (e - 1)) := by omega
    simp only [this, h0, decide_false, Bool.false_and, Bool.or_self, Bool.false_eq_true, if_false]
    omega

/-! ## Zeros -/

theorem isZero_fpack_zero (s : Bool) : isZero (fpack s 0) = true := by
  simp [isZero]

/-- A product with a zero and a finite factor is a zero. -/
theorem isZero_fmul_right (a b : F) (ha : isFinite a = true) (hb : isZero b = true) : isZero (fmul a b) = true := by
  have hbf := isFinite_of_isZero b hb
  simp [fmul, not_isNaN_of_isFinite a ha, not_isNaN_of_isFinite b hbf, not_isInf_of_isFinite a ha,
    not_isInf_of_isFinite b hbf, (units_eq_zero_iff b).2 hb, isZero_fpack_zero]

/-- A product with a zero and a finite factor is a zero. -/
theorem isZero_fmul_left (a b : F) (ha : isZero a = true) (hb : isFinite b = true) : isZero (fmul a b) = true := by
  have haf := isFinite_of_isZero a ha
  simp [fmul, not_isNaN_of_isFinite a haf, not_isNaN_of_isFinite b hb, not_isInf_of_isFinite a haf,
    not_isInf_of_isFinite b hb, (units_eq_zero_iff a).2 ha, isZero_fpack_zero]

/-- A zero has no signed units. -/
theorem signedUnits_of_isZero (x : F) (h : isZero x = true) : signedUnits x = 0 := by
  simp [signedUnits, (units_eq_zero_iff x).2 h]

/-- A sum of zeros is a zero. -/
theorem isZero_fadd (a b : F) (ha : isZero a = true) (hb : isZero b = true) : isZero (fadd a b) = true := by
  have haf := isFinite_of_isZero a ha
  have hbf := isFinite_of_isZero b hb
  simp [fadd, not_isNaN_of_isFinite a haf, not_isNaN_of_isFinite b hbf, not_isInf_of_isFinite a haf,
    not_isInf_of_isFinite b hbf, signedUnits_of_isZero a ha, signedUnits_of_isZero b hb, isZero_fpack_zero]

/-- With a finite first operand `fsub` is the sum with the second operand negated. -/
theorem fsub_of_finite (a b : F) (ha : isFinite a = true) (hb : isNaN b = false) : fsub a b = fadd a (fneg b) := by
  simp [fsub, not_isNaN_of_isFinite a ha, not_isInf_of_isFinite a ha, hb]

/-- A difference of zeros is a zero. -/
theorem isZero_fsub (a b : F) (ha : isZero a = true) (hb : isZero b = true) : isZero (fsub a b) = true := by
  rw [fsub_of_finite a b (isFinite_of_isZero a ha) (not_isNaN_of_isFinite b (isFinite_of_isZero b hb))]
  exact isZero_fadd a (fneg b) ha (by rwa [isZero_fneg])

/-! ## Comparisons -/

theorem flt_irrefl (x : F) : flt x x = false := by
  simp [flt]

theorem flt_nan_left (x y : F) (h : isNaN x = true) : flt x y = false := by
  simp [flt, h]

theorem flt_nan_right (x y : F) (h : isNaN y = true) : flt x y = false := by
  simp [flt, h]

/-- A clamped value is not below the lower bound, if that bound is no NaN and not above the other. -/
theorem clamp_not_below (x lo hi : F) (h : flt hi lo = false) : flt (clamp x lo hi) lo = false := by
  unfold clamp
  split
  · exact flt_irrefl lo
  · split
    · exact h
    · simp_all

/-- A clamped value is not above the upper bound, if the other bound is not above it. -/
theorem clamp_not_above (x lo hi : F) (h : flt hi lo = false) : fgt (clamp x lo hi) hi = false := by
  unfold clamp
  split
  · exact h
  · split
    · exact flt_irrefl hi
    · simp_all

/-- Multiplying a finite word by 1.0 gives it back. -/
theorem fmul_one (x : F) (h : isFinite x = true) : fmul 0x3F800000#32 x = x := by
  have h1 := not_isNaN_of_isFinite x h
  have h2 := not_isInf_of_isFinite x h
  have u1 : units 0x3F800000#32 = 2^149 := by decide
  have n1 : isNaN 0x3F800000#32 = false := by decide
  have i1 : isInf 0x3F800000#32 = false := by decide
  have s1 : fsign 0x3F800000#32 = false := by decide
  simp only [fmul, h1, h2, n1, i1, s1, u1, Bool.or_false, Bool.false_eq_true, if_false]
  by_cases hz : units x = 0
  · have : isZero x = true := (units_eq_zero_iff x).1 hz
    have hm : fmag x = 0 := by simpa [isZero] using this
    rw [hz]; simp only [Nat.mul_zero, roundMag_zero]
    conv_rhs => rw [← fpack_fsign_fmag x, hm]
    cases fsign x <;> rfl
  · have := roundMag_scale (units x) 0 149 hz
    rw [Nat.mul_comm, show (149:Nat) = 0 + 149 from rfl, this, roundMag_units x h]
    cases hs : fsign x <;> simp <;> rw [← hs, fpack_fsign_fmag]

/-- Adding +0 to a finite word gives it back, but for -0, which gives +0. -/
theorem fadd_zero (x : F) (h : isFinite x = true) :
    fadd x 0x00000000#32 = if x = 0x80000000#32 then 0x00000000#32 else x := by
  have h1 := not_isNaN_of_isFinite x h
  have h2 := not_isInf_of_isFinite x h
  have s1 : signedUnits 0x00000000#32 = 0 := by decide
  have n1 : isNaN 0x00000000#32 = false := by decide
  have i1 : isInf 0x00000000#32 = false := by decide
  have g1 : fsign 0x00000000#32 = false := by decide
  simp only [fadd, h1, h2, n1, i1, s1, g1, Bool.or_false, Bool.false_eq_true, if_false, Int.add_zero, Bool.and_false]
  by_cases hz : signedUnits x = 0
  · have hu : units x = 0 := by unfold signedUnits at hz; split at hz <;> omega
    have : isZero x = true := (units_eq_zero_iff x).1 hu
    have hm : fmag x = 0 := by simpa [isZero] using this
    rw [if_pos hz]
    split
    · rfl
    · rename_i hne
      cases hs : fsign x
      · conv_rhs => rw [← fpack_fsign_fmag x, hm, hs]
      · exfalso; apply hne; rw [← fpack_fsign_fmag x, hm, hs]; rfl
  · rw [if_neg hz]
    have : x ≠ 0x80000000#32 := by rintro rfl; exact hz (by decide)
    rw [if_neg this]
    have e : (signedUnits x).natAbs = units x := by unfold signedUnits; split <;> simp
    rw [e, roundMag_units x h]
    have : decide (signedUnits x < 0) = fsign x := by
      unfold signedUnits at *; cases hs : fsign x <;> simp [hs] at * <;> omega
    rw [this, fpack_fsign_fmag]

/-- A finite word less itself is +0. -/
theorem fsub_self (p : F) (h : isFinite p = true) : fsub p p = 0x00000000#32 := by
  have h1 := not_isNaN_of_isFinite p h
  have h2 := not_isInf_of_isFinite p h
  simp only [fsub_of_finite p p h h1, h1, Bool.or_false, Bool.false_eq_true, if_false, fadd, isNaN_fneg, isInf_fneg, h2,
    signedUnits_fneg, Int.add_right_neg, fsign_fneg]
  cases fsign p <;> rfl

/-- A finite product with a finite factor has a finite other factor. -/
theorem isFinite_of_fmul (a x : F) (hx : isFinite x = true) (h : isFinite (fmul a x) = true) : isFinite a = true := by
  have hx1 := not_isNaN_of_isFinite x hx
  have hx2 := not_isInf_of_isFinite x hx
  rcases word_trichotomy a with ha | ha | ha
  · exfalso
    have : isNaN (fmul a x) = true := by simp only [fmul, ha]; simpa using isNaN_nanResult _ _ _
    rw [not_isNaN_of_isFinite _ h] at this; cases this
  · exfalso
    by_cases hn : isNaN a = true
    · have : isNaN (fmul a x) = true := by simp only [fmul, hn]; simpa using isNaN_nanResult _ _ _
      rw [not_isNaN_of_isFinite _ h] at this; cases this
    · simp only [fmul, hx1, ha] at h
      simp [hn] at h
      split at h
      · have : isNaN (nanResult .mul a x) = true := isNaN_nanResult _ _ _
        rw [not_isNaN_of_isFinite _ h] at this; cases this
      · have : isInf (fpack (fsign a != fsign x) 2139095040) = true := by cases (fsign a != fsign x) <;> decide
        rw [not_isInf_of_isFinite _ h] at this; cases this
  · exact ha

end Sys2Proof.Machine
end

