-- ==== Sys2Proof/Laws/Num.lean ====
section
/-! SUPPORT. What is known of the open parameters and functions: the bounds of `NBLK_MAX` and `K_NYQ` (10_state.md R27), and
the named properties of `NUM` that hold by the way its functions are built (00_scope.md R7). -/

namespace Sys2Proof

/-- PREPARE accepts some block size. -/
theorem Config.nblkMax_pos : 0 < Config.nblkMax := Nat.succ_pos _

/-- The largest block size is below `2^23` (30_encoding.md R64). -/
theorem Config.nblkMax_lt : Config.nblkMax < 2 ^ 23 := by
  have := Config.nblkMaxPred.isLt
  simp only [Config.nblkMax]
  omega

namespace Machine

/-- `K_NYQ` is a finite word above 0 and below 0.5. -/
theorem kNyq_between : fsign Config.kNyq = false ∧ 0 < fmag Config.kNyq ∧ fmag Config.kNyq < fmag f0_5 := by
  have h := Config.kNyqPred.isLt
  have hm : fmag Config.kNyq = Config.kNyqPred.val + 1 := fmag_fpack _ _ (by omega)
  have h5 : fmag f0_5 = 0x3F000000 := by decide
  exact ⟨fsign_fpack _ _, by omega, by omega⟩

theorem isNaN_kNyqDefault : isNaN Config.kNyqDefault = false := by decide

/-- The default of `K_NYQ` is one of its values. -/
theorem kNyqDefault_possible : ∃ p : Fin 0x3EFFFFFF, fpack false (p.val + 1) = Config.kNyqDefault :=
  ⟨⟨0x3EFAE147, by norm_num⟩, by decide⟩

/-- The bound of `withinUnit`. -/
theorem fmag_withinUnit (r : F) : fmag (withinUnit r) ≤ 0x3F800000 := by
  unfold withinUnit
  split
  · assumption
  · decide

theorem isFinite_of_fmag_le_one (x : F) (h : fmag x ≤ 0x3F800000) : isFinite x = true :=
  decide_eq_true (by omega)

/-- What `keepFinite` gives is finite. -/
theorem isFinite_keepFinite (r : F) : isFinite (keepFinite r) = true := by
  unfold keepFinite
  split
  · assumption
  · decide

/-- `NUM.P1`: a zero is its own value. -/
theorem oddWithinUnit_zero (raw : F → F) (x : F) (h : isZero x = true) : oddWithinUnit raw x = x := by
  simp [oddWithinUnit, isFinite_of_isZero x h, h]

/-- `NUM.P3`: at most 1 in magnitude on finite words. -/
theorem fmag_oddWithinUnit (raw : F → F) (x : F) (h : isFinite x = true) : fmag (oddWithinUnit raw x) ≤ 0x3F800000 := by
  simp only [oddWithinUnit, h, if_true]
  split
  · rename_i hz
    simp only [isZero, decide_eq_true_eq] at hz
    omega
  · split
    · rw [fmag_fneg]; exact fmag_withinUnit _
    · exact fmag_withinUnit _

theorem isFinite_fneg (x : F) : isFinite (fneg x) = isFinite x := by simp [isFinite]

theorem fabs_fneg (x : F) : fabs (fneg x) = fabs x := by
  simp [fabs]

/-- `NUM.P2`: odd on finite words. -/
theorem oddWithinUnit_fneg (raw : F → F) (x : F) (h : isFinite x = true) :
    oddWithinUnit raw (fneg x) = fneg (oddWithinUnit raw x) := by
  simp only [oddWithinUnit, isFinite_fneg, h, isZero_fneg, if_true, fsign_fneg, fabs_fneg]
  by_cases hz : isZero x = true
  · simp [hz]
  · cases hs : fsign x <;> simp [hz]

/-- `NUM.P3` and `NUM.P5` of `COS`. -/
theorem fmag_numCos (x : F) (h : isFinite x = true) : fmag (numCos x) ≤ 0x3F800000 := by
  simp only [numCos, h, if_true]
  exact fmag_withinUnit _

/-- `NUM.P1` of `TAN`. -/
theorem numTan_zero : numTan fZero = fZero := by simp [numTan]

/-- `NUM.P5` of `TAN`, and a little further: finite on the words from +0 to `tanDomainEnd`. -/
theorem isFinite_numTan (x : F) (hs : fsign x = false) (h : fmag x ≤ fmag tanDomainEnd) : isFinite (numTan x) = true := by
  unfold numTan
  split
  · decide
  · rw [if_pos (by simp [hs, h])]
    exact isFinite_keepFinite _

/-- The domain that `NUM.P5` names for `TAN`, which ends at `0.49*pi`, lies below `tanDomainEnd`. -/
theorem tan_domain_below : fmag (fmul Config.kNyqDefault fPi) < fmag tanDomainEnd := by decide +kernel

/-- `NUM.P7`. -/
theorem numPow10_zero : numPow10 fZero = f1 := by simp [numPow10]

/-- `NUM.P5` of `POW10`: finite on the words from 0 to 0.6. -/
theorem isFinite_numPow10 (x : F) (hs : fsign x = false) (h : fmag x ≤ fmag f0_6) : isFinite (numPow10 x) = true := by
  unfold numPow10
  split
  · decide
  · rw [if_pos (by simp [hs, h])]
    exact isFinite_keepFinite _

end Machine

end Sys2Proof
end

