-- ==== Sys2Proof/Laws/Rounding.lean ====
section
/-! SUPPORT. Rounding keeps order, and with it bounds on the magnitude of every basic operation (00_scope.md R6): a result
lies below (above) a finite word where the exact result does. -/

namespace Sys2Proof.Machine

/-- A larger magnitude is a larger number of units. -/
theorem units_mono (x y : F) (h : fmag x ≤ fmag y) : units x ≤ units y := by
  have hx := Nat.div_add_mod (fmag x) (2 ^ 23)
  have hy := Nat.div_add_mod (fmag y) (2 ^ 23)
  have hrx := Nat.mod_lt (fmag x) (show 0 < 2 ^ 23 by norm_num)
  have hry := Nat.mod_lt (fmag y) (show 0 < 2 ^ 23 by norm_num)
  simp only [units]
  generalize fmag x / 2 ^ 23 = e at *
  generalize fmag y / 2 ^ 23 = e' at *
  generalize fmag x % 2 ^ 23 = f at *
  generalize fmag y % 2 ^ 23 = f' at *
  rcases Nat.lt_trichotomy e e' with he | he | he
  · have he' : e' ≠ 0 := by omega
    rw [if_neg he']
    have hp : 2 ^ e ≤ 2 ^ (e' - 1) * 2 := by
      rw [← pow_succ]
      exact Nat.pow_le_pow_right (by norm_num) (by omega)
    by_cases h0 : e = 0
    · rw [if_pos h0]
      have : 1 ≤ 2 ^ (e' - 1) := Nat.one_le_two_pow
      nlinarith
    · rw [if_neg h0]
      have hp' : 2 ^ e = 2 ^ (e - 1) * 2 := by rw [← pow_succ, Nat.sub_add_cancel (by omega)]
      have h1 : 2 ^ (e - 1) * 2 ≤ 2 ^ (e' - 1) := by
        rw [← hp']
        exact Nat.pow_le_pow_right (by norm_num) (by omega)
      calc (2 ^ 23 + f) * 2 ^ (e - 1) ≤ 2 ^ 24 * 2 ^ (e - 1) := Nat.mul_le_mul_right _ (by omega)
        _ = 2 ^ 23 * (2 ^ (e - 1) * 2) := by ring
        _ ≤ 2 ^ 23 * 2 ^ (e' - 1) := Nat.mul_le_mul_left _ h1
        _ ≤ (2 ^ 23 + f') * 2 ^ (e' - 1) := Nat.mul_le_mul_right _ (by omega)
  · subst he
    split
    · omega
    · exact Nat.mul_le_mul_right _ (by omega)
  · omega

/-- A smaller number of units is a smaller magnitude. -/
theorem fmag_le_of_units (x y : F) (hx : isFinite x = true) (hy : isFinite y = true) (h : units x ≤ units y) :
    fmag x ≤ fmag y := by
  by_contra hlt
  have h1 := units_mono y x (by omega)
  have h2 : units x = units y := by omega
  rw [← roundMag_units x hx, ← roundMag_units y hy, h2] at hlt
  omega

/-- Rounding keeps the order of magnitudes. -/
theorem roundMag_mono (m m' k : Nat) (h : m ≤ m') : roundMag m k ≤ roundMag m' k := by
  rcases Nat.eq_zero_or_pos m with rfl | hm
  · simp
  simp only [roundMag]
  have hlog : m.log2 ≤ m'.log2 := (Nat.le_log2 (by omega)).2 (le_trans (Nat.log2_self_le (by omega)) h)
  apply min_le_min_right
  have hlo' : 2 ^ m'.log2 ≤ m' := Nat.log2_self_le (by omega)
  have hhi : m < 2 ^ (m.log2 + 1) := Nat.lt_log2_self
  rcases Nat.eq_or_lt_of_le (show m.log2 - (k + 23) ≤ m'.log2 - (k + 23) by omega) with hj | hj
  · rw [← hj]
    generalize m.log2 - (k + 23) = j
    generalize hD : 2 ^ (j + k) = D
    have hDpos : 0 < D := by rw [← hD]; exact Nat.two_pow_pos _
    have hq : m / D ≤ m' / D := Nat.div_le_div_right h
    have e := Nat.div_add_mod m D
    have e' := Nat.div_add_mod m' D
    generalize m / D = q at *
    generalize m' / D = q' at *
    generalize m % D = r at *
    generalize m' % D = r' at *
    rcases Nat.eq_or_lt_of_le hq with hqq | hqq
    · subst hqq
      have hr : r ≤ r' := by omega
      simp only [Bool.or_eq_true, Bool.and_eq_true, decide_eq_true_eq]
      split_ifs <;> omega
    · split_ifs <;> omega
  · generalize hjd : m.log2 - (k + 23) = j at *
    generalize hjd' : m'.log2 - (k + 23) = j' at *
    have h1 : m / 2 ^ (j + k) < 2 ^ 24 := by
      rw [Nat.div_lt_iff_lt_mul (Nat.two_pow_pos _), ← pow_add]
      exact lt_of_lt_of_le hhi (Nat.pow_le_pow_right (by norm_num) (by omega))
    have h2 : 2 ^ 23 ≤ m' / 2 ^ (j' + k) := by
      rw [Nat.le_div_iff_mul_le (Nat.two_pow_pos _), ← pow_add]
      exact le_trans (Nat.pow_le_pow_right (by norm_num) (by omega)) hlo'
    split_ifs <;> omega

/-- What rounds to at most a finite word: everything up to it. -/
theorem roundMag_le_word (m k : Nat) (w : F) (hw : isFinite w = true) (h : m ≤ units w * 2 ^ k) :
    roundMag m k ≤ fmag w := by
  refine le_trans (roundMag_mono _ _ k h) ?_
  by_cases h0 : units w = 0
  · simp [h0]
  · have := roundMag_scale (units w) 0 k h0
    rw [Nat.zero_add] at this
    rw [this, roundMag_units w hw]

/-- What rounds to at least a finite word: everything from it on. -/
theorem word_le_roundMag (m k : Nat) (w : F) (hw : isFinite w = true) (h : units w * 2 ^ k ≤ m) :
    fmag w ≤ roundMag m k := by
  refine le_trans ?_ (roundMag_mono _ _ k h)
  by_cases h0 : units w = 0
  · have : isZero w = true := (units_eq_zero_iff w).1 h0
    simp only [isZero, decide_eq_true_eq] at this
    omega
  · have := roundMag_scale (units w) 0 k h0
    rw [Nat.zero_add] at this
    rw [this, roundMag_units w hw]

/-- A word no larger than a finite one is finite. -/
theorem isFinite_of_le (x w : F) (hw : isFinite w = true) (h : fmag x ≤ fmag w) : isFinite x = true := by
  simp only [isFinite, decide_eq_true_eq] at *
  omega

theorem fmag_fpack_roundMag (s : Bool) (m k : Nat) : fmag (fpack s (roundMag m k)) = roundMag m k :=
  fmag_fpack _ _ (roundMag_lt _ _)

theorem natAbs_signedUnits (x : F) : (signedUnits x).natAbs = units x := by
  unfold signedUnits
  split <;> simp

/-- The magnitude of a sum is at most that of the magnitudes' sum. -/
theorem fmag_fadd_le (a b w : F) (ha : isFinite a = true) (hb : isFinite b = true) (hw : isFinite w = true)
    (h : units a + units b ≤ units w) : fmag (fadd a b) ≤ fmag w := by
  simp only [fadd, not_isNaN_of_isFinite a ha, not_isNaN_of_isFinite b hb, not_isInf_of_isFinite a ha,
    not_isInf_of_isFinite b hb, Bool.or_self, Bool.false_eq_true, if_false]
  split
  · rw [fmag_fpack _ _ (by norm_num)]
    omega
  · rw [fmag_fpack_roundMag]
    apply roundMag_le_word _ _ _ hw
    have := natAbs_signedUnits a
    have := natAbs_signedUnits b
    omega

/-- A sum that is not below a positive word in value is not below it in magnitude, and positive. -/
theorem word_le_fadd (a b w : F) (ha : isFinite a = true) (hb : isFinite b = true) (hw : isFinite w = true)
    (h0 : 0 < units w) (h : (units w : Int) ≤ signedUnits a + signedUnits b) :
    fsign (fadd a b) = false ∧ fmag w ≤ fmag (fadd a b) := by
  simp only [fadd, not_isNaN_of_isFinite a ha, not_isNaN_of_isFinite b hb, not_isInf_of_isFinite a ha,
    not_isInf_of_isFinite b hb, Bool.or_self, Bool.false_eq_true, if_false]
  rw [if_neg (by omega), fmag_fpack_roundMag, fsign_fpack]
  refine ⟨by simp; omega, word_le_roundMag _ _ _ hw ?_⟩
  omega

/-- The magnitude of a difference is at most that of the magnitudes' sum. -/
theorem fmag_fsub_le (a b w : F) (ha : isFinite a = true) (hb : isFinite b = true) (hw : isFinite w = true)
    (h : units a + units b ≤ units w) : fmag (fsub a b) ≤ fmag w := by
  rw [fsub_of_finite a b ha (not_isNaN_of_isFinite b hb)]
  exact fmag_fadd_le a (fneg b) w ha (by simpa [isFinite] using hb) hw (by simpa using h)

/-- A product of finite words is the rounded product. -/
theorem fmul_of_finite (a b : F) (ha : isFinite a = true) (hb : isFinite b = true) :
    fmul a b = fpack (fsign a != fsign b) (roundMag (units a * units b) 149) := by
  simp [fmul, not_isNaN_of_isFinite a ha, not_isNaN_of_isFinite b hb, not_isInf_of_isFinite a ha,
    not_isInf_of_isFinite b hb]

theorem fmag_fmul_le (a b w : F) (ha : isFinite a = true) (hb : isFinite b = true) (hw : isFinite w = true)
    (h : units a * units b ≤ units w * 2 ^ 149) : fmag (fmul a b) ≤ fmag w := by
  rw [fmul_of_finite a b ha hb, fmag_fpack_roundMag]
  exact roundMag_le_word _ _ _ hw h

theorem word_le_fmul (a b w : F) (ha : isFinite a = true) (hb : isFinite b = true) (hw : isFinite w = true)
    (h : units w * 2 ^ 149 ≤ units a * units b) : fmag w ≤ fmag (fmul a b) := by
  rw [fmul_of_finite a b ha hb, fmag_fpack_roundMag]
  exact word_le_roundMag _ _ _ hw h

/-- A quotient of finite words, the divisor no zero, is the rounded quotient. -/
theorem fdiv_of_finite (a b : F) (ha : isFinite a = true) (hb : isFinite b = true) (h0 : 0 < units b) :
    fdiv a b = fpack (fsign a != fsign b)
      (roundMag (2 * (units a * 2 ^ 151 / units b) + if units a * 2 ^ 151 % units b = 0 then 0 else 1) 3) := by
  have hz : isZero b = false := by
    rw [Bool.eq_false_iff]
    intro hz
    have := (units_eq_zero_iff b).2 hz
    omega
  simp [fdiv, not_isNaN_of_isFinite a ha, not_isNaN_of_isFinite b hb, not_isInf_of_isFinite a ha,
    not_isInf_of_isFinite b hb, hz]

theorem fmag_fdiv_le (a b w : F) (ha : isFinite a = true) (hb : isFinite b = true) (hw : isFinite w = true)
    (h0 : 0 < units b) (h : units a * 2 ^ 149 ≤ units w * units b) : fmag (fdiv a b) ≤ fmag w := by
  rw [fdiv_of_finite a b ha hb h0, fmag_fpack_roundMag]
  apply roundMag_le_word _ _ _ hw
  have e := Nat.div_add_mod (units a * 2 ^ 151) (units b)
  have hle : units a * 2 ^ 151 ≤ units b * (4 * units w) := by
    calc units a * 2 ^ 151 = units a * 2 ^ 149 * 4 := by ring
      _ ≤ units w * units b * 4 := Nat.mul_le_mul_right _ h
      _ = units b * (4 * units w) := by ring
  have hq : units a * 2 ^ 151 / units b ≤ 4 * units w := Nat.div_le_of_le_mul hle
  generalize units a * 2 ^ 151 / units b = q at *
  split
  · omega
  · rename_i hr
    rcases Nat.eq_or_lt_of_le hq with hq' | hq'
    · subst hq'
      omega
    · omega

theorem word_le_fdiv (a b w : F) (ha : isFinite a = true) (hb : isFinite b = true) (hw : isFinite w = true)
    (h0 : 0 < units b) (h : units w * units b ≤ units a * 2 ^ 149) : fmag w ≤ fmag (fdiv a b) := by
  rw [fdiv_of_finite a b ha hb h0, fmag_fpack_roundMag]
  apply word_le_roundMag _ _ _ hw
  have hq : 4 * units w ≤ units a * 2 ^ 151 / units b := by
    rw [Nat.le_div_iff_mul_le h0]
    calc 4 * units w * units b = units w * units b * 4 := by ring
      _ ≤ units a * 2 ^ 149 * 4 := Nat.mul_le_mul_right _ h
      _ = units a * 2 ^ 151 := by ring
  split <;> omega

/-- The integer root found bit by bit is the integer root. -/
theorem isqrtFrom_spec : ∀ (fuel n acc : Nat), acc * acc ≤ n → n < (acc + 2 ^ fuel) * (acc + 2 ^ fuel) →
    isqrtFrom fuel n acc * isqrtFrom fuel n acc ≤ n ∧ n < (isqrtFrom fuel n acc + 1) * (isqrtFrom fuel n acc + 1)
  | 0, n, acc, h1, h2 => ⟨h1, by simpa [isqrtFrom] using h2⟩
  | fuel + 1, n, acc, h1, h2 => by
    simp only [isqrtFrom]
    split
    · rename_i h
      exact isqrtFrom_spec fuel n _ h (by
        have : acc + 2 ^ fuel + 2 ^ fuel = acc + 2 ^ (fuel + 1) := by rw [pow_succ]; ring
        rwa [this])
    · rename_i h
      exact isqrtFrom_spec fuel n _ h1 (by omega)

/-- No finite word reaches `2^128`. -/
theorem units_lt (x : F) (h : isFinite x = true) : units x < 2 ^ 255 * 2 ^ 22 := by
  have hm : units x ≤ units 0x7F7FFFFF#32 := units_mono _ _ (by
    have : fmag 0x7F7FFFFF#32 = 0x7F7FFFFF := by decide
    simp only [isFinite, decide_eq_true_eq] at h
    omega)
  have : units 0x7F7FFFFF#32 < 2 ^ 255 * 2 ^ 22 := by decide
  omega

/-- The root of a positive finite word lies between the words between whose squares it lies. -/
theorem fmag_fsqrt_between (a lo hi : F) (ha : isFinite a = true) (hs : fsign a = false) (h0 : 0 < units a)
    (hlo : isFinite lo = true) (hhi : isFinite hi = true) (h1 : units lo * units lo ≤ units a * 2 ^ 149)
    (h2 : units a * 2 ^ 149 ≤ units hi * units hi) :
    fsign (fsqrt a) = false ∧ fmag lo ≤ fmag (fsqrt a) ∧ fmag (fsqrt a) ≤ fmag hi := by
  have hz : isZero a = false := by
    rw [Bool.eq_false_iff]
    intro hz
    have := (units_eq_zero_iff a).2 hz
    omega
  have hlt := units_lt a ha
  have hb : units a * 2 ^ 149 < (0 + 2 ^ 214) * (0 + 2 ^ 214) := by
    have h : (0 + 2 ^ 214) * (0 + 2 ^ 214) = 2 ^ 255 * 2 ^ 24 * 2 ^ 149 := by decide
    rw [h]
    exact Nat.mul_lt_mul_of_pos_right (by omega) (Nat.two_pow_pos _)
  obtain ⟨s1, s2⟩ := isqrtFrom_spec 214 (units a * 2 ^ 149) 0 (by omega) hb
  have e : fsqrt a = fpack false (roundMag (2 * isqrtFrom 214 (units a * 2 ^ 149) 0 +
      if isqrtFrom 214 (units a * 2 ^ 149) 0 * isqrtFrom 214 (units a * 2 ^ 149) 0 = units a * 2 ^ 149 then 0 else 1) 1) := by
    simp [fsqrt, not_isNaN_of_isFinite a ha, not_isInf_of_isFinite a ha, hz, hs]
  rw [e, fmag_fpack_roundMag, fsign_fpack]
  clear e hb hlt
  generalize isqrtFrom 214 (units a * 2 ^ 149) 0 = r at *
  generalize units a * 2 ^ 149 = n at *
  refine ⟨rfl, word_le_roundMag _ _ _ hlo ?_, roundMag_le_word _ _ _ hhi ?_⟩
  · have : units lo ≤ r := by
      by_contra hc
      have : (r + 1) * (r + 1) ≤ units lo * units lo := Nat.mul_le_mul (by omega) (by omega)
      omega
    split <;> omega
  · have hr : r ≤ units hi := by
      by_contra hc
      have : (units hi + 1) * (units hi + 1) ≤ r * r := Nat.mul_le_mul (by omega) (by omega)
      have : (units hi + 1) * (units hi + 1) = units hi * units hi + 2 * units hi + 1 := by ring
      omega
    split
    · omega
    · rename_i hne
      rcases Nat.eq_or_lt_of_le hr with h | h
      · subst h
        omega
      · omega

/-- The relative error of rounding up a number that is no smaller than `2^23` units: at most `2^-23`. -/
theorem units_roundMag_le (s : Bool) (m k : Nat) (h : 2 ^ (k + 23) ≤ m) :
    units (fpack s (roundMag m k)) * 2 ^ k * 2 ^ 23 ≤ m * (2 ^ 23 + 1) := by
  have hm : m ≠ 0 := by
    have := Nat.two_pow_pos (k + 23)
    omega
  have hlog : k + 23 ≤ m.log2 := (Nat.le_log2 hm).2 h
  obtain ⟨j, hj⟩ : ∃ j, m.log2 = j + k + 23 := ⟨m.log2 - (k + 23), by omega⟩
  have hlo : 2 ^ (j + k) * 2 ^ 23 ≤ m := by
    rw [← pow_add, ← hj]
    exact Nat.log2_self_le hm
  have hhi : m < 2 ^ (j + k) * 2 ^ 24 := by
    rw [← pow_add, show j + k + 24 = m.log2 + 1 by omega]
    exact Nat.lt_log2_self
  obtain ⟨q, hq1, hq2, hle, hr⟩ : ∃ q, 2 ^ 23 ≤ q ∧ q ≤ 2 ^ 24 ∧ q * 2 ^ (j + k) ≤ m + 2 ^ (j + k) ∧
      roundMag m k = min (j * 2 ^ 23 + q) 0x7F800000 := by
    have e := Nat.div_add_mod m (2 ^ (j + k))
    have hq1 : 2 ^ 23 ≤ m / 2 ^ (j + k) := by
      rw [Nat.le_div_iff_mul_le (Nat.two_pow_pos _)]
      rwa [Nat.mul_comm]
    have hq2 : m / 2 ^ (j + k) < 2 ^ 24 := by
      rw [Nat.div_lt_iff_lt_mul (Nat.two_pow_pos _)]
      rwa [Nat.mul_comm]
    simp only [roundMag, show m.log2 - (k + 23) = j by omega]
    generalize m / 2 ^ (j + k) = q at *
    generalize m % 2 ^ (j + k) = r at *
    refine ⟨_, ?_, ?_, ?_, rfl⟩
    · split <;> omega
    · split <;> omega
    · rw [← e]
      split <;> nlinarith [Nat.zero_le r]
  have hu : units (fpack s (roundMag m k)) ≤ q * 2 ^ j := by
    have hf := fmag_fpack_roundMag s m k
    simp only [units, hf]
    rw [hr]
    clear hf hr
    rcases Nat.le_total (j * 2 ^ 23 + q) 0x7F800000 with hc | hc
    · rw [Nat.min_eq_left hc]
      rcases Nat.eq_or_lt_of_le hq2 with h24 | h24
      · have e1 : (j * 2 ^ 23 + q) / 2 ^ 23 = j + 2 := by omega
        have e2 : (j * 2 ^ 23 + q) % 2 ^ 23 = 0 := by omega
        rw [e1, e2, if_neg (by omega), h24, show j + 2 - 1 = j + 1 by omega, pow_succ]
        apply le_of_eq
        ring
      · have e1 : (j * 2 ^ 23 + q) / 2 ^ 23 = j + 1 := by omega
        have e2 : (j * 2 ^ 23 + q) % 2 ^ 23 = q - 2 ^ 23 := by omega
        rw [e1, e2, if_neg (by omega), show 2 ^ 23 + (q - 2 ^ 23) = q by omega, Nat.add_sub_cancel]
    · rw [Nat.min_eq_right hc]
      have e1 : 0x7F800000 / 2 ^ 23 = 255 := by norm_num
      have e2 : 0x7F800000 % 2 ^ 23 = 0 := by norm_num
      rw [e1, e2, if_neg (by norm_num)]
      rcases Nat.lt_or_ge j 254 with h253 | h254
      · obtain rfl : j = 253 := by omega
        obtain rfl : q = 2 ^ 24 := by omega
        exact le_of_eq (by rw [Nat.add_zero, ← pow_add, ← pow_add])
      · exact Nat.mul_le_mul (by omega) (Nat.pow_le_pow_right (by norm_num) (by omega))
  have hp : 2 ^ (j + k) = 2 ^ j * 2 ^ k := pow_add _ _ _
  calc units (fpack s (roundMag m k)) * 2 ^ k * 2 ^ 23 ≤ q * 2 ^ j * 2 ^ k * 2 ^ 23 :=
        Nat.mul_le_mul_right _ (Nat.mul_le_mul_right _ hu)
    _ = q * 2 ^ (j + k) * 2 ^ 23 := by rw [hp]; ring
    _ ≤ (m + 2 ^ (j + k)) * 2 ^ 23 := Nat.mul_le_mul_right _ hle
    _ ≤ m * (2 ^ 23 + 1) := by nlinarith

end Sys2Proof.Machine
end

