-- ==== Sys2Proof/Laws/Finite.lean ====
section
/-! SUPPORT. The coefficients are finite (40_coefficients.md R87): from `NUM.P6`, with the default of `K_NYQ`, for every
sample rate from 1 to 2^24 Hz and every parameter in its range. Each intermediate result gets bounds on its magnitude, which are
words, so that one evaluation checks each of them. -/

namespace Sys2Proof.Machine

/-! ## Bounds of one operation from bounds of its operands -/

theorem mul_le {a b : F} (A B W : F)
    (h : (isFinite A && isFinite B && isFinite W && decide (units A * units B ≤ units W * 2 ^ 149)) = true)
    (ha : fmag a ≤ fmag A) (hb : fmag b ≤ fmag B) : fmag (fmul a b) ≤ fmag W := by
  simp only [Bool.and_eq_true, decide_eq_true_eq] at h
  exact fmag_fmul_le a b W (isFinite_of_le a A h.1.1.1 ha) (isFinite_of_le b B h.1.1.2 hb) h.1.2
    (le_trans (Nat.mul_le_mul (units_mono _ _ ha) (units_mono _ _ hb)) h.2)

theorem le_mul {a b : F} (A B W : F)
    (h : (isFinite W && decide (units W * 2 ^ 149 ≤ units A * units B)) = true) (hfa : isFinite a = true)
    (hfb : isFinite b = true) (ha : fmag A ≤ fmag a) (hb : fmag B ≤ fmag b) : fmag W ≤ fmag (fmul a b) := by
  simp only [Bool.and_eq_true, decide_eq_true_eq] at h
  exact word_le_fmul a b W hfa hfb h.1 (le_trans h.2 (Nat.mul_le_mul (units_mono _ _ ha) (units_mono _ _ hb)))

theorem add_le {a b : F} (A B W : F)
    (h : (isFinite A && isFinite B && isFinite W && decide (units A + units B ≤ units W)) = true)
    (ha : fmag a ≤ fmag A) (hb : fmag b ≤ fmag B) : fmag (fadd a b) ≤ fmag W := by
  simp only [Bool.and_eq_true, decide_eq_true_eq] at h
  exact fmag_fadd_le a b W (isFinite_of_le a A h.1.1.1 ha) (isFinite_of_le b B h.1.1.2 hb) h.1.2
    (le_trans (Nat.add_le_add (units_mono _ _ ha) (units_mono _ _ hb)) h.2)

theorem sub_le {a b : F} (A B W : F)
    (h : (isFinite A && isFinite B && isFinite W && decide (units A + units B ≤ units W)) = true)
    (ha : fmag a ≤ fmag A) (hb : fmag b ≤ fmag B) : fmag (fsub a b) ≤ fmag W := by
  simp only [Bool.and_eq_true, decide_eq_true_eq] at h
  exact fmag_fsub_le a b W (isFinite_of_le a A h.1.1.1 ha) (isFinite_of_le b B h.1.1.2 hb) h.1.2
    (le_trans (Nat.add_le_add (units_mono _ _ ha) (units_mono _ _ hb)) h.2)

theorem div_le {a b : F} (A B W : F)
    (h : (isFinite A && isFinite W && decide (0 < units B) && decide (units A * 2 ^ 149 ≤ units W * units B)) = true)
    (hfb : isFinite b = true) (ha : fmag a ≤ fmag A) (hb : fmag B ≤ fmag b) : fmag (fdiv a b) ≤ fmag W := by
  simp only [Bool.and_eq_true, decide_eq_true_eq] at h
  have hB := units_mono _ _ hb
  exact fmag_fdiv_le a b W (isFinite_of_le a A h.1.1.1 ha) hfb h.1.1.2 (by omega)
    (le_trans (Nat.mul_le_mul_right _ (units_mono _ _ ha)) (le_trans h.2 (Nat.mul_le_mul_left _ hB)))

theorem le_div {a b : F} (A B W : F)
    (h : (isFinite B && isFinite W && decide (units W * units B ≤ units A * 2 ^ 149)) = true)
    (hfa : isFinite a = true) (h0 : 0 < units b) (ha : fmag A ≤ fmag a) (hb : fmag b ≤ fmag B) :
    fmag W ≤ fmag (fdiv a b) := by
  simp only [Bool.and_eq_true, decide_eq_true_eq] at h
  exact word_le_fdiv a b W hfa (isFinite_of_le b B h.1.1 hb) h.1.2 h0
    (le_trans (Nat.mul_le_mul_left _ (units_mono _ _ hb)) (le_trans h.2 (Nat.mul_le_mul_right _ (units_mono _ _ ha))))

theorem fsign_fmul (a b : F) (ha : isFinite a = true) (hb : isFinite b = true) :
    fsign (fmul a b) = (fsign a != fsign b) := by
  rw [fmul_of_finite a b ha hb, fsign_fpack]

theorem fsign_fdiv (a b : F) (ha : isFinite a = true) (hb : isFinite b = true) (h0 : 0 < units b) :
    fsign (fdiv a b) = (fsign a != fsign b) := by
  rw [fdiv_of_finite a b ha hb h0, fsign_fpack]

theorem signedUnits_pos (x : F) (h : fsign x = false) : signedUnits x = units x := by simp [signedUnits, h]

/-- A word between two positive words by the comparisons of R9 is positive, with its magnitude between theirs. -/
theorem between_of_compare (x lo hi : F) (hn : isNaN x = false) (h1 : flt x lo = false) (h2 : fgt x hi = false)
    (hlo : (isFinite lo && isFinite hi && !fsign lo && !fsign hi && decide (0 < fmag lo)) = true) :
    fsign x = false ∧ fmag lo ≤ fmag x ∧ fmag x ≤ fmag hi := by
  simp only [Bool.and_eq_true, Bool.not_eq_true', decide_eq_true_eq] at hlo
  obtain ⟨⟨⟨⟨f1, f2⟩, s1⟩, s2⟩, p⟩ := hlo
  have n1 := not_isNaN_of_isFinite lo f1
  have n2 := not_isNaN_of_isFinite hi f2
  simp only [flt, fgt, orderKey, hn, n1, n2, s1, s2, Bool.not_false, Bool.true_and, decide_eq_false_iff_not] at h1 h2
  cases hs : fsign x <;> simp [hs] at h1 h2 ⊢ <;> omega

/-! ## The operand of TAN, SIN and COS -/

/-- The effective rate is between 1 and 2^25. -/
theorem coefRate_between (fs : F) (hs : fsign fs = false) (h1 : fmag f1 ≤ fmag fs) (h2 : fmag fs ≤ fmag 0x4B800000#32) :
    fsign (coefRate coefFsMult fs) = false ∧ fmag f1 ≤ fmag (coefRate coefFsMult fs) ∧
      fmag (coefRate coefFsMult fs) ≤ fmag 0x4C000000#32 := by
  have hf := isFinite_of_le fs _ (by decide) h2
  have hm : coefFsMult = f1 ∨ coefFsMult = f2 := by unfold coefFsMult; split; exacts [Or.inr rfl, Or.inl rfl]
  rw [coefRate]
  have hmf : isFinite coefFsMult = true := by rcases hm with h | h <;> (rw [h]; decide)
  have hms : fsign coefFsMult = false := by rcases hm with h | h <;> (rw [h]; decide)
  have hml : fmag f1 ≤ fmag coefFsMult := by rcases hm with h | h <;> simp [h, f1, f2, fmag]
  have hmh : fmag coefFsMult ≤ fmag f2 := by rcases hm with h | h <;> simp [h, f1, f2, fmag]
  refine ⟨by rw [fsign_fmul _ _ hf hmf, hs, hms]; rfl, ?_, ?_⟩
  · exact le_mul f1 f1 f1 (by decide) hf hmf h1 hml
  · exact mul_le 0x4B800000#32 f2 0x4C000000#32 (by decide) h2 hmh

/-- The clamped cutoff lies between `K_NYQ` and `K_NYQ * fse`, and is no larger than the cutoff. -/
theorem fclamp_between (fse f : F) (hs : fsign fse = false) (h1 : fmag f1 ≤ fmag fse)
    (h2 : fmag fse ≤ fmag 0x4C000000#32) (hfs : fsign f = false) (hf1 : fmag 0x42480000#32 ≤ fmag f)
    (hf2 : fmag f ≤ fmag 0x463B8000#32) :
    fsign (fclamp Config.kNyqDefault fse f) = false ∧
      fmag Config.kNyqDefault ≤ fmag (fclamp Config.kNyqDefault fse f) ∧
      fmag (fclamp Config.kNyqDefault fse f) ≤ fmag (fmul Config.kNyqDefault fse) ∧
      fmag (fclamp Config.kNyqDefault fse f) ≤ fmag 0x463B8000#32 := by
  have hff := isFinite_of_le fse _ (by decide) h2
  have hcf := isFinite_of_le f _ (by decide) hf2
  have hk : isFinite Config.kNyqDefault = true := by decide
  have hms : fsign (fmul Config.kNyqDefault fse) = false := by
    rw [fsign_fmul _ _ hk hff, hs]
    decide
  have hml : fmag Config.kNyqDefault ≤ fmag (fmul Config.kNyqDefault fse) :=
    le_mul Config.kNyqDefault f1 _ (by decide) hk hff (le_refl _) h1
  have hmh : fmag (fmul Config.kNyqDefault fse) ≤ fmag 0x4C000000#32 :=
    mul_le f1 0x4C000000#32 _ (by decide) (by decide) h2
  have hmf := isFinite_of_le _ _ (by decide) hmh
  have hkm : fmag Config.kNyqDefault ≤ fmag 0x42480000#32 := by decide
  have hgt : fgt f (fmul Config.kNyqDefault fse) = true ↔ fmag (fmul Config.kNyqDefault fse) < fmag f := by
    simp [fgt, flt, orderKey, hms, hfs, not_isNaN_of_isFinite _ hmf, not_isNaN_of_isFinite f hcf]
  simp only [fclamp]
  split
  · rename_i h
    rw [hgt] at h
    exact ⟨hms, hml, le_refl _, by omega⟩
  · rename_i h
    rw [hgt] at h
    exact ⟨hfs, by omega, by omega, hf2⟩

/-- The operand of TAN lies between 2^-25 and 1.54, which is below pi/2. -/
theorem tan_operand (fse f : F) (hs : fsign fse = false) (h1 : fmag f1 ≤ fmag fse) (h2 : fmag fse ≤ fmag 0x4C000000#32)
    (hfs : fsign f = false) (hf1 : fmag Config.kNyqDefault ≤ fmag f) (hf2 : fmag f ≤ fmag (fmul Config.kNyqDefault fse)) :
    fsign (fdiv (fmul fPi f) fse) = false ∧ fmag 0x33000000#32 ≤ fmag (fdiv (fmul fPi f) fse) ∧
      fmag (fdiv (fmul fPi f) fse) ≤ fmag 0x3FC51EB8#32 := by
  have hff := isFinite_of_le fse _ (by decide) h2
  have hpi : isFinite fPi = true := by decide
  have hk : isFinite Config.kNyqDefault = true := by decide
  have hmh : fmag (fmul Config.kNyqDefault fse) ≤ fmag 0x4C000000#32 :=
    mul_le f1 0x4C000000#32 _ (by decide) (by decide) h2
  have hcf : isFinite f = true := isFinite_of_le f _ (isFinite_of_le _ _ (by decide) hmh) hf2
  have hph : fmag (fmul fPi f) ≤ fmag 0x4E000000#32 :=
    mul_le 0x40800000#32 0x4C000000#32 _ (by decide) (by decide) (le_trans hf2 hmh)
  have hpl : fmag 0x3FC00000#32 ≤ fmag (fmul fPi f) :=
    le_mul fPi Config.kNyqDefault _ (by decide) hpi hcf (le_refl _) hf1
  have hpf := isFinite_of_le _ _ (by decide) hph
  have hu1 : units f1 ≤ units fse := units_mono _ _ h1
  have hu0 : 0 < units f1 := by decide
  have hps : fsign (fmul fPi f) = false := by
    rw [fsign_fmul _ _ hpi hcf, hfs]
    decide
  refine ⟨by rw [fsign_fdiv _ _ hpf hff (by omega), hps, hs]; rfl, ?_, ?_⟩
  · exact le_div 0x3FC00000#32 0x4C000000#32 _ (by decide) hpf (by omega) hpl h2
  · apply fmag_fdiv_le _ _ _ hpf hff (by decide) (by omega)
    have huf : units Config.kNyqDefault ≤ units f := units_mono _ _ hf1
    have hb1 : 2 ^ (149 + 23) ≤ units Config.kNyqDefault * units f1 := by decide
    have hb2 : 2 ^ (149 + 23) ≤ units fPi * units Config.kNyqDefault := by decide
    have e1 := units_roundMag_le (fsign Config.kNyqDefault != fsign fse) (units Config.kNyqDefault * units fse) 149
      (le_trans hb1 (Nat.mul_le_mul_left _ hu1))
    have e2 := units_roundMag_le (fsign fPi != fsign f) (units fPi * units f) 149
      (le_trans hb2 (Nat.mul_le_mul_left _ huf))
    rw [← fmul_of_finite _ _ hk hff] at e1
    rw [← fmul_of_finite _ _ hpi hcf] at e2
    have e3 : units f ≤ units (fmul Config.kNyqDefault fse) := units_mono _ _ hf2
    have e4 : units fPi * units Config.kNyqDefault * ((2 ^ 23 + 1) * (2 ^ 23 + 1)) ≤
        units 0x3FC51EB8#32 * (2 ^ 149 * 2 ^ 23 * 2 ^ 23) := by decide
    have hd : 0 < 2 ^ 149 * 2 ^ 23 * 2 ^ 23 := by decide
    generalize units (fmul fPi f) = p at *
    generalize units (fmul Config.kNyqDefault fse) = m at *
    generalize units fPi = u at *
    generalize units Config.kNyqDefault = k at *
    generalize units 0x3FC51EB8#32 = x at *
    generalize units f = v at *
    generalize units fse = w at *
    generalize (2 : Nat) ^ 149 = c at *
    generalize (2 : Nat) ^ 23 = d at *
    refine Nat.le_of_mul_le_mul_right (c := c * d * d) ?_ hd
    calc p * c * (c * d * d) = p * c * d * (c * d) := by ring
      _ ≤ u * v * (d + 1) * (c * d) := Nat.mul_le_mul_right _ e2
      _ ≤ u * m * (d + 1) * (c * d) := Nat.mul_le_mul_right _ (Nat.mul_le_mul_right _ (Nat.mul_le_mul_left _ e3))
      _ = u * (d + 1) * (m * c * d) := by ring
      _ ≤ u * (d + 1) * (k * w * (d + 1)) := Nat.mul_le_mul_left _ e1
      _ = u * k * ((d + 1) * (d + 1)) * w := by ring
      _ ≤ x * (c * d * d) * w := Nat.mul_le_mul_right _ e4
      _ = x * w * (c * d * d) := by ring

/-! ## TAN and POW10 by `NUM.P6` -/

/-- The value of a finite word rises with its place in the order of words. -/
theorem orderKey_le_of_signedUnits (x y : F) (hx : isFinite x = true) (hy : isFinite y = true)
    (h : signedUnits x ≤ signedUnits y) : orderKey x ≤ orderKey y := by
  have a1 := fmag_le_of_units x y hx hy
  have a2 := fmag_le_of_units y x hy hx
  have z1 : units x = 0 → fmag x = 0 := fun h => by simpa [isZero] using (units_eq_zero_iff x).1 h
  have z2 : units y = 0 → fmag y = 0 := fun h => by simpa [isZero] using (units_eq_zero_iff y).1 h
  simp only [signedUnits, orderKey] at *
  split_ifs at * <;> omega

/-- A word within one place of a real between two finite words is within one place of being between them. -/
theorem between_of_withinUlp (r lo hi : F) (v : ℝ) (hlo : isFinite lo = true) (hhi : isFinite hi = true)
    (h : withinUlp r v) (h1 : (signedUnits lo : ℝ) ≤ v * 2 ^ 149) (h2 : v * 2 ^ 149 ≤ signedUnits hi) :
    orderKey lo - 1 ≤ orderKey r ∧ orderKey r ≤ orderKey hi + 1 := by
  obtain ⟨_, y, ⟨_, hr⟩, hk⟩ := h
  have big : ∀ w : F, isFinite w = true → |(signedUnits w : ℝ)| < (2 ^ 25 - 1) * 2 ^ 252 := by
    intro w hw
    have hu := units_lt w hw
    have hmax : units w ≤ units 0x7F7FFFFF#32 := units_mono _ _ (by
      have : fmag 0x7F7FFFFF#32 = 0x7F7FFFFF := by decide
      simp only [isFinite, decide_eq_true_eq] at hw
      omega)
    have hc : units 0x7F7FFFFF#32 < (2 ^ 25 - 1) * 2 ^ 252 := by decide
    have hn : (units w : ℝ) < (2 ^ 25 - 1) * 2 ^ 252 := by
      have h3 : units w < (2 ^ 25 - 1) * 2 ^ 252 := lt_of_le_of_lt hmax hc
      have h4 : ((units w : ℕ) : ℝ) < (((2 ^ 25 - 1) * 2 ^ 252 : ℕ) : ℝ) := Nat.cast_lt.2 h3
      have h5 : (((2 ^ 25 - 1) * 2 ^ 252 : ℕ) : ℝ) = (2 ^ 25 - 1) * 2 ^ 252 := by push_cast; norm_num
      rwa [h5] at h4
    have e : |(signedUnits w : ℝ)| = units w := by
      rw [← natAbs_signedUnits w, Nat.cast_natAbs, Int.cast_abs]
    rw [e]
    exact hn
  have hv : |v * 2 ^ 149| < (2 ^ 25 - 1) * 2 ^ 252 := by
    have b1 := abs_lt.1 (big lo hlo)
    have b2 := abs_lt.1 (big hi hhi)
    exact abs_lt.2 ⟨by linarith [b1.1], by linarith [b2.2]⟩
  obtain ⟨hyf, hmin, _⟩ := hr hv
  have c1 : signedUnits lo ≤ signedUnits y := by
    by_contra hc
    have hc' : (signedUnits y : ℝ) < signedUnits lo := Int.cast_lt.2 (by omega)
    have := hmin lo hlo
    rw [abs_of_nonneg (by linarith), abs_of_nonneg (by linarith)] at this
    linarith
  have c2 : signedUnits y ≤ signedUnits hi := by
    by_contra hc
    have hc' : (signedUnits hi : ℝ) < signedUnits y := Int.cast_lt.2 (by omega)
    have := hmin hi hhi
    rw [abs_of_nonpos (by linarith), abs_of_nonpos (by linarith)] at this
    linarith
  have k1 := orderKey_le_of_signedUnits lo y hlo hyf c1
  have k2 := orderKey_le_of_signedUnits y hi hyf hhi c2
  have := abs_le.1 hk
  omega

/-- The value of a word between two positive words. -/
theorem realOf_between (x lo hi : F) (hs : fsign x = false) (h1 : fmag lo ≤ fmag x) (h2 : fmag x ≤ fmag hi) :
    (units lo : ℝ) / 2 ^ 149 ≤ realOf x ∧ realOf x ≤ (units hi : ℝ) / 2 ^ 149 := by
  have u1 : ((units lo : ℕ) : ℝ) ≤ units x := Nat.cast_le.2 (units_mono _ _ h1)
  have u2 : ((units x : ℕ) : ℝ) ≤ units hi := Nat.cast_le.2 (units_mono _ _ h2)
  have e : (signedUnits x : ℝ) = units x := by rw [signedUnits_pos x hs]; simp
  simp only [realOf, e]
  constructor <;> gcongr

/-- The real tangent of a number from 2^-25 to 1.54 lies between 2^-25 and 33. -/
theorem tan_between (v : ℝ) (h1 : 1 / 2 ^ 25 ≤ v) (h2 : v ≤ 1.5401) : 1 / 2 ^ 25 ≤ Real.tan v ∧ Real.tan v ≤ 33 := by
  have hpi := Real.pi_gt_d4
  have h0 : 0 < v := lt_of_lt_of_le (by positivity) h1
  refine ⟨le_trans h1 (Real.lt_tan h0 (by linarith)).le, ?_⟩
  have hd := Real.lt_tan (show 0 < Real.pi / 2 - v by linarith) (by linarith)
  rw [Real.tan_pi_div_two_sub] at hd
  have hg : (1 / 33 : ℝ) < (Real.tan v)⁻¹ := lt_trans (by linarith) hd
  have hp : 0 < Real.tan v := by
    by_contra hc
    have := inv_nonpos.2 (not_lt.1 hc)
    linarith
  rw [one_div, inv_lt_inv₀ (by norm_num) hp] at hg
  exact hg.le

/-- TAN on its operand (`tan_operand`). -/
theorem numTan_between (hP6 : NumP6) (x : F) (hs : fsign x = false) (h1 : fmag 0x33000000#32 ≤ fmag x)
    (h2 : fmag x ≤ fmag 0x3FC51EB8#32) :
    fsign (numTan x) = false ∧ fmag 0x32800000#32 ≤ fmag (numTan x) ∧ fmag (numTan x) ≤ fmag 0x42800000#32 := by
  have hx := isFinite_of_le x _ (by decide) h2
  obtain ⟨r1, r2⟩ := realOf_between x _ _ hs h1 h2
  have n1 : units 0x33000000#32 = 2 ^ 124 := by decide
  have n2 : units 0x3FC51EB8#32 * 10000 ≤ 15401 * 2 ^ 149 := by decide
  have n2' : (units 0x3FC51EB8#32 : ℝ) * 10000 ≤ 15401 * 2 ^ 149 := by exact_mod_cast n2
  have b1 : (1 : ℝ) / 2 ^ 25 ≤ realOf x := by
    refine le_trans (le_of_eq ?_) r1
    rw [n1]
    norm_num
  have b2 : realOf x ≤ 1.5401 := by
    refine le_trans r2 ?_
    rw [div_le_iff₀ (by positivity)]
    linarith
  obtain ⟨t1, t2⟩ := tan_between _ b1 b2
  have k := between_of_withinUlp (numTan x) 0x33000000#32 0x42040000#32 _ (by decide) (by decide) (hP6 x hx).2.2.2.1 (by
    have e : signedUnits 0x33000000#32 = 2 ^ 124 := by decide
    rw [e]
    push_cast
    linarith) (by
    have e : signedUnits 0x42040000#32 = 33 * 2 ^ 149 := by decide
    rw [e]
    push_cast
    linarith)
  have k1 : orderKey 0x33000000#32 = 0x33000000 := by decide
  have k2 : orderKey 0x42040000#32 = 0x42040000 := by decide
  have f1 : fmag 0x32800000#32 = 0x32800000 := by decide
  have f2 : fmag 0x42800000#32 = 0x42800000 := by decide
  rw [k1, k2] at k
  rw [f1, f2]
  unfold orderKey at k
  cases hsr : fsign (numTan x) <;> simp [hsr] at k ⊢ <;> omega

/-- POW10 on the operand of R85. -/
theorem numPow10_between (hP6 : NumP6) (x : F) (h1 : 0 ≤ signedUnits x) (h2 : fmag x ≤ fmag f0_6) :
    fsign (numPow10 x) = false ∧ fmag 0x3F7FFFFF#32 ≤ fmag (numPow10 x) ∧ fmag (numPow10 x) ≤ fmag 0x41800000#32 := by
  have hx := isFinite_of_le x _ (by decide) h2
  have r1 : 0 ≤ realOf x := div_nonneg (by exact_mod_cast h1) (by positivity)
  have r2 : realOf x ≤ 1 := by
    have hu := units_mono _ _ h2
    have hc : units f0_6 ≤ 2 ^ 149 := by decide
    have hn := natAbs_signedUnits x
    have hle : signedUnits x ≤ 2 ^ 149 := by omega
    have : (signedUnits x : ℝ) ≤ 2 ^ 149 := by exact_mod_cast hle
    rw [realOf, div_le_one (by positivity)]
    exact this
  have p1 : (1 : ℝ) ≤ 10 ^ realOf x := Real.one_le_rpow (by norm_num) r1
  have p2 : (10 : ℝ) ^ realOf x ≤ 10 := by
    calc (10 : ℝ) ^ realOf x ≤ 10 ^ (1 : ℝ) := Real.rpow_le_rpow_of_exponent_le (by norm_num) r2
      _ = 10 := Real.rpow_one 10
  have k := between_of_withinUlp (numPow10 x) f1 0x41200000#32 _ (by decide) (by decide) (hP6 x hx).2.2.2.2 (by
    have e : signedUnits f1 = 2 ^ 149 := by decide
    rw [e]
    push_cast
    linarith) (by
    have e : signedUnits 0x41200000#32 = 10 * 2 ^ 149 := by decide
    rw [e]
    push_cast
    linarith)
  have k1 : orderKey f1 = 0x3F800000 := by decide
  have k2 : orderKey 0x41200000#32 = 0x41200000 := by decide
  have f1 : fmag 0x3F7FFFFF#32 = 0x3F7FFFFF := by decide
  have f2 : fmag 0x41800000#32 = 0x41800000 := by decide
  rw [k1, k2] at k
  rw [f1, f2]
  unfold orderKey at k
  cases hsr : fsign (numPow10 x) <;> simp [hsr] at k ⊢ <;> omega

/-! ## The three bundles -/

/-- The five words of a bundle are finite. -/
def Biquad.finite (k : Biquad) : Prop :=
  isFinite k.b0 = true ∧ isFinite k.b1 = true ∧ isFinite k.b2 = true ∧ isFinite k.a1 = true ∧ isFinite k.a2 = true

/-- What R82 and R83 make of `n` is finite: `c1` is at most 1 since its divisor is at least 1. -/
theorem shelf_bounds (n iq : F) (hns : fsign n = false) (hn : fmag n ≤ fmag 0x4D000000#32) (hqs : fsign iq = false)
    (hq : fmag iq ≤ fmag f2) :
    fmag (fmul n n) ≤ fmag 0x5A800000#32 ∧ fmag (fmul iq n) ≤ fmag 0x4D800000#32 ∧
      fmag (fdiv f1 (fadd (fadd f1 (fmul iq n)) (fmul n n))) ≤ fmag f1 := by
  have hnf := isFinite_of_le n _ (by decide) hn
  have hqf := isFinite_of_le iq _ (by decide) hq
  have b1 : fmag (fmul n n) ≤ fmag 0x5A800000#32 := mul_le _ _ _ (by decide) hn hn
  have b2 : fmag (fmul iq n) ≤ fmag 0x4D800000#32 := mul_le _ _ _ (by decide) hq hn
  have f1' := isFinite_of_le _ _ (by decide) b1
  have f2' := isFinite_of_le _ _ (by decide) b2
  have s1 : fsign (fmul n n) = false := by rw [fsign_fmul _ _ hnf hnf]; simp
  have s2 : fsign (fmul iq n) = false := by rw [fsign_fmul _ _ hqf hnf, hns, hqs]; rfl
  have e0 : signedUnits f1 = 2 ^ 149 := by decide
  have e1 : units f1 = 2 ^ 149 := by decide
  have a1 := word_le_fadd f1 (fmul iq n) f1 (by decide) f2' (by decide) (by rw [e1]; norm_num) (by
    rw [signedUnits_pos _ s2, e0, e1]
    push_cast
    omega)
  have a2 : fmag (fadd f1 (fmul iq n)) ≤ fmag 0x4E000000#32 := add_le f1 _ _ (by decide) (le_refl _) b2
  have f3 := isFinite_of_le _ _ (by decide) a2
  have u3 := units_mono _ _ a1.2
  have a3 := word_le_fadd (fadd f1 (fmul iq n)) (fmul n n) f1 f3 f1' (by decide) (by rw [e1]; norm_num) (by
    rw [signedUnits_pos _ s1, signedUnits_pos _ a1.1]
    omega)
  have a4 : fmag (fadd (fadd f1 (fmul iq n)) (fmul n n)) ≤ fmag 0x5B000000#32 := add_le _ _ _ (by decide) a2 b1
  exact ⟨b1, b2, div_le f1 f1 f1 (by decide) (isFinite_of_le _ _ (by decide) a4) (le_refl _) a3.2⟩

/-- `COEF.HP` is finite (R87). -/
theorem coefHp_finite (tan : F → F) (k m fs freq : F)
    (h : let n := tan (fdiv (fmul fPi (fclamp k (coefRate m fs) freq)) (coefRate m fs))
      fsign n = false ∧ fmag n ≤ fmag 0x42800000#32) : (coefHp tan k m fs freq).finite := by
  simp only at h
  simp only [coefHp, Biquad.finite]
  generalize tan (fdiv (fmul fPi (fclamp k (coefRate m fs) freq)) (coefRate m fs)) = n at *
  have hn : fmag n ≤ fmag 0x4D000000#32 := le_trans h.2 (by decide)
  obtain ⟨b1, b2, b3⟩ := shelf_bounds n (fdiv f1 fQHp) h.1 hn (by decide) (by decide)
  generalize fmul n n = n2 at *
  generalize fmul (fdiv f1 fQHp) n = q at *
  generalize fdiv f1 (fadd (fadd f1 q) n2) = c at *
  refine ⟨isFinite_of_le _ f1 (by decide) b3, ?_, isFinite_of_le _ f1 (by decide) b3, ?_, ?_⟩
  · exact isFinite_of_le _ f2 (by decide) (mul_le f1 fNeg2 _ (by decide) b3 (le_refl _))
  · exact isFinite_of_le _ 0x5C800000#32 (by decide) (mul_le f2 0x5B800000#32 _ (by decide)
      (mul_le f1 f2 f2 (by decide) b3 (le_refl _)) (sub_le 0x5A800000#32 f1 _ (by decide) b1 (le_refl _)))
  · exact isFinite_of_le _ 0x5C800000#32 (by decide) (mul_le f1 0x5B800000#32 _ (by decide) b3
      (add_le 0x4E000000#32 0x5A800000#32 _ (by decide)
        (sub_le f1 0x4D800000#32 _ (by decide) (le_refl _) b2) b1))

/-- `COEF.LP` is finite (R87). -/
theorem coefLp_finite (tan : F → F) (k m fs freq : F)
    (h : let t := tan (fdiv (fmul fPi (fclamp k (coefRate m fs) freq)) (coefRate m fs))
      fsign t = false ∧ fmag 0x32800000#32 ≤ fmag t ∧ fmag t ≤ fmag 0x42800000#32) :
    (coefLp tan k m fs freq).finite := by
  simp only at h
  simp only [coefLp, Biquad.finite]
  generalize tan (fdiv (fmul fPi (fclamp k (coefRate m fs) freq)) (coefRate m fs)) = t at *
  have htf := isFinite_of_le t _ (by decide) h.2.2
  have ht0 : 0 < units t := lt_of_lt_of_le (by decide) (units_mono _ _ h.2.1)
  have hn : fmag (fdiv f1 t) ≤ fmag 0x4D000000#32 := div_le f1 0x32800000#32 _ (by decide) htf (le_refl _) h.2.1
  have hns : fsign (fdiv f1 t) = false := by
    rw [fsign_fdiv _ _ (by decide) htf ht0, h.1]
    decide
  obtain ⟨b1, b2, b3⟩ := shelf_bounds (fdiv f1 t) (fdiv f1 f0_7) hns hn (by decide) (by decide)
  generalize fdiv f1 t = n at *
  generalize fmul n n = n2 at *
  generalize fmul (fdiv f1 f0_7) n = q at *
  generalize fdiv f1 (fadd (fadd f1 q) n2) = c at *
  refine ⟨isFinite_of_le _ f1 (by decide) b3, ?_, isFinite_of_le _ f1 (by decide) b3, ?_, ?_⟩
  · exact isFinite_of_le _ f2 (by decide) (mul_le f1 f2 _ (by decide) b3 (le_refl _))
  · exact isFinite_of_le _ 0x5C800000#32 (by decide) (mul_le f2 0x5B800000#32 _ (by decide)
      (mul_le f1 f2 f2 (by decide) b3 (le_refl _)) (sub_le f1 0x5A800000#32 _ (by decide) (le_refl _) b1))
  · exact isFinite_of_le _ 0x5C800000#32 (by decide) (mul_le f1 0x5B800000#32 _ (by decide) b3
      (add_le 0x4E000000#32 0x5A800000#32 _ (by decide)
        (sub_le f1 0x4D800000#32 _ (by decide) (le_refl _) b2) b1))

/-- `COEF.MID` is finite (R87): the divisor `a0` is at least 1/4, since the sine is at most 1 and the gain at least 1 but
for one place. -/
theorem coefMid_finite (sin cos pow10 : F → F) (k m fs freq gain : F)
    (hsin : fmag (sin (fdiv (fmul (fmul f2 fPi) (fclamp k (coefRate m fs) freq)) (coefRate m fs))) ≤ fmag f1)
    (hcos : fmag (cos (fdiv (fmul (fmul f2 fPi) (fclamp k (coefRate m fs) freq)) (coefRate m fs))) ≤ fmag f1)
    (hpow : fsign (gainLinear pow10 gain) = false ∧ fmag 0x3F7FFFFF#32 ≤ fmag (gainLinear pow10 gain) ∧
      fmag (gainLinear pow10 gain) ≤ fmag 0x41800000#32) :
    (coefMid sin cos pow10 k m fs freq gain).finite := by
  simp only [coefMid, Biquad.finite]
  generalize sin (fdiv (fmul (fmul f2 fPi) (fclamp k (coefRate m fs) freq)) (coefRate m fs)) = sn at *
  generalize cos (fdiv (fmul (fmul f2 fPi) (fclamp k (coefRate m fs) freq)) (coefRate m fs)) = cs at *
  generalize gainLinear pow10 gain = g at *
  have hgf := isFinite_of_le g _ (by decide) hpow.2.2
  have hgu := units_mono _ _ hpow.2.1
  have hgU := units_mono _ _ hpow.2.2
  have hg0 : 0 < units g := lt_of_lt_of_le (by decide) hgu
  have hA := fmag_fsqrt_between g 0x3F7FFFFF#32 0x40800000#32 hgf hpow.1 hg0 (by decide) (by decide)
    (le_trans (by decide) (Nat.mul_le_mul_right _ hgu)) (le_trans (Nat.mul_le_mul_right _ hgU) (by decide))
  generalize fsqrt g = a at *
  have haf := isFinite_of_le a _ (by decide) hA.2.2
  have e2 : fmul f1 f2 = f2 := by decide +kernel
  rw [e2]
  have hal : fmag (fdiv sn f2) ≤ fmag f0_5 := div_le f1 f2 _ (by decide) (by decide) hsin (le_refl _)
  generalize fdiv sn f2 = al at *
  have hc2 : fmag (fmul fNeg2 cs) ≤ fmag f2 := mul_le fNeg2 f1 _ (by decide) (le_refl _) hcos
  have haA : fmag (fmul al a) ≤ fmag f2 := mul_le f0_5 0x40800000#32 _ (by decide) hal hA.2.2
  have hao : fmag (fdiv al a) ≤ fmag 0x3F400000#32 := div_le f0_5 0x3F7FFFFF#32 _ (by decide) haf hal hA.2.1
  generalize fmul fNeg2 cs = c2 at *
  generalize fmul al a = aA at *
  generalize fdiv al a = ao at *
  have hof := isFinite_of_le ao _ (by decide) hao
  have hou := units_mono _ _ hao
  have e0 : signedUnits f1 = 2 ^ 149 := by decide
  have e3 : units 0x3E800000#32 = 2 ^ 147 := by decide
  have e4 : units 0x3F400000#32 = 3 * 2 ^ 147 := by decide
  have ha0 := word_le_fadd f1 ao 0x3E800000#32 (by decide) hof (by decide) (by rw [e3]; norm_num) (by
    have := natAbs_signedUnits ao
    rw [e0, e3]
    push_cast
    rw [e4] at hou
    omega)
  have ha0' : fmag (fadd f1 ao) ≤ fmag f2 := add_le f1 0x3F400000#32 _ (by decide) (le_refl _) hao
  have hinv : fmag (fdiv f1 (fadd f1 ao)) ≤ fmag 0x40800000#32 :=
    div_le f1 0x3E800000#32 _ (by decide) (isFinite_of_le _ _ (by decide) ha0') (le_refl _) ha0.2
  generalize fdiv f1 (fadd f1 ao) = inv at *
  refine ⟨?_, ?_, ?_, ?_, ?_⟩ <;> refine isFinite_of_le _ 0x41800000#32 (by decide) ?_
  · exact mul_le 0x40800000#32 0x40800000#32 _ (by decide) (add_le f1 f2 _ (by decide) (le_refl _) haA) hinv
  · exact mul_le f2 0x40800000#32 _ (by decide) hc2 hinv
  · exact mul_le 0x40800000#32 0x40800000#32 _ (by decide) (sub_le f1 f2 _ (by decide) (le_refl _) haA) hinv
  · exact mul_le f2 0x40800000#32 _ (by decide) hc2 hinv
  · exact mul_le f2 0x40800000#32 _ (by decide)
      (sub_le f1 0x3F400000#32 _ (by decide) (le_refl _) hao) hinv

/-- A positive cutoff is not left open (U3). -/
theorem bundleOrDraw_of_pos (freq : F) (n : Nat) (r : Role) (b : Biquad) (hs : fsign freq = false)
    (h : fmag 0x42480000#32 ≤ fmag freq) (hf : isFinite freq = true) : bundleOrDraw freq n r b = b := by
  have hl : fmag 0x42480000#32 = 0x42480000 := by decide
  have hz : isNaN fZero = false ∧ fsign fZero = false ∧ fmag fZero = 0 := by decide
  simp only [bundleOrDraw, fgt, flt, orderKey, hs, hz, not_isNaN_of_isFinite freq hf]
  rw [if_pos]
  simp
  omega

/-- The operand of POW10 is no less than 0 and at most 0.6. -/
theorem pow10_operand (g : F) (hn : isNaN g = false) (h1 : flt g fZero = false) (h2 : fgt g 0x41400000#32 = false) :
    0 ≤ signedUnits (fdiv g f20) ∧ fmag (fdiv g f20) ≤ fmag f0_6 := by
  have hz : isNaN fZero = false ∧ fsign fZero = false ∧ fmag fZero = 0 := by decide
  have hw : isNaN 0x41400000#32 = false ∧ fsign 0x41400000#32 = false := by decide
  simp only [flt, fgt, orderKey, hn, hz, hw, Bool.not_false, Bool.true_and, decide_eq_false_iff_not] at h1 h2
  have hm : fmag g ≤ fmag 0x41400000#32 ∧ (fsign g = true → fmag g = 0) := by
    cases hs : fsign g <;> simp [hs] at h1 h2 ⊢ <;> omega
  have hgf := isFinite_of_le g _ (by decide) hm.1
  refine ⟨?_, div_le 0x41400000#32 f20 _ (by decide) (by decide) hm.1 (le_refl _)⟩
  cases hs : fsign g
  · have hsd : fsign (fdiv g f20) = false := by
      rw [fsign_fdiv _ _ hgf (by decide) (by decide), hs]
      decide
    rw [signedUnits_pos _ hsd]
    omega
  · have h0 : fmag (fdiv g f20) ≤ fmag fZero := div_le fZero f20 _ (by decide) (by decide)
      (by rw [hm.2 hs]; exact Nat.zero_le _) (le_refl _)
    have hu := units_mono _ _ h0
    have hu0 : units fZero = 0 := by decide
    have := natAbs_signedUnits (fdiv g f20)
    omega

/-- R87: all fifteen coefficients are finite, for every `FS` from 1 to 2^24 Hz and every latched parameter in its range, given
`NUM.P6` and the default of `K_NYQ`. (`NUM.P5` holds by the way the functions are built.) -/
theorem coef_finite (hP6 : NumP6) (hK : Config.kNyq = Config.kNyqDefault) (s : State) (hn : isNaN s.fs = false)
    (h1 : flt s.fs f1 = false) (h2 : fgt s.fs 0x4B800000#32 = false) (hl : s.l.inRange) :
    ∃ t, execCoef s = .next t ∧ t.co.hp.finite ∧ t.co.mid.finite ∧ t.co.lp.finite := by
  refine ⟨_, rfl, ?_⟩
  obtain ⟨a1, a2, a3⟩ := between_of_compare s.fs _ _ hn h1 h2 (by decide)
  obtain ⟨r1, r2, r3⟩ := coefRate_between s.fs a1 a2 a3
  have cut : ∀ f lo hi : F, isNaN f = false → flt f lo = false → fgt f hi = false →
      (isFinite lo && isFinite hi && !fsign lo && !fsign hi && decide (0 < fmag lo)) = true →
      fmag 0x42480000#32 ≤ fmag lo → fmag hi ≤ fmag 0x463B8000#32 →
      fsign f = false ∧ fmag 0x42480000#32 ≤ fmag f ∧ fmag f ≤ fmag 0x463B8000#32 := by
    intro f lo hi hn h1 h2 h3 h4 h5
    obtain ⟨b1, b2, b3⟩ := between_of_compare f lo hi hn h1 h2 h3
    exact ⟨b1, le_trans h4 b2, le_trans b3 h5⟩
  obtain ⟨p1, p2, p3⟩ := hl .highPassFreq
  obtain ⟨q1, q2, q3⟩ := hl .lowPassFreq
  obtain ⟨m1, m2, m3⟩ := hl .midFreq
  obtain ⟨g1, g2, g3⟩ := hl .midGain
  have P := cut s.l.highPassFreq _ _ p1 p2 p3 (by decide) (by decide) (by decide)
  have Q := cut s.l.lowPassFreq _ _ q1 q2 q3 (by decide) (by decide) (by decide)
  have M := cut s.l.midFreq _ _ m1 m2 m3 (by decide) (by decide) (by decide)
  have G := pow10_operand s.l.midGain g1 g2 g3
  have tanOf : ∀ f : F, fsign f = false ∧ fmag 0x42480000#32 ≤ fmag f ∧ fmag f ≤ fmag 0x463B8000#32 →
      let t := numTan (fdiv (fmul fPi (fclamp Config.kNyqDefault (coefRate coefFsMult s.fs) f)) (coefRate coefFsMult s.fs))
      fsign t = false ∧ fmag 0x32800000#32 ≤ fmag t ∧ fmag t ≤ fmag 0x42800000#32 := by
    intro f hf
    obtain ⟨c1, c2, c3, _⟩ := fclamp_between _ f r1 r2 r3 hf.1 hf.2.1 hf.2.2
    obtain ⟨x1, x2, x3⟩ := tan_operand _ _ r1 r2 r3 c1 c2 c3
    exact numTan_between hP6 _ x1 x2 x3
  have finFreq : ∀ f : F, fmag f ≤ fmag 0x463B8000#32 → isFinite f = true := fun f h => isFinite_of_le f _ (by decide) h
  have angle : isFinite (fdiv (fmul (fmul f2 fPi) (fclamp Config.kNyqDefault (coefRate coefFsMult s.fs) s.l.midFreq))
      (coefRate coefFsMult s.fs)) = true := by
    obtain ⟨_, _, _, c4⟩ := fclamp_between _ s.l.midFreq r1 r2 r3 M.1 M.2.1 M.2.2
    have w1 : fmag (fmul (fmul f2 fPi) (fclamp Config.kNyqDefault (coefRate coefFsMult s.fs) s.l.midFreq)) ≤
        fmag 0x4B000000#32 := mul_le (fmul f2 fPi) 0x463B8000#32 _ (by decide +kernel) (le_refl _) c4
    exact isFinite_of_le _ 0x4B000000#32 (by decide)
      (div_le 0x4B000000#32 f1 _ (by decide) (isFinite_of_le _ _ (by decide) r3) w1 r2)
  simp only [enterPhase, hK]
  rw [bundleOrDraw_of_pos _ _ _ _ P.1 P.2.1 (finFreq _ P.2.2), bundleOrDraw_of_pos _ _ _ _ M.1 M.2.1 (finFreq _ M.2.2),
    bundleOrDraw_of_pos _ _ _ _ Q.1 Q.2.1 (finFreq _ Q.2.2)]
  refine ⟨?_, ?_, ?_⟩
  · have t := tanOf _ P
    exact coefHp_finite _ _ _ _ _ ⟨t.1, t.2.2⟩
  · exact coefMid_finite _ _ _ _ _ _ _ _ (by
      have := fmag_oddWithinUnit Config.sinRaw _ angle
      have e : fmag f1 = 0x3F800000 := by decide
      rw [e]
      exact this) (by
      have := fmag_numCos _ angle
      have e : fmag f1 = 0x3F800000 := by decide
      rw [e]
      exact this) (numPow10_between hP6 _ G.1 G.2)
  · exact coefLp_finite _ _ _ _ _ (tanOf _ Q)

end Sys2Proof.Machine
end

