-- ==== Sys2Proof/Laws/PerInstr.lean ====
section
/-! SUPPORT. Statements made of every instruction, one lemma for each constructor. `FitsTable`: the encoder puts a
well-formed instruction into the format and under the opcode, phase code or type code of its row of
spec/opcode_table.json, whatever its operands. -/

namespace Sys2Proof.Laws

/-- The format of a code: `PKT`, `PH`, `TYPE`. -/
def codeFormat : Code → Nat
  | .pkt _ => 0
  | .ph _ => 1
  | .type _ => 2

/-- `OPC` of a packet, the code itself otherwise. -/
def codeKey : Code → Nat
  | .pkt w => pktOpc w
  | .ph c => c.toNat
  | .type c => c.toNat

/-- The format and the code of each row of spec/opcode_table.json (columns `format` and `match`). -/
def tableKey : Instr → Nat × Nat
  | .nop => (0, 0)
  | .prepare _ _ => (0, 1)
  | .process _ _ => (0, 2)
  | .release => (0, 3)
  | .wrp _ _ => (0, 4)
  | .rdp _ => (0, 5)
  | .wrb _ _ _ => (0, 6)
  | .rdb _ _ => (0, 7)
  | .rds => (0, 8)
  | .latch => (1, 1)
  | .clear => (1, 2)
  | .coef => (1, 3)
  | .up => (1, 4)
  | .hpf => (1, 5)
  | .mid => (1, 6)
  | .dist => (1, 7)
  | .lpf => (1, 8)
  | .down => (1, 9)
  | .shapeWa => (2, 0)
  | .shapeSa => (2, 1)
  | .shapeBi => (2, 2)

/-- What the family states of an instruction. -/
def FitsTable.Statement (i : Instr) : Prop :=
  i.wellFormed = true → (codeFormat (encode i), codeKey (encode i)) = tableKey i

theorem FitsTable.nop : FitsTable.Statement .nop := by
  intro _
  rfl

theorem FitsTable.prepare (n : Nat) (fs : F) : FitsTable.Statement (.prepare n fs) := by
  intro h
  simp only [Instr.wellFormed, decide_eq_true_eq] at h
  simp only [encode, codeFormat, codeKey, tableKey, Prod.mk.injEq, true_and]
  exact pktOpc_mkPacket 1 0 n fs (by omega) (by omega) (by omega)

theorem FitsTable.process (nout : Nat) (nin : Nat) : FitsTable.Statement (.process nout nin) := by
  intro h
  simp only [Instr.wellFormed, decide_eq_true_eq, Bool.and_eq_true] at h
  simp only [encode, codeFormat, codeKey, tableKey, Prod.mk.injEq, true_and]
  exact pktOpc_mkPacket 2 (nout * 4 + nin) 0 0#32 (by omega) (by omega) (by omega)

theorem FitsTable.release : FitsTable.Statement .release := by
  intro _
  rfl

theorem FitsTable.wrp (idx : Nat) (v : F) : FitsTable.Statement (.wrp idx v) := by
  intro h
  simp only [Instr.wellFormed, decide_eq_true_eq] at h
  simp only [encode, codeFormat, codeKey, tableKey, Prod.mk.injEq, true_and]
  exact pktOpc_mkPacket 4 idx 0 v (by omega) (by omega) (by omega)

theorem FitsTable.rdp (idx : Nat) : FitsTable.Statement (.rdp idx) := by
  intro h
  simp only [Instr.wellFormed, decide_eq_true_eq] at h
  simp only [encode, codeFormat, codeKey, tableKey, Prod.mk.injEq, true_and]
  exact pktOpc_mkPacket 5 idx 0 0#32 (by omega) (by omega) (by omega)

theorem FitsTable.wrb (c : Chan) (i : Nat) (v : F) : FitsTable.Statement (.wrb c i v) := by
  intro h
  have hc := chanBit_lt c
  simp only [Instr.wellFormed, decide_eq_true_eq] at h
  simp only [encode, codeFormat, codeKey, tableKey, Prod.mk.injEq, true_and]
  exact pktOpc_mkPacket 6 (chanBit c) i v (by omega) (by omega) (by omega)

theorem FitsTable.rdb (c : Chan) (i : Nat) : FitsTable.Statement (.rdb c i) := by
  intro h
  have hc := chanBit_lt c
  simp only [Instr.wellFormed, decide_eq_true_eq] at h
  simp only [encode, codeFormat, codeKey, tableKey, Prod.mk.injEq, true_and]
  exact pktOpc_mkPacket 7 (chanBit c) i 0#32 (by omega) (by omega) (by omega)

theorem FitsTable.rds : FitsTable.Statement .rds := by
  intro _
  rfl

theorem FitsTable.latch : FitsTable.Statement .latch := by
  intro _
  rfl

theorem FitsTable.clear : FitsTable.Statement .clear := by
  intro _
  rfl

theorem FitsTable.coef : FitsTable.Statement .coef := by
  intro _
  rfl

theorem FitsTable.up : FitsTable.Statement .up := by
  intro _
  rfl

theorem FitsTable.hpf : FitsTable.Statement .hpf := by
  intro _
  rfl

theorem FitsTable.mid : FitsTable.Statement .mid := by
  intro _
  rfl

theorem FitsTable.dist : FitsTable.Statement .dist := by
  intro _
  rfl

theorem FitsTable.lpf : FitsTable.Statement .lpf := by
  intro _
  rfl

theorem FitsTable.down : FitsTable.Statement .down := by
  intro _
  rfl

theorem FitsTable.shapeWa : FitsTable.Statement .shapeWa := by
  intro _
  rfl

theorem FitsTable.shapeSa : FitsTable.Statement .shapeSa := by
  intro _
  rfl

theorem FitsTable.shapeBi : FitsTable.Statement .shapeBi := by
  intro _
  rfl

end Sys2Proof.Laws
end

