-- ==== Sys2Proof/Laws/Sequencer.lean ====
section
/-! SUPPORT. What moving the sequencer on does, once: the position and nothing else (10_state.md R16). -/

namespace Sys2Proof.Machine

/-- Going on to the next sample is the movement that the statements speak of. -/
theorem nextSample_movedOn (s s' : State) (hi lim : Nat) (p : Phase) (hix : s'.ix = s.ix) (hch : s'.ch = s.ch)
    (hph : s'.ph = s.ph) (hb : s'.busy = s.busy) (hd : s'.dstage = s.dstage) (hp : p ≠ .clear) :
    movedOn s (nextSample s' hi lim p) hi lim p := by
  unfold movedOn nextSample
  refine ⟨fun a => ?_, fun a b => ?_, fun a b => ?_⟩
  · simp_all
  · rw [if_neg (by omega), if_pos (by rw [hch]; omega)]
    simp_all
  · rw [if_neg (by omega), if_neg (by rw [hch]; omega)]
    cases p <;> simp_all [enterPhase]

/-- Going on to the next sample writes the position and nothing else; `BUSY` only where the block ends. -/
theorem nextSample_frame (s : State) (hi lim : Nat) (p : Phase) :
    ∃ ph ch ix dstage busy, nextSample s hi lim p =
        { s with ph := ph, ch := ch, ix := ix, dstage := dstage, busy := busy } ∧
      (p ≠ .idle → busy = s.busy) := by
  unfold nextSample
  split
  · exact ⟨_, _, _, _, _, rfl, fun _ => rfl⟩
  · split
    · exact ⟨_, _, _, _, _, rfl, fun _ => rfl⟩
    · cases p <;> exact ⟨_, _, _, _, _, rfl, by simp⟩

/-- Entering a phase writes the position and nothing else; `BUSY` only where the block ends. -/
theorem enterPhase_frame (s : State) (p : Phase) :
    ∃ ph ch ix dstage busy, enterPhase s p =
        { s with ph := ph, ch := ch, ix := ix, dstage := dstage, busy := busy } ∧
      (p ≠ .idle → busy = s.busy) := by
  cases p <;> exact ⟨_, _, _, _, _, rfl, by simp⟩

end Sys2Proof.Machine
end

