-- ==== Sys2Proof/Tests/Slice0.lean ====
section
/-! SUPPORT. The model's own tests. Expected values are the spec's: words printed beside a rule, worked examples, tables.
Where a worked example uses a function of NUM, the test gives the formula that function's correctly rounded value. -/

namespace Sys2Proof.Tests

open Sys2Proof Sys2Proof.Machine

/-- The state an outcome gives, if it gives one. -/
def next? (o : Host.Outcome State Fault Refusal) : Option State :=
  match o with
  | .next s => some s
  | .fault _ => none
  | .refused _ => none

/-- A field of the state that an outcome gives. -/
def seen {α : Type} (o : Host.Outcome State Fault Refusal) (f : State → α) : Option α := (next? o).map f

/-- A prepared stream at 44100 Hz with blocks of 4 samples. -/
def ready : State := { State.reset with fs := 0x472C4400#32, nblk := 4, st := .prepared }

/-- A stereo block in flight in phase `p`. -/
def flying (p : Phase) : State := { ready with st := .processing, busy := true, ph := p, nin := 2, nout := 2 }

/-- The same, latched with the defaults. -/
def latched (p : Phase) : State := { flying p with l := Params.defaults }

/-- A block in flight in LATCH with some slots still to be read. -/
def latching (left : List Param) : State := { flying .latch with latchLeft := left }

/-! ## Well-formedness: each check refuses an ill-formed term -/

theorem test_wf_prepare : (Instr.prepare (2 ^ 24) 0#32).wellFormed = false := by decide
theorem test_wf_process_nout : (Instr.process 4 1).wellFormed = false := by decide
theorem test_wf_process_nin : (Instr.process 1 4).wellFormed = false := by decide
theorem test_wf_wrp : (Instr.wrp 16 0#32).wellFormed = false := by decide
theorem test_wf_rdp : (Instr.rdp 16).wellFormed = false := by decide
theorem test_wf_wrb : (Instr.wrb .c0 (2 ^ 24) 0#32).wellFormed = false := by decide
theorem test_wf_rdb : (Instr.rdb .c0 (2 ^ 24)).wellFormed = false := by decide

/-! ## Decoding, one word for every constructor (30_encoding.md R61, R62, R69, R70; R160 to R168 for the words) -/

theorem test_decode_nop : decode (.pkt 0x0000000000000000#64) = .ok .nop := by decide
theorem test_decode_prepare : decode (.pkt 0x10000200472C4400#64) = .ok (.prepare 512 0x472C4400#32) := by decide
theorem test_decode_process : decode (.pkt 0x2900000000000000#64) = .ok (.process 2 1) := by decide
theorem test_decode_release : decode (.pkt 0x3000000000000000#64) = .ok .release := by decide
theorem test_decode_wrp : decode (.pkt 0x490000003F800000#64) = .ok (.wrp 9 0x3F800000#32) := by decide
theorem test_decode_rdp : decode (.pkt 0x5200000000000000#64) = .ok (.rdp 2) := by decide
theorem test_decode_wrb : decode (.pkt 0x610000033F000000#64) = .ok (.wrb .c1 3 0x3F000000#32) := by decide
theorem test_decode_rdb : decode (.pkt 0x710001FF00000000#64) = .ok (.rdb .c1 511) := by decide
theorem test_decode_rds : decode (.pkt 0x8000000000000000#64) = .ok .rds := by decide
theorem test_decode_latch : decode (.ph 1#4) = .ok .latch := by decide
theorem test_decode_clear : decode (.ph 2#4) = .ok .clear := by decide
theorem test_decode_coef : decode (.ph 3#4) = .ok .coef := by decide
theorem test_decode_up : decode (.ph 4#4) = .ok .up := by decide
theorem test_decode_hpf : decode (.ph 5#4) = .ok .hpf := by decide
theorem test_decode_mid : decode (.ph 6#4) = .ok .mid := by decide
theorem test_decode_dist : decode (.ph 7#4) = .ok .dist := by decide
theorem test_decode_lpf : decode (.ph 8#4) = .ok .lpf := by decide
theorem test_decode_down : decode (.ph 9#4) = .ok .down := by decide
theorem test_decode_shape_wa : decode (.type 0#2) = .ok .shapeWa := by decide
theorem test_decode_shape_sa : decode (.type 1#2) = .ok .shapeSa := by decide
theorem test_decode_shape_bi : decode (.type 2#2) = .ok .shapeBi := by decide

/-- R73 (a): reserved opcodes and must-be-zero bits; R69, R70: codes that are no row. -/
theorem test_decode_rejects :
    decode (.pkt 0x9000000000000000#64) = .error (.reservedOpcode 9) ∧
    decode (.pkt 0x0000000000000001#64) = .error (.mustBeZero "NOP") ∧
    decode (.pkt 0x1100000147000000#64) = .error (.mustBeZero "PREPARE") ∧
    decode (.pkt 0x6200000000000000#64) = .error (.mustBeZero "WRB") ∧
    decode (.ph 0#4) = .error (.noPhase 0) ∧ decode (.ph 10#4) = .error (.noPhase 10) ∧
    decode (.type 3#2) = .error (.noType 3) := by decide

/-! ## Arithmetic (00_scope.md R6, R8, R9) -/

/-- R84: `fmul(2.0, PI)` is 0x40C90FDB; R123: `fsub(1.0, 0.8)` is 0x3E4CCCCC; R82: `1/Q_HP` is 0x3FB504F3. -/
theorem test_float_printed : fmul f2 fPi = 0x40C90FDB#32 ∧ fsub f1 0x3F4CCCCD#32 = 0x3E4CCCCC#32 ∧
    fdiv f1 fQHp = 0x3FB504F3#32 := by decide +kernel

/-- R84: the root of 0x3FFF64C2 is 0x3FB4CE08. -/
theorem test_float_sqrt : fsqrt 0x3FFF64C2#32 = 0x3FB4CE08#32 := by decide

/-- R6: overflow gives infinity, subnormal results are kept. -/
theorem test_float_ends : fadd 0x7F7FFFFF#32 0x7F7FFFFF#32 = 0x7F800000#32 ∧
    fmul 0x00800000#32 0x3F000000#32 = 0x00400000#32 := by decide

/-- IEEE 754, which R5 and R6 take over: signs of zero sums, and an infinity less a finite word. -/
theorem test_float_zeros : fsub 0x3F800000#32 0x3F800000#32 = 0x00000000#32 ∧
    fadd 0x80000000#32 0x80000000#32 = 0x80000000#32 ∧ fadd 0x80000000#32 0x00000000#32 = 0x00000000#32 ∧
    fsub 0x3F800000#32 0x7F800000#32 = 0xFF800000#32 ∧ fdiv 0xBF800000#32 0x00000000#32 = 0xFF800000#32 := by
  decide

/-- R9: `ROUND_HAZ(0.5) = 1`, `ROUND_HAZ(1.5) = 2`; -0 < +0 is false. -/
theorem test_float_compare : roundHaz 0x3F000000#32 = 1 ∧ roundHaz 0x3FC00000#32 = 2 ∧
    flt 0x80000000#32 0x00000000#32 = false := by decide

/-! ## Packets (44_port_commands.md) -/

/-- R161, worked example, in every build with `NBLK_MAX` of 512 or more (log 11). -/
theorem test_prepare (h : 512 ≤ Config.nblkMax) :
    seen (exec (.prepare 512 0x472C4400#32) State.reset) (fun s => (s.fs, s.nblk, s.st)) =
      some (0x472C4400#32, 512, .prepared) := by
  have hc : badConfig 512 0x472C4400#32 = false := by
    have h1 : isNaN 0x472C4400#32 = false := by decide
    have h2 : fgt 0x472C4400#32 fZero = true := by decide
    simp [badConfig, h1, h2, Nat.not_lt.2 h]
  simp [seen, next?, exec, execPrepare, hc, prepareStream, State.reset]

/-- R161: `fs = -0` is refused. -/
theorem test_prepare_refused : seen (exec (.prepare 512 0x80000000#32) State.reset) (fun s => (s.cause, s.st)) =
    some (.badConfig, .uninit) := by decide

/-- R162, R138. -/
theorem test_process : seen (exec (.process 2 1) ready) (fun s => (s.busy, s.ph, s.nin, s.nout, s.st)) =
    some (true, .latch, 1, 2, .processing) := by decide

/-- R183: `A: PROCESS 2, 1` in `UNINIT` raises `BAD_LAYOUT`. -/
theorem test_process_refused : seen (exec (.process 1 2) State.reset) (fun s => (s.fault, s.cause, s.busy)) =
    some (true, .badLayout, false) := by decide

/-- R163; R28: `BUF` is unchanged. -/
theorem test_release : seen (exec .release { ready with mem := [(1, 0x3F000000#32), (16777216, 0x3F000000#32)] })
    (fun s => (s.st, s.mem)) = some (.released, [(1, 0x3F000000#32)]) := by decide

/-- R164: `WRP lowPassFreq, 20000` stores 12000.0. -/
theorem test_wrp_above : seen (exec (.wrp 7 0x469C4000#32) { ready with port := .control }) (fun s => s.param.lowPassFreq) =
    some 0x463B8000#32 := by decide

/-- R164: `v = -0` is stored as `-0`. -/
theorem test_wrp_minus_zero : seen (exec (.wrp 0 0x80000000#32) { ready with port := .control }) (fun s => s.param.drive) =
    some 0x80000000#32 := by decide

/-- R165: after reset, `C: RDP blend` responds 0x3F4CCCCD. -/
theorem test_rdp : seen (exec (.rdp 2) { State.reset with port := .control }) (fun s => s.resp) =
    some [(.control, 0x3F4CCCCD#32)] := by decide

/-- R166, worked example, with R44: `BUF[1][3]` of a block of 4 is word 7. -/
theorem test_wrb : seen (exec (.wrb .c1 3 0x3F000000#32) ready) (fun s => s.mem) = some [(7, 0x3F000000#32)] := by decide

/-- R42: an index of `NBLK` is refused. -/
theorem test_wrb_refused : seen (exec (.wrb .c1 4 0x3F000000#32) ready) (fun s => (s.mem, s.cause)) = some ([], .badIndex) := by
  decide

/-- R167. -/
theorem test_rdb : seen (exec (.rdb .c1 3) { ready with mem := [(3, 0x3E800000#32), (7, 0x3F000000#32)] }) (fun s => s.resp) =
    some [(.audio, 0x3F000000#32)] := by decide

/-- R168: after reset RDS responds 0x00000000; after a PROCESS refused in `UNINIT`, 0x00000028. -/
theorem test_rds : seen (exec .rds State.reset) (fun s => s.resp) = some [(.audio, 0x00000000#32)] ∧
    seen (exec .rds { State.reset with fault := true, cause := .notPrepared }) (fun s => s.resp) =
      some [(.audio, 0x00000028#32)] := by decide

/-! ## Phases (40 to 43) -/

/-- R140, R164: a bypass value of 0.75 reads as true and ends the block. -/
theorem test_latch_bypass :
    seen (exec .latch { latching allParams with param := { Params.defaults with bypass := 0x3F400000#32 } })
      (fun s => (s.busy, s.ph, s.l.bypass)) = some (false, .idle, 0x3F400000#32) := by decide

/-- R139, R68: the last read, of `distortionType = 0.75`, gives `TYPE` 2 and goes on to CLEAR; below 0.25 the code is 0, at
0.25 and just below 0.75 it is 1. -/
theorem test_latch_last :
    seen (exec .latch { latching [.distortionType] with
      param := { Params.defaults with distortionType := 0x3F400000#32 } }) (fun s => (s.type, s.ph)) =
      some (.bi, .clear) ∧
    typeCode 0x3E7FFFFF#32 = .wa ∧ typeCode 0x3E800000#32 = .sa ∧ typeCode 0x3F3FFFFF#32 = .sa := by decide +kernel

/-- R141: a (1,2) block; the last sample of channel 1 ends the phase. -/
theorem test_clear : seen (exec .clear { flying .clear with nin := 1, ch := .c1, ix := 3 })
    (fun s => (s.mem, s.ph, s.ch, s.ix)) = some ([(7, 0x00000000#32)], .coef, .c0, 0) := by decide

/-- R82, worked example, with the printed `n`; R81: at 8000 Hz a cutoff of 12000 is clamped to 3920, one of 1000 is not. -/
theorem test_coef_hp : coefHp (fun _ => 0x3BE96FB8#32) 0x3EFAE148#32 f1 0x472C4400#32 0x42C80000#32 =
      ⟨0x3F7D6F11#32, 0xBFFD6F11#32, 0x3F7D6F11#32, 0xBFFD6BC7#32, 0x3F7AE4B8#32⟩ ∧
    fclamp 0x3EFAE148#32 0x45FA0000#32 0x463B8000#32 = 0x45750000#32 ∧
    fclamp 0x3EFAE148#32 0x45FA0000#32 0x447A0000#32 = 0x447A0000#32 := by
  decide +kernel

/-- R83 and R84, worked examples, with the correctly rounded tangent, sine, cosine and power. -/
theorem test_coef_lp_mid :
    coefLp (fun _ => 0x3EE938C4#32) 0x3EFAE148#32 f1 0x472C4400#32 0x45BB8000#32 =
      ⟨0x3DE4AE6E#32, 0x3E64AE6E#32, 0x3DE4AE6E#32, 0xBF5A5CAE#32, 0x3E9967CC#32⟩ ∧
    coefMid (fun _ => 0x3E1166F5#32) (fun _ => 0x3F7D67F4#32) (fun _ => 0x3FFF64C2#32) 0x3EFAE148#32 f1 0x472C4400#32
        0x447A0000#32 0x40C00000#32 =
      ⟨0x3F8618BE#32, 0xBFF14765#32, 0x3F5B4DD8#32, 0xBFF14765#32, 0x3F677F53#32⟩ := by decide +kernel

/-- R102, worked example with TESTCFG-A: the first and the second input sample (1.0, 0). -/
theorem test_up : upSample [0x3E000000#32] [0x3F000000#32] ⟨[0#32], [0#32], [], [], 0#32⟩ 0x3F800000#32 =
      (0x3E000000#32, 0x3F000000#32, ⟨[0x3F7C0000#32], [0x3F400000#32], [], [], 0#32⟩) ∧
    (upSample [0x3E000000#32] [0x3F000000#32] ⟨[0x3F7C0000#32], [0x3F400000#32], [], [], 0#32⟩ 0#32).1 = 0x3F7C0000#32 := by
  decide +kernel

/-- R103, worked example with TESTCFG-A: the first two output samples, 0x3C000000 and 0x3E7E0000. -/
theorem test_down :
    let m := downSample [0x3E000000#32] [0x3F000000#32] ⟨[], [], [0#32], [0#32], 0#32⟩ 0x3E000000#32 0x3F000000#32
    m.1 = 0x3C000000#32 ∧
      (downSample [0x3E000000#32] [0x3F000000#32] m.2 0x3F7C0000#32 0x3F400000#32).1 = 0x3E7E0000#32 := by decide +kernel

/-- The bundle of R135's exact worked example. -/
def exactBundle : Biquad := ⟨0x3F000000#32, 0x3E800000#32, 0x3E000000#32, 0xBF000000#32, 0x3E800000#32⟩

/-- R135, exact worked example, first step: input 1.0, output 0.5, state (0.5, 0). -/
theorem test_hpf : seen (exec .hpf { latched .hpf with
      co := ⟨exactBundle, Biquad.zero, Biquad.zero⟩, mem := [(16777216, 0x3F800000#32)] })
    (fun s => (s.mem, s.z.hp.c0, s.ix)) =
      some ([(16777216, 0x3F000000#32)], ⟨0x3F000000#32, 0x00000000#32⟩, 1) := by decide +kernel

/-- R135, second step: input 2.0 on state (0.5, 0), output 1.5, state (1.25, -0.125); the last sample goes on to DIST. -/
theorem test_mid : seen (exec .mid { latched .mid with
      co := ⟨Biquad.zero, exactBundle, Biquad.zero⟩, ch := .c1, ix := 7, mem := [(16777231, 0x40000000#32)]
      z := PerRole.set zeroZ .mid ⟨ZPair.zero, ⟨0x3F000000#32, 0x00000000#32⟩⟩ })
    (fun s => (s.mem, s.z.mid.c1, s.ph)) =
      some ([(16777231, 0x3FC00000#32)], ⟨0x3FA00000#32, 0xBE000000#32⟩, .dist) := by decide +kernel

/-- R135, third step: input 0 on state (1.25, -0.125), output 1.25, state (0.5, -0.3125). -/
theorem test_lpf : seen (exec .lpf { latched .lpf with
      co := ⟨Biquad.zero, Biquad.zero, exactBundle⟩, mem := [(16777216, 0x00000000#32)]
      z := PerRole.set zeroZ .lp ⟨⟨0x3FA00000#32, 0xBE000000#32⟩, ZPair.zero⟩ })
    (fun s => (s.mem, s.z.lp.c0)) =
      some ([(16777216, 0x3FA00000#32)], ⟨0x3F000000#32, 0xBEA00000#32⟩) := by decide +kernel

/-- R116, worked example: `clean = 0.005` gives `gate` 0x3DCCCCCD and `cg` 0x3A03126F; the literal itself is not below. -/
theorem test_dist_gate : seen (exec .dist { latched .dist with mem := [(16777216, 0x3BA3D70A#32)] }) (fun s => (s.gate, s.cg)) =
      some (0x3DCCCCCD#32, 0x3A03126F#32) ∧
    gateFactor 0x3C23D70A#32 = 0x3F800000#32 := by decide +kernel

/-- R123, worked example, Wa: `clean = 0.5`, `d1` = 0x3F662531, `out` = 0x3FC4EA8E. -/
theorem test_dist_mix : seen (exec .dist { latched .dist with
      dstage := .mix, gate := 0x3F800000#32, cg := 0x3F000000#32, d1 := 0x3F662531#32,
      mem := [(16777216, 0x3F000000#32)] }) (fun s => s.mem) = some [(16777216, 0x3FC4EA8E#32)] := by decide +kernel

/-- R119, worked example: `d0 = 2.5`, `drive = 0.5`, with `TANH(3.75)`. -/
theorem test_shape_wa : shapeWa (fun x => if x = 0x40700000#32 then 0x3F7FB78C#32 else 0#32) f0_5 0x40200000#32 =
    0x3F662531#32 := by decide +kernel

/-- R120, worked example: with `TANH(1.5)` the result is clamped to 0.9. -/
theorem test_shape_sa : shapeSa (fun x => if x = 0x3FC00000#32 then 0x3F67B7CC#32 else 0#32) f0_5 0x40200000#32 =
    0x3F666666#32 := by decide +kernel

/-- R121, worked example: `arg` = 0xBFBC7EDE, clamped to -0.9. -/
theorem test_shape_bi : shapeBi (fun x => if x = 0xBFBC7EDE#32 then 0xBF7EC46D#32 else 0#32) f0_5 0x40200000#32 =
    0xBF666666#32 := by decide +kernel

/-- R52: a packet on the audio port waits while a block is in flight; the sequencer moves. -/
theorem test_step_audio_waits : seen (step { flying .clear with inputs := [.packet .audio 0#64] })
    (fun s => (s.ph, s.inputs)) = some (.coef, [.packet .audio 0#64]) := by decide

/-! ## Witnesses: for each statement with hypotheses, states and operands that meet them, clause by clause -/

theorem witness_DecodeInvertsEncode :
    (Instr.prepare (2 ^ 24 - 1) 0#32).wellFormed = true ∧ (Instr.process 3 3).wellFormed = true ∧
    (Instr.wrp 15 0#32).wellFormed = true ∧ (Instr.wrb .c1 (2 ^ 24 - 1) 0#32).wellFormed = true ∧
    Instr.latch.wellFormed = true := by decide

theorem witness_EncodeInvertsDecode :
    decode (.pkt 0x2F00000000000000#64) = .ok (.process 3 3) ∧ decode (.ph 9#4) = .ok .down := by decide

theorem witness_OpcodeMapSelectsRow :
    (⟨7, 0x7000000000000000#64, 0xFE000000FFFFFFFF#64⟩ : OpcodeRow) ∈ opcodeMap ∧
    0x71FFFFFF00000000#64 &&& 0xFE000000FFFFFFFF#64 = 0x7000000000000000#64 ∧
    (∀ r ∈ opcodeMap, 0x7200000000000000#64 &&& r.mask ≠ r.pattern) ∧ 9 ≤ pktOpc 0x9000000000000000#64 := by decide

theorem witness_StepRunsDecodedPacket :
    decode (.pkt 0x8000000000000000#64) = .ok .rds ∧ ready.busy = false ∧ (flying .up).busy = true ∧
    ({ ready with inputs := [.packet .audio 0x8000000000000000#64] } : State).inputs =
      .packet .audio 0x8000000000000000#64 :: [] ∧
    ({ flying .up with inputs := [.packet .control 0x8000000000000000#64] } : State).inputs =
      .packet .control 0x8000000000000000#64 :: [] := by decide

theorem witness_StepRunsSequencerPosition :
    (flying .clear).busy = true ∧ decode (sequencerCode (flying .clear)) = .ok .clear ∧ (flying .clear).inputs = [] ∧
    ({ flying .clear with inputs := [.advance] } : State).inputs = .advance :: [] ∧
    ({ flying .clear with inputs := [.packet .audio 0#64] } : State).inputs = .packet .audio 0#64 :: [] ∧
    ready.busy = false ∧ ready.inputs = [] := by decide

theorem witness_SequencerPositionNamesItsRow :
    (flying .dist).ph = .dist ∧ (flying .dist).dstage ≠ .shape ∧ (flying .latch).ph = .latch ∧
    ({ flying .dist with dstage := .shape, type := .bi } : State).dstage = .shape ∧
    ({ flying .dist with dstage := .shape, type := .bi } : State).type = .bi := by decide

theorem witness_IllegalPacketFaults :
    (∀ r ∈ opcodeMap, 0xF000000000000000#64 &&& r.mask ≠ r.pattern) ∧
    ({ ready with inputs := [.packet .audio 0xF000000000000000#64] } : State).busy = false := by decide

theorem witness_ResetInputAtAnyTime : ({ flying .up with inputs := [.rst] } : State).inputs = .rst :: [] := by decide

/-- The smallest block size, the largest, and one above it. -/
theorem witness_PrepareStartsStream :
    ({ ready with port := .control } : State).port = .control ∧ ready.port = .audio ∧
    isNaN 0x7FC00000#32 = true ∧ flt 0x00000000#32 0x80000000#32 = false ∧ Config.nblkMax < Config.nblkMax + 1 ∧
    isNaN 0x00000001#32 = false ∧ flt 0x00000000#32 0x00000001#32 = true ∧ 0x00000001#32 ≠ 0x7F800000#32 ∧
    (1 : Nat) ≠ 0 ∧ 1 ≤ Config.nblkMax ∧ Config.nblkMax ≠ 0 ∧ Config.nblkMax ≤ Config.nblkMax :=
  ⟨rfl, rfl, by decide, by decide, Nat.lt_succ_self _, by decide, by decide, by decide, by decide, Config.nblkMax_pos,
    Config.nblkMax_pos.ne', Nat.le_refl _⟩

theorem witness_ProcessStartsBlock :
    ready.port = .audio ∧ (2, 1) ∉ [(1, 1), (1, 2), (2, 2)] ∧ (1, 2) ∈ [(1, 1), (1, 2), (2, 2)] ∧
    State.reset.st = .uninit ∧ ({ ready with st := .released } : State).st = .released ∧ ready.st = .prepared := by decide

theorem witness_ReleaseEndsStream :
    ready.port = .audio ∧ ready.st ≠ .uninit ∧ State.reset.port = .audio ∧ State.reset.st = .uninit := by decide

theorem witness_WrpStoresClampedValue :
    ready.port = .audio ∧ ({ ready with port := .control } : State).port = .control ∧ 9 < 10 ∧
    (⟨9, .bypass, 0x00000000#32, 0x3F800000#32, 0x00000000#32⟩ : ParamRow) ∈ parameterTable ∧ Param.drive ≠ .bypass := by
  decide

theorem witness_RdpAnswersSlot :
    9 < 15 ∧ (⟨0, .drive, 0x00000000#32, 0x40000000#32, 0x3F000000#32⟩ : ParamRow) ∈ parameterTable := by decide

theorem witness_WrbWritesBuffer :
    ({ ready with port := .control } : State).port = .control ∧ ready.port = .audio ∧ ready.nblk ≤ 4 ∧
    ready.st ≠ .uninit ∧ 3 < ready.nblk ∧ State.reset.st = .uninit := by decide

theorem witness_RdbAnswersBuffer :
    ({ ready with port := .control } : State).port = .control ∧ ready.port = .audio ∧ ready.nblk ≤ 4 ∧
    ready.st ≠ .uninit ∧ 3 < ready.nblk ∧ State.reset.st = .uninit := by decide

theorem witness_BufferReadsAfterWrite :
    ready.port = .audio ∧ ready.st ≠ .uninit ∧ 0 < ready.nblk ∧ 3 < ready.nblk := by decide

theorem witness_BufferAddressesAreDistinct :
    Config.nblkMax - 1 < Config.nblkMax ∧ Config.nblkMax ≤ Config.nblkMax ∧
    2 * Config.nblkMax - 1 < 2 * Config.nblkMax ∧
    bufAddr Config.nblkMax .c1 (Config.nblkMax - 1) = bufAddr Config.nblkMax .c1 (Config.nblkMax - 1) := by
  have := Config.nblkMax_pos
  exact ⟨by omega, Nat.le_refl _, by omega, rfl⟩

/-- A packet on the control port while a block is in flight: a WRP. -/
def writing : State := { flying .up with inputs := [.packet .control 0x400000003F800000#64] }

/-- Under FAULT; a control packet that faults and one that does not, in a block; audio packets on the free port. -/
theorem witness_FirstCauseKept :
    (∃ t, step { writing with fault := true, cause := .port } = .next t) ∧
    writing.fault = false ∧ seen (step { writing with inputs := [.packet .control 0xF000000000000000#64] })
      (fun t => (t.fault, t.cause)) = some (true, .illegalCmd) ∧
    packetCause writing .control 0xF000000000000000#64 = .illegalCmd ∧
    packetCause writing .control 0x400000003F800000#64 = .none ∧
    packetCause writing .control 0x2F00000000000000#64 = .port ∧
    packetCause State.reset .audio 0x2600000000000000#64 = .badLayout ∧
    packetCause State.reset .audio 0x2500000000000000#64 = .notPrepared ∧
    packetCause ready .audio 0x5A00000000000000#64 = .badIndex ∧
    packetCause ready .audio 0x7000000400000000#64 = .badIndex ∧
    packetCause ready .audio 0x7000000300000000#64 = .none ∧
    packetCause ready .audio 0x10000000472C4400#64 = .badConfig ∧ ready.busy = false := by
  refine ⟨⟨_, rfl⟩, by decide, by decide, by decide, by decide, by decide, by decide, by decide, by decide, by decide,
    by decide, ?_, by decide⟩
  decide

theorem witness_BlockRaisesNothing :
    Instr.shapeBi ∈ [Instr.latch, .clear, .coef, .up, .hpf, .mid, .dist, .lpf, .down, .shapeWa, .shapeSa, .shapeBi] := by
  decide

theorem witness_LatchedParametersHold :
    Instr.down ∈ [Instr.clear, .coef, .up, .hpf, .mid, .dist, .lpf, .down, .shapeWa, .shapeSa, .shapeBi] := by decide

theorem witness_ControlPortReachesOnlyParameters :
    writing.inputs = .packet .control 0x400000003F800000#64 :: [] ∧ (next? (step writing)).isSome = true := by
  decide

theorem witness_OnlyWrpWritesParameters :
    seen (step writing) (fun t => t.param.drive) = some 0x3F800000#32 ∧ writing.param.drive = 0x3F000000#32 ∧
    seen (step { writing with inputs := [.rst] }) (fun t => t.st) = some .uninit := by decide

theorem witness_LatchReadsEachSlotOnce :
    Param.bypass ∈ (latching allParams).latchLeft ∧ fgt 0x3F000001#32 0x3F000000#32 = true ∧
    fgt 0x3F000000#32 0x3F000000#32 = false ∧ isNaN 0x7FC00000#32 = true ∧
    Param.bypass ∉ (latching [.drive, .range]).latchLeft ∧ 2 ≤ (latching [.drive, .range]).latchLeft.length ∧
    Param.drive ≠ .bypass ∧ (latching [.drive]).latchLeft = [.drive] := by decide

/-- A PROCESS packet on the audio port of a prepared stream with bypass on. -/
def bypassing : State :=
  { ready with inputs := [.packet .audio 0x2A00000000000000#64], param := { Params.defaults with bypass := 0x3F800000#32 } }

theorem witness_BypassedBlockIsIdentity :
    decode (.pkt 0x2A00000000000000#64) = .ok (.process 2 2) ∧ bypassing.busy = false ∧
    (2, 2) ∈ [(1, 1), (1, 2), (2, 2)] ∧ bypassing.st = .prepared ∧
    bypassing.inputs = [.packet .audio 0x2A00000000000000#64] ∧ fgt bypassing.param.bypass 0x3F000000#32 = true := by
  decide

theorem witness_LatchPhaseCopiesBank :
    (latching allParams).busy = true ∧ (latching allParams).ph = .latch ∧ (latching allParams).inputs = [] ∧
    fgt (latching allParams).param.bypass 0x3F000000#32 = false ∧
    (latching allParams).latchLeft.Perm [.drive, .range, .blend, .volume, .midFreq, .midGain, .highPassFreq, .lowPassFreq,
      .distortionType, .bypass] := by decide

theorem witness_TypeCodeThresholds :
    isNaN 0x7FC00000#32 = true ∧
    (isNaN 0x3E7FFFFF#32 = false ∧ flt 0x3E7FFFFF#32 0x3E800000#32 = true) ∧
    (isNaN 0x3E800000#32 = false ∧ flt 0x3E800000#32 0x3E800000#32 = false ∧ flt 0x3E800000#32 0x3F400000#32 = true) ∧
    (isNaN 0x3F400000#32 = false ∧ flt 0x3F400000#32 0x3F400000#32 = false) := by decide

theorem witness_ClearSilencesExtraChannel :
    (let s := { flying .clear with nin := 1, ch := .c1, ix := 3 }
     s.nin ≤ chanIndex s.ch ∧ chanIndex s.ch < s.nout ∧ s.ix < s.nblk) ∧
    (flying .clear).nout ≤ (flying .clear).nin := by decide

/-- WRP drive and WRP bypass; the slot among several left, the only one left, bypass left, and the slot already read. -/
theorem witness_LatchReadAgainstWrite :
    (⟨0, .drive, 0x00000000#32, 0x40000000#32, 0x3F000000#32⟩ : ParamRow) ∈ parameterTable ∧ Param.drive ≠ .bypass ∧
    (⟨9, .bypass, 0x00000000#32, 0x3F800000#32, 0x00000000#32⟩ : ParamRow) ∈ parameterTable ∧
    decode (.pkt 0x400000003F800000#64) = .ok (.wrp 0 0x3F800000#32) ∧
    decode (.pkt 0x490000003F800000#64) = .ok (.wrp 9 0x3F800000#32) ∧
    isNaN 0x3F800000#32 = false ∧ flt 0x3F800000#32 0x00000000#32 = false ∧ fgt 0x3F800000#32 0x40000000#32 = false ∧
    fgt 0x3F800000#32 0x3F800000#32 = false ∧
    (∀ left ∈ [allParams, [.drive], [.range, .drive], [.range]],
      (latching left).busy = true ∧ (latching left).ph = .latch ∧ (latching left).latchLeft.Nodup ∧
      fgt (latching left).param.bypass 0x3F000000#32 = false) ∧
    Param.drive ∈ allParams ∧ Param.bypass ∈ allParams ∧ Param.drive ∈ (latching [.range, .drive]).latchLeft ∧
    (latching [.drive]).latchLeft = [.drive] ∧
    Param.drive ∉ (latching [.range]).latchLeft ∧ Param.bypass ∉ (latching [.range]).latchLeft ∧
    Param.range ∈ (latching [.range]).latchLeft ∧ Param.range ≠ .bypass := by decide

theorem witness_PhaseWithoutSampleMovesOn :
    (let s := { flying .hpf with nin := 1, ch := .c1 }
     s.nin ≤ chanIndex s.ch) ∧
    ({ flying .up with ix := 4 } : State).nblk ≤ 4 ∧ (latching []).latchLeft = [] ∧
    chanIndex (flying .clear).ch < (flying .clear).nin := by decide

theorem witness_CoefHighPassFormula : fgt (latched .coef).l.highPassFreq 0x00000000#32 = true := by decide
theorem witness_CoefLowPassFormula : fgt (latched .coef).l.lowPassFreq 0x00000000#32 = true := by decide
theorem witness_CoefMidFormula : fgt (latched .coef).l.midFreq 0x00000000#32 = true := by decide

theorem witness_CoefIsPure :
    fgt (latched .coef).l.highPassFreq 0x00000000#32 = true ∧ fgt (latched .coef).l.midFreq 0x00000000#32 = true ∧
    fgt (latched .coef).l.lowPassFreq 0x00000000#32 = true := by decide

theorem witness_AllpassCascade :
    flt 0xBF800000#32 0x3F7FFFFF#32 = true ∧ flt 0x3F7FFFFF#32 0x3F800000#32 = true ∧
    flt 0xBF800000#32 0xBF800000#32 = false := by decide

/-- The last sample of the last channel of UP, with silence in the buffer. -/
def lastUp : State := { flying .up with ch := .c1, ix := 3, mem := [(7, 0x80000000#32)] }

theorem witness_UpWritesWidePair : chanIndex lastUp.ch < lastUp.nin ∧ lastUp.ix < lastUp.nblk := by decide

theorem witness_DownWritesOutput :
    chanIndex (flying .down).ch < (flying .down).nin ∧ (flying .down).ix < (flying .down).nblk := by decide

/-- DOWN with silence in the wide buffer. -/
def silentDown : State := { flying .down with mem := [(16777216, 0x00000000#32), (16777217, 0x80000000#32)] }

theorem witness_SilenceThroughOversampler :
    (chanIndex lastUp.ch < lastUp.nin ∧ lastUp.ix < lastUp.nblk ∧ (lastUp.os.get lastUp.ch).silent ∧
      isZero (readWord lastUp (bufAddr lastUp.nblk lastUp.ch lastUp.ix)) = true) ∧
    (chanIndex silentDown.ch < silentDown.nin ∧ silentDown.ix < silentDown.nblk ∧
      (silentDown.os.get silentDown.ch).silent ∧
      isZero (readWord silentDown (wbufAddr silentDown.nblk silentDown.ch (2 * silentDown.ix))) = true ∧
      isZero (readWord silentDown (wbufAddr silentDown.nblk silentDown.ch (2 * silentDown.ix + 1))) = true) := by
  have h : OsMem.zero.silent := by
    refine ⟨?_, ?_, ?_, ?_, by decide⟩ <;>
      (intro x hx; rw [List.eq_of_mem_replicate hx]; decide)
  exact ⟨⟨by decide, by decide, h, by decide⟩, ⟨by decide, by decide, h, by decide, by decide⟩⟩

/-- The last wide sample of a filter phase, and the first sample of MID with a flat filter. -/
def lastFilter : State := { flying .lpf with ch := .c1, ix := 7 }

/-- MID with the bundle of 0 dB that R84 prints, on a cleared state. -/
def flatMid : State :=
  { flying .mid with
    co := ⟨Biquad.zero, ⟨0x3F800000#32, 0xBFEC9B8C#32, 0x3F5E0F25#32, 0xBFEC9B8C#32, 0x3F5E0F25#32⟩, Biquad.zero⟩
    mem := [(16777216, 0x3F000000#32)] }

theorem witness_FilterStep :
    chanIndex lastFilter.ch < lastFilter.nin ∧ lastFilter.ix < 2 * lastFilter.nblk := by decide

theorem witness_FilterPhaseFiltersWholeBlock :
    (flying .hpf).busy = true ∧ (flying .hpf).ph = .hpf ∧ (flying .hpf).inputs = [] ∧ (flying .hpf).ch = .c0 ∧
    (flying .hpf).ix = 0 ∧ (flying .hpf).nin = 2 ∧ 0 < (flying .hpf).nblk := by decide

theorem witness_FlatMidFilterIsIdentity :
    chanIndex flatMid.ch < flatMid.nin ∧ flatMid.ix < 2 * flatMid.nblk ∧ flatMid.co.mid.b0 = 0x3F800000#32 ∧
    flatMid.co.mid.b1 = flatMid.co.mid.a1 ∧ flatMid.co.mid.b2 = flatMid.co.mid.a2 ∧
    flatMid.z.mid.get flatMid.ch = ⟨0x00000000#32, 0x00000000#32⟩ ∧
    readWord flatMid (wbufAddr flatMid.nblk flatMid.ch flatMid.ix) = 0x3F000000#32 ∧
    isFinite 0x3F000000#32 = true ∧ isFinite (fmul flatMid.co.mid.a1 0x3F000000#32) = true ∧
    isFinite (fmul flatMid.co.mid.a2 0x3F000000#32) = true := by decide +kernel

/-- A zero sample before the engine. -/
def zeroSample : State := { latched .dist with ch := .c1, ix := 7, mem := [(16777231, 0x80000000#32)] }

theorem witness_DistParts :
    (chanIndex zeroSample.ch < zeroSample.nin ∧ zeroSample.ix < 2 * zeroSample.nblk) ∧
    zeroSample.dstage = .gate ∧ ({ zeroSample with dstage := .shape } : State).dstage = .shape ∧
    ({ zeroSample with dstage := .mix } : State).dstage = .mix := by decide

theorem witness_DistSampleFormula :
    zeroSample.busy = true ∧ zeroSample.ph = .dist ∧ zeroSample.dstage = .gate ∧ zeroSample.inputs = [] ∧
    chanIndex zeroSample.ch < zeroSample.nin ∧ zeroSample.ix < 2 * zeroSample.nblk := by decide

theorem witness_ShapersStayBounded :
    Instr.shapeBi ∈ [Instr.shapeWa, .shapeSa, .shapeBi] ∧
    isFinite (fmul (latched .dist).d0 (fadd 0x3F800000#32 (latched .dist).l.drive)) = true := by decide

theorem witness_ShapeWaIsOdd :
    isFinite (fmul 0x40200000#32 (fadd 0x3F800000#32 (latched .dist).l.drive)) = true := by decide +kernel

theorem defaults_inRange : Params.defaults.inRange := by intro p; cases p <;> decide

theorem witness_ZeroSampleThroughEngine :
    zeroSample.busy = true ∧ zeroSample.ph = .dist ∧ zeroSample.dstage = .gate ∧ zeroSample.inputs = [] ∧
    chanIndex zeroSample.ch < zeroSample.nin ∧ zeroSample.ix < 2 * zeroSample.nblk ∧ zeroSample.l.inRange ∧
    isZero (readWord zeroSample (wbufAddr zeroSample.nblk zeroSample.ch zeroSample.ix)) = true :=
  ⟨by decide, by decide, by decide, by decide, by decide, by decide, defaults_inRange, by decide⟩

theorem witness_BasicOperationsRoundToNearest :
    isFinite 0x7F7FFFFF#32 = true ∧ isZero 0x3F800000#32 = false ∧ isFinite 0x3F800000#32 = true ∧
    fsign 0x7F7FFFFF#32 = false ∧ isZero 0x80000000#32 = true ∧ isFinite 0x80000000#32 = true ∧
    isInf 0xFF800000#32 = true ∧ isInf 0x7F800000#32 = true ∧ fsign 0x7F800000#32 = false ∧
    fsign 0xFF800000#32 ≠ fsign 0x7F800000#32 ∧ isNaN 0x3F800000#32 = false := by decide

theorem witness_InvalidOperationsGiveNaN :
    isNaN 0x7FC00000#32 = true ∧ isInf 0x7F800000#32 = true ∧ isInf 0xFF800000#32 = true ∧
    fsign 0x7F800000#32 ≠ fsign 0xFF800000#32 ∧ isZero 0x80000000#32 = true ∧ fsign 0xBF800000#32 = true ∧
    isZero 0xBF800000#32 = false ∧ isNaN 0xBF800000#32 = false := by decide

/-- The tie of 1.5 between 1 and 2, which goes to 2. -/
theorem witness_ComparisonsFollowValues :
    isFinite 0x3FC00000#32 = true ∧ isFinite 0x40000000#32 = true ∧ isNaN 0x7FC00000#32 = true ∧
    (1 : Int) ≠ roundHaz 0x3FC00000#32 ∧
    |signedUnits 0x3FC00000#32 - roundHaz 0x3FC00000#32 * 2 ^ 149| = |signedUnits 0x3FC00000#32 - 1 * 2 ^ 149| := by
  decide

/-- A block in flight of one sample, the one size that every build accepts. -/
def single : State := { flying .clear with nblk := 1 }

/-- A block in flight that satisfies the invariant. -/
theorem single_inv : single.Inv := by
  refine ⟨⟨by decide, by decide⟩, defaults_inRange, by simp [State.faultOk, single, flying, ready, State.reset],
    fun _ => ?_, ⟨by decide, fun _ => ?_⟩, ?_⟩
  · have h1 : isNaN 0x472C4400#32 = false := by decide
    have h2 : fgt 0x472C4400#32 fZero = true := by decide
    simp [single, flying, ready, badConfig, h1, h2, Nat.not_lt.2 Config.nblkMax_pos]
  · exact ⟨by decide, by decide, by decide, fun h => absurd rfl h, fun h => (by cases h), fun _ => rfl⟩
  · simp [State.osOk, OsMem.lengthsOk, single, flying, ready, State.reset, OsMem.zero]

theorem witness_StepKeepsInvariant :
    single.Inv ∧ (next? (step single)).isSome = true := ⟨single_inv, by decide⟩

theorem witness_BlockAlwaysEnds :
    single.Inv ∧ single.busy = true ∧ single.inputs = [] :=
  ⟨single_inv, by decide, by decide⟩

theorem witness_ChannelsAreIndependent :
    Chan.c1 ≠ single.ch ∧ single.nblk ≤ Config.nblkMax ∧ (0 : Nat) < single.nblk :=
  ⟨by decide, Config.nblkMax_pos, by decide⟩

end Sys2Proof.Tests
end

/-! Arithmetic of format `F` (00_scope.md R5, R6, R9). The magnitudes `bits[30:0]` number the finite values in increasing
order, so a real is rounded when it lies on the right side of the midpoints between neighbouring magnitudes: `roundMag` does
that for every operand that stands for the real (`nearestMag_roundMag`), and each operation hands it such an operand. -/

namespace Sys2Proof.Arithmetic

open Sys2Proof.Machine

/-! ## Magnitudes and their units -/

/-- The units of 2^-149 that `bits[30:0] = n` stand for, continued past the largest finite word: the place of infinity
counts as 2^128, the next value if the exponent had one more step. -/
def magUnits (n : Nat) : Nat :=
  if n / 2 ^ 23 = 0 then n % 2 ^ 23 else (2 ^ 23 + n % 2 ^ 23) * 2 ^ (n / 2 ^ 23 - 1)

theorem units_eq_magUnits (x : F) : units x = magUnits (fmag x) := rfl

/-- `q` steps of size `2^j` units have the magnitude `j * 2^23 + q`, where `q` has 24 bits (fewer in the lowest binade), the
end of the binade included. -/
theorem magUnits_binade (j q : Nat) (hq : q ≤ 2 ^ 24) (h : 2 ^ 23 ≤ q ∨ j = 0) :
    magUnits (j * 2 ^ 23 + q) = q * 2 ^ j := by
  unfold magUnits
  rcases Nat.lt_or_ge q (2 ^ 23) with hlow | hlow
  · obtain rfl : j = 0 := by omega
    rw [if_pos (by omega)]
    omega
  rcases Nat.eq_or_lt_of_le hq with rfl | hlt
  · rw [show (j * 2 ^ 23 + 2 ^ 24) / 2 ^ 23 = j + 2 by omega, show (j * 2 ^ 23 + 2 ^ 24) % 2 ^ 23 = 0 by omega,
      if_neg (by omega), show j + 2 - 1 = j + 1 by omega, pow_succ]
    ring
  · rw [show (j * 2 ^ 23 + q) / 2 ^ 23 = j + 1 by omega, show (j * 2 ^ 23 + q) % 2 ^ 23 = q - 2 ^ 23 by omega,
      if_neg (by omega), show 2 ^ 23 + (q - 2 ^ 23) = q by omega, Nat.add_sub_cancel]

theorem exists_binade (n : Nat) : ∃ j q, q < 2 ^ 24 ∧ (2 ^ 23 ≤ q ∨ j = 0) ∧ n = j * 2 ^ 23 + q := by
  rcases Nat.lt_or_ge n (2 ^ 23) with h | h
  · exact ⟨0, n, by omega, .inr rfl, by omega⟩
  · exact ⟨n / 2 ^ 23 - 1, 2 ^ 23 + n % 2 ^ 23, by omega, .inl (by omega), by omega⟩

theorem magUnits_strictMono : StrictMono magUnits := by
  refine strictMono_nat_of_lt_succ fun n => ?_
  obtain ⟨j, q, hq, hj, rfl⟩ := exists_binade n
  rw [Nat.add_assoc, magUnits_binade j q (by omega) hj, magUnits_binade j (q + 1) (by omega) (by omega)]
  exact Nat.mul_lt_mul_of_pos_right (Nat.lt_succ_self q) (Nat.two_pow_pos j)

@[simp] theorem magUnits_zero : magUnits 0 = 0 := by decide

theorem magUnits_lt_cast {p n : Nat} : (magUnits p : ℝ) < magUnits n ↔ p < n := by
  rw [Nat.cast_lt, magUnits_strictMono.lt_iff_lt]

theorem magUnits_le_cast {p n : Nat} : (magUnits p : ℝ) ≤ magUnits n ↔ p ≤ n := by
  rw [Nat.cast_le, magUnits_strictMono.le_iff_le]

/-! ## Rounding a magnitude to nearest, ties to even -/

/-- `n` is the magnitude nearest the real `v ≥ 0`, in units: `v` lies on the side of `n` of every midpoint between `n` and
another magnitude, on the midpoint only where `n` is even. Infinity takes all that lies above. -/
structure NearestMag (v : ℝ) (n : Nat) : Prop where
  le_inf : n ≤ 0x7F800000
  below : ∀ p < n, (magUnits p + magUnits n : ℝ) ≤ 2 * v ∧ ((magUnits p + magUnits n : ℝ) = 2 * v → n % 2 = 0)
  above : n < 0x7F800000 → ∀ p > n,
    2 * v ≤ (magUnits p + magUnits n : ℝ) ∧ ((magUnits p + magUnits n : ℝ) = 2 * v → n % 2 = 0)

/-- Rounding down from the lower half of the interval between two neighbours. -/
theorem nearestMag_of_lower_half {v : ℝ} {n : Nat} (lo : (magUnits n : ℝ) ≤ v)
    (half : 2 * v ≤ (magUnits (n + 1) + magUnits n : ℝ))
    (tie : (magUnits (n + 1) + magUnits n : ℝ) = 2 * v → n % 2 = 0) : NearestMag v (min n 0x7F800000) where
  le_inf := Nat.min_le_right _ _
  below p hp := by
    have h1 := magUnits_lt_cast.2 hp
    have h2 := (magUnits_le_cast.2 (Nat.min_le_left n 0x7F800000)).trans lo
    exact ⟨by linarith, fun h => by linarith⟩
  above hn p hp := by
    have hmin : min n 0x7F800000 = n := by omega
    rw [hmin] at hp ⊢
    have h1 : (magUnits (n + 1) : ℝ) ≤ magUnits p := magUnits_le_cast.2 hp
    exact ⟨by linarith, fun h => tie (by linarith)⟩

/-- Rounding up from the upper half of the interval between two neighbours. -/
theorem nearestMag_of_upper_half {v : ℝ} {n : Nat} (lo : (magUnits n : ℝ) ≤ v) (hi : v < magUnits (n + 1))
    (half : (magUnits (n + 1) + magUnits n : ℝ) ≤ 2 * v)
    (tie : (magUnits (n + 1) + magUnits n : ℝ) = 2 * v → n % 2 = 1) : NearestMag v (min (n + 1) 0x7F800000) where
  le_inf := Nat.min_le_right _ _
  below p hp := by
    rcases Nat.lt_or_ge n 0x7F800000 with h | h
    · have hmin : min (n + 1) 0x7F800000 = n + 1 := by omega
      rw [hmin] at hp ⊢
      have h1 : (magUnits p : ℝ) ≤ magUnits n := magUnits_le_cast.2 (by omega)
      have h2 : (magUnits n : ℝ) < magUnits (n + 1) := magUnits_lt_cast.2 (by omega)
      refine ⟨by linarith, fun h => ?_⟩
      have := tie (by linarith)
      omega
    · have hmin : min (n + 1) 0x7F800000 = 0x7F800000 := by omega
      rw [hmin] at hp ⊢
      have h1 := magUnits_lt_cast.2 hp
      have h2 := (magUnits_le_cast.2 h).trans lo
      exact ⟨by linarith, fun _ => rfl⟩
  above hn p hp := by
    have hmin : min (n + 1) 0x7F800000 = n + 1 := by omega
    rw [hmin] at hp ⊢
    have h1 : (magUnits (n + 1) : ℝ) < magUnits p := magUnits_lt_cast.2 hp
    exact ⟨by linarith, fun h => by linarith⟩

/-- `m * 2^-k` stands for the real `v` in rounding: the two lie on the same side of every half of the last place that the
result keeps, which is worth `2^j` units. -/
def StandsFor (m k : Nat) (v : ℝ) : Prop :=
  let j := m.log2 - (k + 23)
  ∀ c : Nat, ((c : ℝ) * 2 ^ j < 2 * v ↔ c * 2 ^ (j + k) < 2 * m) ∧ (2 * v < (c : ℝ) * 2 ^ j ↔ 2 * m < c * 2 ^ (j + k))

/-- An exact number of units stands for itself. -/
theorem standsFor_exact (m k : Nat) : StandsFor m k ((m : ℝ) / 2 ^ k) := by
  intro c
  have hk : (0 : ℝ) < 2 ^ k := by positivity
  rw [← @Nat.cast_lt ℝ, ← @Nat.cast_lt ℝ]
  push_cast
  rw [pow_add, ← mul_assoc, ← mul_div_assoc, lt_div_iff₀ hk, div_lt_iff₀ hk]
  exact ⟨Iff.rfl, Iff.rfl⟩

/-- A last bit of 1 stands for anything left over, when the result's last place is worth at least four of that bit. -/
theorem standsFor_sticky (h k : Nat) (v : ℝ) (lo : 2 * (h : ℝ) < v * 2 ^ k) (hi : v * 2 ^ k < 2 * (h : ℝ) + 2)
    (hk : 2 ≤ k ∨ 2 ^ 25 ≤ 2 * h + 1) : StandsFor (2 * h + 1) k v := by
  intro c
  obtain ⟨d, hd⟩ : ∃ d, (2 * h + 1).log2 - (k + 23) + k = d + 2 := by
    refine ⟨(2 * h + 1).log2 - (k + 23) + k - 2, ?_⟩
    have : 2 ^ 25 ≤ 2 * h + 1 → 25 ≤ (2 * h + 1).log2 := (Nat.le_log2 (by omega)).2
    omega
  generalize (2 * h + 1).log2 - (k + 23) = j at *
  have hpos : (0 : ℝ) < 2 ^ k := by positivity
  have hc : (c : ℝ) * 2 ^ j * 2 ^ k = 4 * ((c * 2 ^ d : Nat) : ℝ) := by
    rw [mul_assoc, ← pow_add, hd, pow_add]
    push_cast
    ring
  rw [← mul_lt_mul_iff_left₀ hpos, ← mul_lt_mul_iff_left₀ hpos (b := 2 * v), hc, hd, pow_add, ← mul_assoc]
  generalize c * 2 ^ d = e
  constructor
  · constructor <;> intro hlt
    · have : (e : ℝ) * 2 < 2 * h + 2 := by linarith
      have : e * 2 < 2 * h + 2 := by exact_mod_cast this
      omega
    · have : (e : ℝ) * 2 ≤ 2 * h := by exact_mod_cast (by omega : e * 2 ≤ 2 * h)
      linarith
  · constructor <;> intro hlt
    · have : 2 * (h : ℝ) < e * 2 := by linarith
      have : 2 * h < e * 2 := by exact_mod_cast this
      omega
    · have : 2 * (h : ℝ) + 2 ≤ e * 2 := by exact_mod_cast (by omega : 2 * h + 2 ≤ e * 2)
      linarith

/-- The whole steps of the last place that `roundMag` finds in its operand: 24 bits, or fewer in the lowest binade. -/
theorem roundMag_quotient_binade (m k : Nat) :
    m / 2 ^ (m.log2 - (k + 23) + k) < 2 ^ 24 ∧
    (2 ^ 23 ≤ m / 2 ^ (m.log2 - (k + 23) + k) ∨ m.log2 - (k + 23) = 0) := by
  constructor
  · rw [Nat.div_lt_iff_lt_mul (Nat.two_pow_pos _), ← pow_add]
    exact lt_of_lt_of_le Nat.lt_log2_self (Nat.pow_le_pow_right (by norm_num) (by omega))
  · rcases Nat.eq_zero_or_pos (m.log2 - (k + 23)) with h | h
    · exact .inr h
    · left
      have hm : m ≠ 0 := by rintro rfl; simp at h
      rw [Nat.le_div_iff_mul_le (Nat.two_pow_pos _), ← pow_add, ← Nat.le_log2 hm]
      omega

/-- `roundMag` rounds to nearest, ties to even, whatever its operand stands for. -/
theorem nearestMag_roundMag (m k : Nat) (v : ℝ) (hv : StandsFor m k v) : NearestMag v (roundMag m k) := by
  simp only [StandsFor] at hv
  obtain ⟨hq, hj⟩ := roundMag_quotient_binade m k
  have hdm := Nat.div_add_mod m (2 ^ (m.log2 - (k + 23) + k))
  have hr := Nat.mod_lt m (Nat.two_pow_pos (m.log2 - (k + 23) + k))
  simp only [roundMag]
  generalize m.log2 - (k + 23) = j at *
  generalize m / 2 ^ (j + k) = q at *
  generalize m % 2 ^ (j + k) = r at *
  generalize 2 ^ (j + k) = D at *
  have g0 : (magUnits (j * 2 ^ 23 + q) : ℝ) = q * 2 ^ j := by
    rw [magUnits_binade j q (by omega) hj]
    push_cast
    rfl
  have g1 : (magUnits (j * 2 ^ 23 + q + 1) : ℝ) = (q + 1) * 2 ^ j := by
    rw [Nat.add_assoc, magUnits_binade j (q + 1) (by omega) (by omega)]
    push_cast
    rfl
  have lo : (q : ℝ) * 2 ^ j ≤ v := by
    have := (hv (2 * q)).2.not.2 (by nlinarith)
    push_cast at this
    linarith
  have hi : v < (q + 1 : ℝ) * 2 ^ j := by
    have := (hv (2 * q + 2)).2.2 (by nlinarith)
    push_cast at this
    linarith
  obtain ⟨mid1, mid2⟩ := hv (2 * q + 1)
  have e : (2 * q + 1) * D = 2 * (D * q) + D := by ring
  rw [e, ← hdm] at mid1 mid2
  push_cast at mid1 mid2
  split
  case isTrue hup =>
    simp only [Bool.or_eq_true, Bool.and_eq_true, decide_eq_true_eq] at hup
    rw [← Nat.add_assoc]
    refine nearestMag_of_upper_half (v := v) (by rwa [g0]) (by rwa [g1]) ?_ ?_
    · have := mid2.not.2 (by omega)
      rw [g0, g1]
      linarith
    · intro h
      rw [g0, g1] at h
      have := mid1.not.1 (by linarith)
      omega
  case isFalse hdown =>
    simp only [Bool.or_eq_true, Bool.and_eq_true, decide_eq_true_eq] at hdown
    refine nearestMag_of_lower_half (v := v) (by rwa [g0]) ?_ ?_
    · have := mid1.not.2 (by omega)
      rw [g0, g1]
      linarith
    · intro h
      rw [g0, g1] at h
      have := mid2.not.1 (by linarith)
      omega

/-! ## From magnitudes to words -/

theorem isFinite_iff_fmag_lt (x : F) : isFinite x = true ↔ fmag x < 0x7F800000 := by simp [isFinite]

theorem abs_signedUnits (x : F) : |(signedUnits x : ℝ)| = units x := by
  rw [← Int.cast_abs, Int.abs_eq_natAbs, natAbs_signedUnits]
  rfl

/-- The largest finite magnitude and infinity's, halfway between which overflow begins. -/
theorem magUnits_overflow : (magUnits 0x7F7FFFFF + magUnits 0x7F800000 : ℝ) = 2 * ((2 ^ 25 - 1) * 2 ^ 252) := by
  have h1 : magUnits 0x7F7FFFFF = (2 ^ 24 - 1) * 2 ^ 253 := by decide
  have h2 : magUnits 0x7F800000 = 2 ^ 24 * 2 ^ 253 := by decide
  rw [h1, h2]
  norm_num

/-- The nearest magnitude is infinity's exactly from half a last place past the largest finite one on. -/
theorem NearestMag.lt_inf_iff {v : ℝ} {n : Nat} (h : NearestMag v n) :
    n < 0x7F800000 ↔ v < (2 ^ 25 - 1) * 2 ^ 252 := by
  have hthr := magUnits_overflow
  constructor
  · intro hn
    obtain ⟨hle, htie⟩ := h.above hn 0x7F800000 hn
    have h1 : (magUnits n : ℝ) ≤ magUnits 0x7F7FFFFF := magUnits_le_cast.2 (by omega)
    by_contra hv
    have hn' : magUnits n = magUnits 0x7F7FFFFF := by
      rw [← @Nat.cast_inj ℝ]
      linarith
    have := htie (by linarith)
    have := magUnits_strictMono.injective hn'
    omega
  · intro hv
    by_contra hn
    obtain rfl : n = 0x7F800000 := by have := h.le_inf; omega
    have := (h.below 0x7F7FFFFF (by norm_num)).1
    linarith

/-- No magnitude is nearer, and another as near leaves `n` even. -/
theorem NearestMag.dist_le {v : ℝ} {n : Nat} (h : NearestMag v n) (hn : n < 0x7F800000) (p : Nat) :
    |v - magUnits n| ≤ |v - magUnits p| ∧ (p ≠ n → |v - magUnits p| = |v - magUnits n| → n % 2 = 0) := by
  rcases Nat.lt_trichotomy p n with hp | rfl | hp
  · obtain ⟨hle, htie⟩ := h.below p hp
    have hlt := magUnits_lt_cast.2 hp
    rw [abs_of_pos (show 0 < v - magUnits p by linarith), abs_le]
    refine ⟨⟨by linarith, by linarith⟩, fun _ he => htie ?_⟩
    rcases abs_cases (v - (magUnits n : ℝ)) with ⟨hc, _⟩ | ⟨hc, _⟩ <;> linarith
  · exact ⟨le_rfl, fun hne => absurd rfl hne⟩
  · obtain ⟨hle, htie⟩ := h.above hn p hp
    have hlt := magUnits_lt_cast.2 hp
    rw [abs_of_neg (show v - magUnits p < 0 by linarith), abs_le]
    refine ⟨⟨by linarith, by linarith⟩, fun _ he => htie ?_⟩
    rcases abs_cases (v - (magUnits n : ℝ)) with ⟨hc, _⟩ | ⟨hc, _⟩ <;> linarith

/-- A value of the sign `s` as its magnitude. -/
def HasSign (s : Bool) (v : ℝ) : Prop := if s then v ≤ 0 else 0 ≤ v

theorem signedUnits_of_pos {x : F} (h : fsign x = false) : signedUnits x = units x := by simp [signedUnits, h]

theorem signedUnits_of_neg {x : F} (h : fsign x = true) : signedUnits x = -units x := by simp [signedUnits, h]

theorem abs_sub_signedUnits_of_hasSign {v : ℝ} {x : F} (h : HasSign (fsign x) v) :
    |v - signedUnits x| = |(|v|) - units x| := by
  unfold HasSign at h
  cases hs : fsign x
  · rw [hs] at h
    rw [signedUnits_of_pos hs, abs_of_nonneg (show 0 ≤ v by simpa using h), Int.cast_natCast]
  · rw [hs] at h
    rw [signedUnits_of_neg hs, abs_of_nonpos (show v ≤ 0 by simpa using h), ← abs_neg]
    push_cast
    congr 1
    ring

/-- A value as far from `x` as from its negative is zero, or `x` is. -/
theorem eq_zero_of_abs_sub_eq_abs_add {v x : ℝ} (h : |v - -x| = |v - x|) : v = 0 ∨ x = 0 := by
  rcases abs_eq_abs.1 h with h | h
  · right; linarith
  · left; linarith

/-- Words of one magnitude differ in sign alone. -/
theorem signedUnits_eq_neg_of_fmag_eq {x y : F} (hm : fmag x = fmag y) (hne : signedUnits x ≠ signedUnits y) :
    signedUnits x = -signedUnits y := by
  refine (Int.natAbs_eq_natAbs_iff.1 ?_).resolve_left hne
  rw [natAbs_signedUnits, natAbs_signedUnits, units_eq_magUnits, hm, units_eq_magUnits]

/-- A word of the sign of `v` whose magnitude is nearest that of `v` is `v` rounded. -/
theorem roundsTo_of_nearestMag {v : ℝ} {r : F} (hs : HasSign (fsign r) v) (h : NearestMag |v| (fmag r)) :
    roundsTo v r := by
  constructor
  · intro hv
    have hinf : ¬ fmag r < 0x7F800000 := h.lt_inf_iff.not.2 (not_lt.2 hv)
    have hpos : 0 < |v| := lt_of_lt_of_le (by norm_num) hv
    refine ⟨decide_eq_true (le_antisymm h.le_inf (not_lt.1 hinf)), ?_⟩
    have hne := abs_pos.1 hpos
    unfold HasSign at hs
    cases hr : fsign r <;> simp only [hr, if_true, Bool.false_eq_true, if_false] at hs
    · simpa using hs
    · simpa using lt_of_le_of_ne hs hne
  · intro hv
    have hfin := h.lt_inf_iff.2 hv
    have key (w : F) : |v - signedUnits r| ≤ |(|v|) - units w| := by
      rw [abs_sub_signedUnits_of_hasSign hs]
      exact (h.dist_le hfin (fmag w)).1
    have far (w : F) : |(|v|) - units w| ≤ |v - signedUnits w| := by
      rw [← abs_signedUnits]
      exact abs_abs_sub_abs_le_abs_sub v _
    refine ⟨(isFinite_iff_fmag_lt r).2 hfin, fun w _ => (key w).trans (far w), fun w _ hne heq => ?_⟩
    by_cases hw : fmag w = fmag r
    · have hopp := signedUnits_eq_neg_of_fmag_eq hw hne
      rw [hopp, Int.cast_neg] at heq
      have hr0 : (signedUnits r : ℝ) = 0 := by
        refine (eq_zero_of_abs_sub_eq_abs_add heq).elim (fun hv0 => ?_) id
        have h0 := key 0#32
        have hu : units 0#32 = 0 := by decide
        simpa [hv0, hu] using h0
      rw [Int.cast_eq_zero] at hr0
      exact absurd (by rw [hopp, hr0, neg_zero]) hne
    · refine (h.dist_le hfin (fmag w)).2 hw (le_antisymm ?_ (h.dist_le hfin (fmag w)).1)
      rw [← units_eq_magUnits, ← units_eq_magUnits, ← abs_sub_signedUnits_of_hasSign hs, ← heq]
      exact far w
/-- The rounding of a sign and a magnitude that stands for the exact one. -/
theorem roundsTo_fpack_roundMag {v : ℝ} {s : Bool} {m k : Nat} (hs : HasSign s v) (hm : StandsFor m k |v|) :
    roundsTo v (fpack s (roundMag m k)) := by
  apply roundsTo_of_nearestMag
  · rwa [fsign_fpack]
  · rw [fmag_fpack_roundMag]
    exact nearestMag_roundMag m k _ hm

/-! ## Signs of exact results -/

theorem hasSign_signedUnits (x : F) : HasSign (fsign x) (signedUnits x : ℝ) := by
  unfold HasSign
  cases hs : fsign x
  · simp [signedUnits_of_pos hs]
  · simp [signedUnits_of_neg hs]

theorem HasSign.mul {s t : Bool} {v w : ℝ} (hv : HasSign s v) (hw : HasSign t w) : HasSign (s != t) (v * w) := by
  unfold HasSign at *
  cases s <;> cases t <;> simp only [Bool.false_eq_true, if_false, if_true, bne_self_eq_false, Bool.false_bne,
    Bool.true_bne, Bool.not_false] at *
  · exact mul_nonneg hv hw
  · exact mul_nonpos_of_nonneg_of_nonpos hv hw
  · exact mul_nonpos_of_nonpos_of_nonneg hv hw
  · exact mul_nonneg_of_nonpos_of_nonpos hv hw

theorem HasSign.inv {s : Bool} {v : ℝ} (hv : HasSign s v) : HasSign s v⁻¹ := by
  unfold HasSign at *
  cases s
  · simpa using hv
  · simpa using hv

theorem HasSign.mul_nonneg {s : Bool} {v c : ℝ} (hv : HasSign s v) (hc : 0 ≤ c) : HasSign s (v * c) := by
  simpa using hv.mul (t := false) (w := c) hc

/-- The sign of an exact sum: `s` where the sum is zero. -/
theorem hasSign_of_int (z : Int) (s : Bool) : HasSign (if z = 0 then s else decide (z < 0)) (z : ℝ) := by
  unfold HasSign
  by_cases hz : z = 0
  · simp [hz]
  · rcases Int.lt_or_gt_of_ne hz with h | h
    · simp [hz, h, h.le]
    · simp [hz, h.le, not_lt.2 h.le]

/-! ## The operations on finite words -/

/-- A sum of finite words is the rounded sum. -/
theorem fadd_of_finite (a b : F) (ha : isFinite a = true) (hb : isFinite b = true) :
    fadd a b = fpack (if signedUnits a + signedUnits b = 0 then fsign a && fsign b
      else decide (signedUnits a + signedUnits b < 0)) (roundMag (signedUnits a + signedUnits b).natAbs 0) := by
  simp only [fadd, not_isNaN_of_isFinite a ha, not_isNaN_of_isFinite b hb, not_isInf_of_isFinite a ha,
    not_isInf_of_isFinite b hb, Bool.or_self, Bool.false_eq_true, if_false]
  by_cases hz : signedUnits a + signedUnits b = 0
  · simp [hz]
  · simp [hz]

theorem fsign_fadd (a b : F) (ha : isFinite a = true) (hb : isFinite b = true) :
    fsign (fadd a b) = (if signedUnits a + signedUnits b = 0 then fsign a && fsign b
      else decide (signedUnits a + signedUnits b < 0)) := by
  rw [fadd_of_finite a b ha hb, fsign_fpack]

theorem roundsTo_fadd (a b : F) (ha : isFinite a = true) (hb : isFinite b = true) :
    roundsTo ((signedUnits a : ℝ) + signedUnits b) (fadd a b) := by
  rw [fadd_of_finite a b ha hb, ← Int.cast_add]
  refine roundsTo_fpack_roundMag (hasSign_of_int _ _) ?_
  have h := standsFor_exact (signedUnits a + signedUnits b).natAbs 0
  rwa [pow_zero, div_one, Nat.cast_natAbs, Int.cast_abs] at h

theorem fsign_fsub (a b : F) (ha : isFinite a = true) (hb : isFinite b = true) :
    fsign (fsub a b) = (if signedUnits a = signedUnits b then fsign a && !fsign b
      else decide (signedUnits a < signedUnits b)) := by
  rw [fsub_of_finite a b ha (not_isNaN_of_isFinite b hb), fsign_fadd a (fneg b) ha (by rwa [isFinite_fneg])]
  simp only [signedUnits_fneg, fsign_fneg, ← sub_eq_add_neg, sub_eq_zero, sub_neg]

theorem roundsTo_fsub (a b : F) (ha : isFinite a = true) (hb : isFinite b = true) :
    roundsTo ((signedUnits a : ℝ) - signedUnits b) (fsub a b) := by
  have h := roundsTo_fadd a (fneg b) ha (by rwa [isFinite_fneg])
  rwa [signedUnits_fneg, Int.cast_neg, ← sub_eq_add_neg,
    ← fsub_of_finite a b ha (not_isNaN_of_isFinite b hb)] at h

theorem roundsTo_fmul (a b : F) (ha : isFinite a = true) (hb : isFinite b = true) :
    roundsTo ((signedUnits a : ℝ) * signedUnits b / 2 ^ 149) (fmul a b) := by
  rw [fmul_of_finite a b ha hb]
  refine roundsTo_fpack_roundMag ?_ ?_
  · exact ((hasSign_signedUnits a).mul (hasSign_signedUnits b)).mul_nonneg (by positivity)
  · have h := standsFor_exact (units a * units b) 149
    rwa [Nat.cast_mul, ← abs_signedUnits, ← abs_signedUnits, ← abs_mul,
      ← abs_of_pos (show (0 : ℝ) < 2 ^ 149 by positivity), ← abs_div] at h

/-- The quotient in eighths of a unit, with a last bit for what is left over, stands for the exact one. -/
theorem standsFor_quotient (n d e : Nat) (hd : 0 < d) :
    StandsFor (2 * (n * 2 ^ (e + 2) / d) + if n * 2 ^ (e + 2) % d = 0 then 0 else 1) 3 ((n : ℝ) / d * 2 ^ e) := by
  have hd' : (0 : ℝ) < d := by exact_mod_cast hd
  have hdm := Nat.div_add_mod (n * 2 ^ (e + 2)) d
  have hlt := Nat.mod_lt (n * 2 ^ (e + 2)) hd
  have hdm' : (d : ℝ) * ((n * 2 ^ (e + 2) / d : Nat) : ℝ) + ((n * 2 ^ (e + 2) % d : Nat) : ℝ) = n * 2 ^ (e + 2) := by
    exact_mod_cast hdm
  have hv : (n : ℝ) / d * 2 ^ e * 2 ^ 3 = 2 * (n * 2 ^ (e + 2)) / d := by
    rw [pow_add]
    ring
  generalize n * 2 ^ (e + 2) / d = q at *
  generalize n * 2 ^ (e + 2) % d = r at *
  split
  case isTrue hr =>
    have h := standsFor_exact (2 * q) 3
    have hvq : ((2 * q : Nat) : ℝ) / 2 ^ 3 = n / d * 2 ^ e := by
      rw [div_eq_iff (by positivity), hv, ← hdm', hr]
      push_cast
      field_simp
      ring
    rwa [hvq] at h
  case isFalse hr =>
    have hr' : (0 : ℝ) < r := by exact_mod_cast Nat.pos_of_ne_zero hr
    have hlt' : (r : ℝ) < d := by exact_mod_cast hlt
    refine standsFor_sticky q 3 _ ?_ ?_ (.inl (by norm_num))
    · rw [hv, lt_div_iff₀ hd']
      linarith
    · rw [hv, div_lt_iff₀ hd']
      linarith

theorem units_pos_of_not_isZero {x : F} (h : isZero x = false) : 0 < units x := by
  refine Nat.pos_of_ne_zero fun h0 => ?_
  rw [(units_eq_zero_iff x).1 h0] at h
  cases h

theorem fsign_fdiv (a b : F) (ha : isFinite a = true) (hb : isFinite b = true) (hz : isZero b = false) :
    fsign (fdiv a b) = (fsign a != fsign b) := by
  rw [fdiv_of_finite a b ha hb (units_pos_of_not_isZero hz), fsign_fpack]

theorem roundsTo_fdiv (a b : F) (ha : isFinite a = true) (hb : isFinite b = true) (hz : isZero b = false) :
    roundsTo ((signedUnits a : ℝ) / signedUnits b * 2 ^ 149) (fdiv a b) := by
  have hpos := units_pos_of_not_isZero hz
  rw [fdiv_of_finite a b ha hb hpos]
  refine roundsTo_fpack_roundMag ?_ ?_
  · exact ((hasSign_signedUnits a).mul (hasSign_signedUnits b).inv).mul_nonneg (by positivity)
  · rw [abs_mul, abs_div, abs_signedUnits, abs_signedUnits, abs_of_pos (show (0 : ℝ) < 2 ^ 149 by positivity)]
    exact standsFor_quotient (units a) (units b) 149 hpos

theorem fsqrt_of_isZero (a : F) (h : isZero a = true) : fsqrt a = a := by
  simp [fsqrt, h, not_isNaN_of_isFinite a (isFinite_of_isZero a h)]

/-- The root of a positive finite word is its integer root in half units, with a last bit for what is left over, rounded. -/
theorem fsqrt_of_pos (a : F) (ha : isFinite a = true) (hs : fsign a = false) (hz : isZero a = false) :
    ∃ r, r * r ≤ units a * 2 ^ 149 ∧ units a * 2 ^ 149 < (r + 1) * (r + 1) ∧
      fsqrt a = fpack false (roundMag (2 * r + if r * r = units a * 2 ^ 149 then 0 else 1) 1) := by
  have hlt : units a * 2 ^ 149 < (0 + 2 ^ 214) * (0 + 2 ^ 214) := by
    have h := units_lt a ha
    have e : (0 + 2 ^ 214) * (0 + 2 ^ 214) = 2 ^ 255 * 2 ^ 24 * 2 ^ 149 := by decide
    rw [e]
    exact Nat.mul_lt_mul_of_pos_right (by omega) (Nat.two_pow_pos _)
  obtain ⟨hlo, hhi⟩ := isqrtFrom_spec 214 (units a * 2 ^ 149) 0 (by omega) hlt
  refine ⟨_, hlo, hhi, ?_⟩
  simp [fsqrt, not_isNaN_of_isFinite a ha, not_isInf_of_isFinite a ha, hz, hs]

/-- The integer root in half units, with a last bit for what is left over, stands for the root of a number so large that
half a last place of the root is a whole number of units. -/
theorem standsFor_root (n r : Nat) (hn : 2 ^ 50 ≤ n) (lo : r * r ≤ n) (hi : n < (r + 1) * (r + 1)) :
    StandsFor (2 * r + if r * r = n then 0 else 1) 1 (Real.sqrt n) := by
  split
  case isTrue hr =>
    have h := standsFor_exact (2 * r) 1
    have hv : ((2 * r : Nat) : ℝ) / 2 ^ 1 = Real.sqrt n := by
      rw [← hr, Nat.cast_mul r r, Real.sqrt_mul_self (Nat.cast_nonneg r)]
      push_cast
      ring
    rwa [hv] at h
  case isFalse hr =>
    have hr25 : 2 ^ 25 ≤ r + 1 := by
      by_contra hlt
      have := Nat.mul_le_mul (show r + 1 ≤ 2 ^ 25 by omega) (show r + 1 ≤ 2 ^ 25 by omega)
      omega
    refine standsFor_sticky r 1 _ ?_ ?_ (.inr (by omega))
    · have hlt : r * r < n := by omega
      have : (r : ℝ) < Real.sqrt n := by
        rw [Real.lt_sqrt (Nat.cast_nonneg r), sq]
        exact_mod_cast hlt
      linarith
    · have : Real.sqrt n < (r : ℝ) + 1 := by
        rw [Real.sqrt_lt' (by positivity), sq]
        exact_mod_cast hi
      linarith

/-- A finite word is its own value rounded. -/
theorem roundsTo_signedUnits (x : F) (h : isFinite x = true) : roundsTo (signedUnits x : ℝ) x := by
  apply roundsTo_of_nearestMag (hasSign_signedUnits x)
  have hu := standsFor_exact (units x) 0
  rw [pow_zero, div_one] at hu
  rw [← roundMag_units x h, abs_signedUnits]
  exact nearestMag_roundMag _ _ _ hu

theorem roundsTo_fsqrt (a : F) (ha : isFinite a = true) (h : isZero a = true ∨ fsign a = false) :
    roundsTo (Real.sqrt ((signedUnits a : ℝ) * 2 ^ 149)) (fsqrt a) ∧ fsign (fsqrt a) = fsign a := by
  by_cases hz : isZero a = true
  · have hr := roundsTo_signedUnits a ha
    rw [signedUnits_of_isZero a hz, Int.cast_zero] at *
    rw [fsqrt_of_isZero a hz, zero_mul, Real.sqrt_zero]
    exact ⟨hr, rfl⟩
  · have hs := h.resolve_left hz
    have hz' : isZero a = false := by simpa using hz
    obtain ⟨r, hlo, hhi, he⟩ := fsqrt_of_pos a ha hs hz'
    have hn : 2 ^ 50 ≤ units a * 2 ^ 149 := by
      have := units_pos_of_not_isZero hz'
      omega
    have hv : (signedUnits a : ℝ) * 2 ^ 149 = ((units a * 2 ^ 149 : Nat) : ℝ) := by
      rw [signedUnits_of_pos hs, Int.cast_natCast, Nat.cast_mul, Nat.cast_pow, Nat.cast_ofNat]
    rw [he, fsign_fpack, hs, hv]
    refine ⟨roundsTo_fpack_roundMag (Real.sqrt_nonneg _) ?_, rfl⟩
    rw [abs_of_nonneg (Real.sqrt_nonneg _)]
    exact standsFor_root _ r hn hlo hhi

/-! ## The operations on infinities and zeros -/

theorem fmag_of_isInf {x : F} (h : isInf x = true) : fmag x = 0x7F800000 := by simpa [isInf] using h

theorem not_isNaN_of_isInf {x : F} (h : isInf x = true) : isNaN x = false := by simp [isNaN, fmag_of_isInf h]

theorem not_isZero_of_isInf {x : F} (h : isInf x = true) : isZero x = false := by simp [isZero, fmag_of_isInf h]

/-- Infinities of one sign are one word. -/
theorem eq_of_isInf {x y : F} (hx : isInf x = true) (hy : isInf y = true) (hs : fsign x = fsign y) : x = y :=
  word_ext x y hs (by rw [fmag_of_isInf hx, fmag_of_isInf hy])

/-- The infinity whose sign is that of a product. -/
theorem fpack_bne_inf (s t : Bool) : fpack (s != t) 0x7F800000 = if s = t then 0x7F800000#32 else 0xFF800000#32 := by
  cases s <;> cases t <;> decide

/-- The zero whose sign is that of a product. -/
theorem fpack_bne_zero (s t : Bool) : fpack (s != t) 0 = if s = t then 0x00000000#32 else 0x80000000#32 := by
  cases s <;> cases t <;> decide

theorem fadd_inf_finite (a b : F) (ha : isInf a = true) (hb : isFinite b = true) : fadd a b = a := by
  simp [fadd, ha, not_isNaN_of_isInf ha, not_isNaN_of_isFinite b hb, not_isInf_of_isFinite b hb]

theorem fadd_finite_inf (a b : F) (ha : isFinite a = true) (hb : isInf b = true) : fadd a b = b := by
  simp [fadd, hb, not_isNaN_of_isInf hb, not_isNaN_of_isFinite a ha, not_isInf_of_isFinite a ha]

theorem fadd_inf_inf (a b : F) (ha : isInf a = true) (hb : isInf b = true) (hs : fsign a = fsign b) : fadd a b = a := by
  simp [fadd, ha, hs, not_isNaN_of_isInf ha, not_isNaN_of_isInf hb]

/-- But for infinities of one sign, a difference with an infinity is the sum with the second operand negated. -/
theorem fsub_of_inf (a b : F) (ha : isInf a = true) (hb : isNaN b = false) (h : isInf b = true → fsign a ≠ fsign b) :
    fsub a b = fadd a (fneg b) := by
  simpa [fsub, not_isNaN_of_isInf ha, hb, ha] using fun hib heq => absurd heq (h hib)

theorem fsub_inf_finite (a b : F) (ha : isInf a = true) (hb : isFinite b = true) : fsub a b = a := by
  rw [fsub_of_inf a b ha (not_isNaN_of_isFinite b hb) (by simp [not_isInf_of_isFinite b hb])]
  exact fadd_inf_finite a (fneg b) ha (by rwa [isFinite_fneg])

theorem fsub_finite_inf (a b : F) (ha : isFinite a = true) (hb : isInf b = true) : fsub a b = fneg b := by
  rw [fsub_of_finite a b ha (not_isNaN_of_isInf hb)]
  exact fadd_finite_inf a (fneg b) ha (by rwa [isInf_fneg])

theorem fsub_inf_inf (a b : F) (ha : isInf a = true) (hb : isInf b = true) (hs : fsign a ≠ fsign b) : fsub a b = a := by
  rw [fsub_of_inf a b ha (not_isNaN_of_isInf hb) (fun _ => hs)]
  refine fadd_inf_inf a (fneg b) ha (by rwa [isInf_fneg]) ?_
  rw [fsign_fneg]
  exact Bool.eq_not.2 hs

theorem fmul_of_inf (a b : F) (h : isInf a = true ∨ isInf b = true) (ha : isNaN a = false) (hb : isNaN b = false)
    (hza : isZero a = false) (hzb : isZero b = false) : fmul a b = fpack (fsign a != fsign b) 0x7F800000 := by
  simp [fmul, ha, hb, hza, hzb, h]

theorem fdiv_inf_finite (a b : F) (ha : isInf a = true) (hb : isFinite b = true) :
    fdiv a b = fpack (fsign a != fsign b) 0x7F800000 := by
  simp [fdiv, ha, not_isNaN_of_isInf ha, not_isNaN_of_isFinite b hb, not_isInf_of_isFinite b hb]

theorem fdiv_finite_inf (a b : F) (ha : isFinite a = true) (hb : isInf b = true) :
    fdiv a b = fpack (fsign a != fsign b) 0 := by
  simp [fdiv, hb, not_isNaN_of_isInf hb, not_isNaN_of_isFinite a ha, not_isInf_of_isFinite a ha]

theorem fdiv_by_zero (a b : F) (ha : isFinite a = true) (hza : isZero a = false) (hzb : isZero b = true) :
    fdiv a b = fpack (fsign a != fsign b) 0x7F800000 := by
  have hb := isFinite_of_isZero b hzb
  simp [fdiv, hza, hzb, not_isNaN_of_isFinite a ha, not_isNaN_of_isFinite b hb, not_isInf_of_isFinite a ha,
    not_isInf_of_isFinite b hb]

theorem fsqrt_inf (a : F) (ha : isInf a = true) (hs : fsign a = false) : fsqrt a = a := by
  simp [fsqrt, ha, hs, not_isNaN_of_isInf ha]

/-- Settles O54: on finite words every operation is a sign and one `roundMag`, which rounds to nearest; with an infinity or
a zero divisor the result is a fixed word. -/
theorem basicOperationsRoundToNearest : Obligations.BasicOperationsRoundToNearest := by
  intro a b
  refine ⟨fun ha hb => ?finite, fun ha hb => ?infFinite, fun ha hb => ?infInf, fun ha hb hz => ?infTimes,
    fun ha hza hzb => ?overZero, fsqrt_inf a⟩
  case finite =>
    exact ⟨roundsTo_fadd a b ha hb, fsign_fadd a b ha hb, roundsTo_fsub a b ha hb, fsign_fsub a b ha hb,
      roundsTo_fmul a b ha hb, by rw [fmul_of_finite a b ha hb, fsign_fpack],
      fun hz => ⟨roundsTo_fdiv a b ha hb hz, fsign_fdiv a b ha hb hz⟩, roundsTo_fsqrt a ha⟩
  case infFinite =>
    refine ⟨fadd_inf_finite a b ha hb, fadd_finite_inf b a hb ha, fsub_inf_finite a b ha hb,
      fsub_finite_inf b a hb ha, ?_, ?_⟩
    · rw [fdiv_inf_finite a b ha hb, fpack_bne_inf]
    · rw [fdiv_finite_inf b a hb ha, bne_comm, fpack_bne_zero]
  case infInf => exact ⟨fadd_inf_inf a b ha hb, fsub_inf_inf a b ha hb⟩
  case infTimes =>
    rw [fmul_of_inf a b (.inl ha) (not_isNaN_of_isInf ha) hb (not_isZero_of_isInf ha) hz,
      fmul_of_inf b a (.inr ha) hb (not_isNaN_of_isInf ha) hz (not_isZero_of_isInf ha), bne_comm (a := fsign b)]
    exact ⟨fpack_bne_inf _ _, rfl⟩
  case overZero => rw [fdiv_by_zero a b ha hza hzb, fpack_bne_inf]

/-! ## Invalid operations -/

/-- A NaN operand makes every operation on two words give its NaN. -/
theorem nanResult_of_isNaN (a b : F) (h : isNaN a = true ∨ isNaN b = true) :
    fadd a b = nanResult .add a b ∧ fsub a b = nanResult .sub a b ∧ fmul a b = nanResult .mul a b ∧
      fdiv a b = nanResult .div a b := by
  simp [fadd, fsub, fmul, fdiv, h]

theorem fsqrt_of_isNaN (a : F) (h : isNaN a = true) : fsqrt a = nanResult .sqrt a a := by simp [fsqrt, h]

theorem fadd_opposite_infs (a b : F) (ha : isInf a = true) (hb : isInf b = true) (hs : fsign a ≠ fsign b) :
    fadd a b = nanResult .add a b := by
  simp [fadd, ha, hb, hs]

theorem fsub_equal_infs (a b : F) (ha : isInf a = true) (hb : isInf b = true) (hs : fsign a = fsign b) :
    fsub a b = nanResult .sub a b := by
  simp [fsub, ha, hb, hs]

theorem fmul_zero_inf (a b : F) (ha : isZero a = true) (hb : isInf b = true) :
    fmul a b = nanResult .mul a b ∧ fmul b a = nanResult .mul b a := by
  simp [fmul, ha, hb]

theorem fdiv_zero_zero (a b : F) (ha : isZero a = true) (hb : isZero b = true) : fdiv a b = nanResult .div a b := by
  simp [fdiv, ha, hb, not_isInf_of_isFinite _ (isFinite_of_isZero a ha), not_isInf_of_isFinite _ (isFinite_of_isZero b hb)]

theorem fdiv_inf_inf (a b : F) (ha : isInf a = true) (hb : isInf b = true) : fdiv a b = nanResult .div a b := by
  simp [fdiv, ha, hb]

theorem fsqrt_of_neg (a : F) (hs : fsign a = true) (hz : isZero a = false) : fsqrt a = nanResult .sqrt a a := by
  simp [fsqrt, hs, hz]

/-- Settles O55: each invalid operation takes the branch of `nanResult`, which is a NaN. -/
theorem invalidOperationsGiveNaN : Obligations.InvalidOperationsGiveNaN := by
  intro a b
  refine ⟨fun h => ?_, fun h => ?_, fun ha hb hs => ?_, fun ha hb hs => ?_, fun ha hb => ?_, fun ha hb => ?_,
    fun ha hb => ?_, fun hs hz _ => ?_⟩
  · obtain ⟨hadd, hsub, hmul, hdiv⟩ := nanResult_of_isNaN a b h
    simp [hadd, hsub, hmul, hdiv, isNaN_nanResult]
  · rw [fsqrt_of_isNaN a h, isNaN_nanResult]
  · rw [fadd_opposite_infs a b ha hb hs, isNaN_nanResult]
  · rw [fsub_equal_infs a b ha hb hs, isNaN_nanResult]
  · rw [(fmul_zero_inf a b ha hb).1, (fmul_zero_inf a b ha hb).2, isNaN_nanResult, isNaN_nanResult]
    exact ⟨rfl, rfl⟩
  · rw [fdiv_zero_zero a b ha hb, isNaN_nanResult]
  · rw [fdiv_inf_inf a b ha hb, isNaN_nanResult]
  · rw [fsqrt_of_neg a hs hz, isNaN_nanResult]

/-! ## Comparisons and selections (R9) -/

theorem flt_iff_orderKey {x y : F} (hx : isNaN x = false) (hy : isNaN y = false) :
    flt x y = true ↔ orderKey x < orderKey y := by simp [flt, hx, hy]

/-- The order of words is the order of values. -/
theorem orderKey_lt_iff (x y : F) : orderKey x < orderKey y ↔ signedUnits x < signedUnits y := by
  have hxy := magUnits_strictMono.lt_iff_lt (a := fmag x) (b := fmag y)
  have hyx := magUnits_strictMono.lt_iff_lt (a := fmag y) (b := fmag x)
  have hx := magUnits_strictMono.lt_iff_lt (a := 0) (b := fmag x)
  have hy := magUnits_strictMono.lt_iff_lt (a := 0) (b := fmag y)
  rw [magUnits_zero] at hx hy
  unfold orderKey signedUnits
  rw [units_eq_magUnits, units_eq_magUnits]
  split <;> split <;> omega

/-- A word that is no NaN and no infinity of the sign of `x` lies on the inner side of the infinity `x`. -/
theorem orderKey_inf_lt_iff {x y : F} (hx : isInf x = true) (hy : isNaN y = false) :
    (orderKey x < orderKey y ↔ fsign x = true ∧ y ≠ x) ∧ (orderKey y < orderKey x ↔ fsign x = false ∧ y ≠ x) := by
  have hmx := fmag_of_isInf hx
  have hmy : fmag y ≤ 0x7F800000 := by simpa [isNaN] using hy
  have heq : y = x ↔ fsign y = fsign x ∧ fmag y = fmag x :=
    ⟨fun h => by rw [h]; exact ⟨rfl, rfl⟩, fun ⟨hs, hm⟩ => word_ext y x hs hm⟩
  rw [ne_eq, heq]
  unfold orderKey
  cases fsign x <;> cases fsign y <;> simp <;> omega

theorem fabs_eq_and (x : F) : fabs x = x &&& 0x7FFFFFFF#32 := by
  apply BitVec.eq_of_toNat_eq
  have h : x.toNat &&& (2 ^ 31 - 1) = x.toNat % 2 ^ 31 := Nat.and_two_pow_sub_one_eq_mod _ _
  have hm := fmag_lt x
  rw [BitVec.toNat_and, show (0x7FFFFFFF#32).toNat = 2 ^ 31 - 1 by decide, h]
  simp only [fabs, fpack, Bool.false_eq_true, if_false, BitVec.toNat_ofNat]
  unfold fmag at *
  omega

theorem clamp_of_isNaN (x lo hi : F) (h : isNaN x = true) : clamp x lo hi = x := by
  simp [clamp, fgt, flt_nan_left x lo h, flt_nan_right hi x h]

/-- The whole number `n` of steps `S` next to `u ≥ 0`, a tie upward: no other is nearer, and one as near is smaller in
magnitude. -/
theorem nearest_multiple {u S n : Int} (hu : 0 ≤ u) (lo : 2 * (n * S) ≤ 2 * u + S) (hi : 2 * u + S < 2 * (n * S) + 2 * S)
    (m : Int) : |u - n * S| ≤ |u - m * S| ∧ (m ≠ n → |u - n * S| = |u - m * S| → |m| < |n|) := by
  have hS : 0 < S := by omega
  have hm : m * S = n * S + (m - n) * S := by ring
  simp only [abs_eq_max_neg]
  rcases Int.lt_trichotomy m n with hlt | rfl | hgt
  · have hd : (m - n) * S ≤ -S := by nlinarith
    refine ⟨by omega, fun _ htie => ?_⟩
    have hadj : m = n - 1 := by
      by_contra hne
      have : (m - n) * S ≤ -2 * S := by nlinarith [show m - n ≤ -2 by omega]
      omega
    have hn : 0 < n * S := by omega
    have : 0 < n := (mul_pos_iff_of_pos_right hS).1 hn
    omega
  · exact ⟨le_rfl, fun h => absurd rfl h⟩
  · have hd : S ≤ (m - n) * S := by nlinarith
    exact ⟨by omega, fun _ htie => by omega⟩

/-- `ROUND_HAZ` without the sign: half a step is added and the rest cut off. -/
def roundedUnits (u : Nat) : Nat := (2 * u + 2 ^ 149) / 2 ^ 150

theorem roundedUnits_nearest (u : Nat) (m : Int) :
    |(u : Int) - roundedUnits u * 2 ^ 149| ≤ |u - m * 2 ^ 149| ∧
    (m ≠ roundedUnits u → |(u : Int) - roundedUnits u * 2 ^ 149| = |u - m * 2 ^ 149| → |m| < |(roundedUnits u : Int)|) := by
  apply nearest_multiple (Int.natCast_nonneg u)
  · unfold roundedUnits
    omega
  · unfold roundedUnits
    omega

theorem roundHaz_nearest (x : F) (m : Int) :
    |signedUnits x - roundHaz x * 2 ^ 149| ≤ |signedUnits x - m * 2 ^ 149| ∧
    (m ≠ roundHaz x → |signedUnits x - roundHaz x * 2 ^ 149| = |signedUnits x - m * 2 ^ 149| → |m| < |roundHaz x|) := by
  cases hs : fsign x
  · have hr : roundHaz x = roundedUnits (units x) := by simp [roundHaz, hs, roundedUnits]
    rw [hr, signedUnits_of_pos hs]
    exact roundedUnits_nearest (units x) m
  · have hr : roundHaz x = -roundedUnits (units x) := by simp [roundHaz, hs, roundedUnits]
    have hneg (c : Int) : |-(units x : Int) - c * 2 ^ 149| = |(units x : Int) - -c * 2 ^ 149| := by
      rw [← abs_neg]
      congr 1
      ring
    obtain ⟨hle, htie⟩ := roundedUnits_nearest (units x) (-m)
    rw [hr, signedUnits_of_neg hs, hneg, hneg, neg_neg, abs_neg]
    exact ⟨hle, fun hne heq => by simpa using htie (by omega) heq⟩

/-- Settles O56: the key by which words compare orders as the values do, and `ROUND_HAZ` adds half and rounds down. -/
theorem comparisonsFollowValues : Obligations.ComparisonsFollowValues := by
  intro x y lo hi
  refine ⟨fun hx hy => ?_, fun h => ?_, fun hx hy => ?_, fun hy hx => ?_, rfl, fabs_eq_and x, rfl,
    clamp_of_isNaN x lo hi, fun _ => ⟨fun m => (roundHaz_nearest x m).1, fun m => (roundHaz_nearest x m).2⟩⟩
  · rw [flt_iff_orderKey (not_isNaN_of_isFinite x hx) (not_isNaN_of_isFinite y hy), orderKey_lt_iff]
  · exact h.elim (flt_nan_left x y) (flt_nan_right x y)
  · rw [flt_iff_orderKey (not_isNaN_of_isInf hx) hy, (orderKey_inf_lt_iff hx hy).1]
  · rw [flt_iff_orderKey hx (not_isNaN_of_isInf hy), (orderKey_inf_lt_iff hy hx).2]

end Sys2Proof.Arithmetic

/-! The state of the machine and its steps (10_state.md, 60_exceptions.md). `exec_cases` says once what an instruction
can do: a packet is refused or has its effect, a phase or a shaper moves the block in flight. Which cause is recorded,
who writes the parameters, that a step on one channel leaves the other alone, and that every step keeps the invariant
are read off that case list. -/

namespace Sys2Proof.StateRules

open Sys2Proof.Machine

/-! ### Packets: the opcode map and the decoder -/

/-- Two packets are equal when their four fields are (30_encoding.md R61). -/
theorem packet_eq_iff (x y : Packet) : x = y ↔
    x.extractLsb' 60 4 = y.extractLsb' 60 4 ∧ x.extractLsb' 56 4 = y.extractLsb' 56 4 ∧
    x.extractLsb' 32 24 = y.extractLsb' 32 24 ∧ x.extractLsb' 0 32 = y.extractLsb' 0 32 := by
  refine ⟨fun h => by simp [h], fun ⟨hopc, hsel, hidx, hdata⟩ => ?_⟩
  have hsplit (z : Packet) :
      z.extractLsb' 60 4 ++ (z.extractLsb' 56 4 ++ (z.extractLsb' 32 24 ++ z.extractLsb' 0 32)) = z := by
    rw [BitVec.extractLsb'_append_extractLsb'_eq_extractLsb' (by rfl : 32 = 0 + 32),
      BitVec.extractLsb'_append_extractLsb'_eq_extractLsb' (by rfl : 56 = 0 + (24 + 32)),
      BitVec.extractLsb'_append_extractLsb'_eq_extractLsb' (by rfl : 60 = 0 + (4 + (24 + 32))),
      BitVec.extractLsb'_eq_self]
  rw [← hsplit x, ← hsplit y, hopc, hsel, hidx, hdata]

/-- A row of the opcode map is matched field by field. -/
theorem and_eq_iff (w mask pattern : Packet) : w &&& mask = pattern ↔
    w.extractLsb' 60 4 &&& mask.extractLsb' 60 4 = pattern.extractLsb' 60 4 ∧
    w.extractLsb' 56 4 &&& mask.extractLsb' 56 4 = pattern.extractLsb' 56 4 ∧
    w.extractLsb' 32 24 &&& mask.extractLsb' 32 24 = pattern.extractLsb' 32 24 ∧
    pktData w &&& mask.extractLsb' 0 32 = pattern.extractLsb' 0 32 := by
  rw [packet_eq_iff]
  simp only [BitVec.extractLsb'_and, pktData]

theorem pktOpc_eq_iff (w : Packet) (n : Nat) (h : n < 16) : pktOpc w = n ↔ w.extractLsb' 60 4 = BitVec.ofNat 4 n := by
  rw [BitVec.toNat_eq, BitVec.toNat_ofNat, Nat.mod_eq_of_lt h, pktOpc]

theorem pktSel_eq_zero_iff (w : Packet) : pktSel w = 0 ↔ w.extractLsb' 56 4 = 0#4 := by
  rw [BitVec.toNat_eq, BitVec.toNat_ofNat, pktSel]

theorem pktSel_half_eq_zero_iff (w : Packet) : pktSel w / 2 = 0 ↔ w.extractLsb' 56 4 &&& 14#4 = 0#4 := by
  have h : ∀ x : BitVec 4, x.toNat / 2 = 0 ↔ x &&& 14#4 = 0#4 := by decide
  exact h _

theorem pktIdx_eq_zero_iff (w : Packet) : pktIdx w = 0 ↔ w.extractLsb' 32 24 = 0#24 := by
  rw [BitVec.toNat_eq, BitVec.toNat_ofNat, pktIdx]

/-- The packet `w` matches a row of the opcode map of R62. -/
def MatchesRow (w : Packet) : Prop := ∃ r ∈ opcodeMap, w &&& r.mask = r.pattern

theorem matchesRow_iff (w : Packet) : MatchesRow w ↔
    (pktOpc w = 0 ∧ pktSel w = 0 ∧ pktIdx w = 0 ∧ pktData w = 0#32) ∨
    (pktOpc w = 1 ∧ pktSel w = 0) ∨
    (pktOpc w = 2 ∧ pktIdx w = 0 ∧ pktData w = 0#32) ∨
    (pktOpc w = 3 ∧ pktSel w = 0 ∧ pktIdx w = 0 ∧ pktData w = 0#32) ∨
    (pktOpc w = 4 ∧ pktIdx w = 0) ∨
    (pktOpc w = 5 ∧ pktIdx w = 0 ∧ pktData w = 0#32) ∨
    (pktOpc w = 6 ∧ pktSel w / 2 = 0) ∨
    (pktOpc w = 7 ∧ pktSel w / 2 = 0 ∧ pktData w = 0#32) ∨
    (pktOpc w = 8 ∧ pktSel w = 0 ∧ pktIdx w = 0 ∧ pktData w = 0#32) := by
  have h4 (x : BitVec 4) : x &&& 15#4 = x := BitVec.and_allOnes
  have h24 (x : BitVec 24) : x &&& 16777215#24 = x := BitVec.and_allOnes
  have h32 (x : BitVec 32) : x &&& 4294967295#32 = x := BitVec.and_allOnes
  simp [MatchesRow, opcodeMap, and_eq_iff, pktOpc_eq_iff, pktSel_eq_zero_iff, pktSel_half_eq_zero_iff,
    pktIdx_eq_zero_iff, h4, h24, h32, -Nat.div_eq_zero_iff]

/-- What the nine rows decode to (R62 to R65), with the fields that have to be zero left out. -/
inductive DecodesTo (w : Packet) : Instr → Prop
  | nop (h : pktOpc w = 0) : DecodesTo w .nop
  | prepare (h : pktOpc w = 1) : DecodesTo w (.prepare (pktIdx w) (pktData w))
  | process (h : pktOpc w = 2) : DecodesTo w (.process (pktSel w / 4) (pktSel w % 4))
  | release (h : pktOpc w = 3) : DecodesTo w .release
  | wrp (h : pktOpc w = 4) : DecodesTo w (.wrp (pktSel w) (pktData w))
  | rdp (h : pktOpc w = 5) : DecodesTo w (.rdp (pktSel w))
  | wrb (h : pktOpc w = 6) : DecodesTo w (.wrb (chanOfBit (pktSel w % 2)) (pktIdx w) (pktData w))
  | rdb (h : pktOpc w = 7) : DecodesTo w (.rdb (chanOfBit (pktSel w % 2)) (pktIdx w))
  | rds (h : pktOpc w = 8) : DecodesTo w .rds

theorem needZero_eq_ok {zero : Bool} {m : String} {i j : Instr} : needZero zero m i = .ok j ↔ zero = true ∧ i = j := by
  cases zero <;> simp [needZero]

theorem needZero_eq_error {zero : Bool} {m : String} {i : Instr} {e : DecodeError} (h : needZero zero m i = .error e) :
    ¬ zero = true := by
  cases zero <;> simp_all [needZero]

/-- A packet that is an instruction matches a row, and the row says which instruction. -/
theorem decode_pkt_ok {w : Packet} {i : Instr} (h : decode (.pkt w) = .ok i) : MatchesRow w ∧ DecodesTo w i := by
  rw [matchesRow_iff]
  simp only [decode, decodePacket] at h
  split at h
  case h_10 => cases h
  all_goals
    rename_i hopc
    obtain ⟨hz, rfl⟩ := needZero_eq_ok.1 h
    refine ⟨by simpa [hopc, and_assoc] using hz, ?_⟩
    constructor
    exact hopc

/-- A packet that is no instruction matches no row (R73 (a)). -/
theorem decode_pkt_error {w : Packet} {e : DecodeError} (h : decode (.pkt w) = .error e) : ¬ MatchesRow w := by
  rw [matchesRow_iff]
  simp only [decode, decodePacket] at h
  split at h
  case h_10 => simp_all
  all_goals
    rename_i hopc
    simpa [hopc, and_assoc, -not_and] using needZero_eq_error h

/-! ### What a packet can do -/

/-- The cause an instruction is refused with, in the order of R183, none where it is not (60_exceptions.md R182). The
port is that of the packet in acceptance. No phase and no shaper is refused (R180). -/
def refusal (s : State) : Instr → Cause
  | .prepare n fs => if s.port = .control then .port else if badConfig n fs then .badConfig else .none
  | .process nout nin =>
    if s.port = .control then .port else if !legalLayout nin nout then .badLayout
    else if s.st = .uninit ∨ s.st = .released then .notPrepared else .none
  | .release => if s.port = .control then .port else .none
  | .wrp idx _ => if s.port = .audio then .port else if 9 < idx then .badIndex else .none
  | .rdp idx => if 9 < idx then .badIndex else .none
  | .wrb _ i _ | .rdb _ i =>
    if s.port = .control then .port else if s.st = .uninit ∨ s.nblk ≤ i then .badIndex else .none
  | _ => .none

/-- The state after a refusal: RDP and RDB are answered a draw (R181). -/
def refused (s : State) (i : Instr) : State :=
  match i with
  | .rdp _ | .rdb _ _ => raiseReadFault s (refusal s i)
  | _ => raiseFault s (refusal s i)

/-- The state in which an accepted PROCESS leaves the core (44_port_commands.md R162). -/
def blockStarted (s : State) (nin nout : Nat) : State :=
  enterPhase { s with busy := true, nin := nin, nout := nout, st := .processing, latchLeft := allParams } .latch

/-- What the nine packets do where they are not refused (R160 to R168). -/
inductive PacketEffect (s : State) : Instr → State → Prop
  | nop : PacketEffect s .nop s
  | prepare {n : Nat} {fs : F} (hc : badConfig n fs = false) : PacketEffect s (.prepare n fs) (prepareStream s n fs)
  | process {nout nin : Nat} (hl : legalLayout nin nout = true) (hst : s.st ≠ .uninit ∧ s.st ≠ .released) :
    PacketEffect s (.process nout nin) (blockStarted s nin nout)
  | releaseNothing (hst : s.st = .uninit) : PacketEffect s .release s
  | release (hst : s.st ≠ .uninit) : PacketEffect s .release (releaseStream s)
  | wrp {idx : Nat} {v : F} {p : Param} (hport : s.port = .control) (hp : paramOfIdx idx = some p) :
    PacketEffect s (.wrp idx v) { s with param := s.param.set p (clampParam p v) }
  | rdp {idx : Nat} {p : Param} (hp : paramOfIdx idx = some p) :
    PacketEffect s (.rdp idx) (respond s (s.param.get p))
  | wrb {c : Chan} {i : Nat} {v : F} (hi : i < s.nblk) : PacketEffect s (.wrb c i v) (writeBuf s c i v)
  | rdb {c : Chan} {i : Nat} : PacketEffect s (.rdb c i) (respond s (readBuf s c i))
  | rds : PacketEffect s .rds (respond s (statusWord s))

/-- The two ways a packet can end (R181: a refused packet has no other effect). -/
inductive PacketResult (s : State) (i : Instr) (t : State) : Prop
  | refused (hc : refusal s i ≠ .none) (ht : t = refused s i)
  | accepted (hc : refusal s i = .none) (he : PacketEffect s i t)

theorem execPrepare_result {n : Nat} {fs : F} {s t : State} (h : execPrepare n fs s = .next t) :
    PacketResult s (.prepare n fs) t := by
  unfold execPrepare at h
  split at h
  · exact .refused (by simp [refusal, *]) (by simp_all [refused, refusal])
  · split at h
    · exact .refused (by simp [refusal, *]) (by simp_all [refused, refusal])
    · obtain rfl := Host.Outcome.next.inj h
      exact .accepted (by simp [refusal, *]) (.prepare (by simp_all))

theorem execProcess_result {nout nin : Nat} {s t : State} (h : execProcess nout nin s = .next t) :
    PacketResult s (.process nout nin) t := by
  unfold execProcess at h
  split at h
  · exact .refused (by simp [refusal, *]) (by simp_all [refused, refusal])
  · split at h
    · exact .refused (by simp [refusal, *]) (by simp_all [refused, refusal])
    · split at h
      · exact .refused (by simp [refusal, *]) (by simp_all [refused, refusal])
      · obtain rfl := Host.Outcome.next.inj h
        exact .accepted (by simp [refusal, *]) (.process (by simp_all) (by simp_all))

theorem execRelease_result {s t : State} (h : execRelease s = .next t) : PacketResult s .release t := by
  unfold execRelease at h
  split at h
  · exact .refused (by simp [refusal, *]) (by simp_all [refused, refusal])
  · split at h
    all_goals obtain rfl := Host.Outcome.next.inj h
    · exact .accepted (by simp [refusal, *]) (.releaseNothing ‹_›)
    · exact .accepted (by simp [refusal, *]) (.release ‹_›)

theorem paramOfIdx_le {idx : Nat} {p : Param} (h : paramOfIdx idx = some p) : ¬ 9 < idx := by
  simp [← paramOfIdx_eq_none, h]

theorem execWrp_result {idx : Nat} {v : F} {s t : State} (h : execWrp idx v s = .next t) :
    PacketResult s (.wrp idx v) t := by
  unfold execWrp at h
  split at h
  · exact .refused (by simp [refusal, *]) (by simp_all [refused, refusal])
  · have hport : s.port = .control := by cases hp : s.port <;> simp_all
    split at h
    all_goals obtain rfl := Host.Outcome.next.inj h
    case h_1 hp =>
      rw [paramOfIdx_eq_none] at hp
      exact .refused (by simp [refusal, *]) (by simp [refused, refusal, *])
    case h_2 hp => exact .accepted (by simp [refusal, hport, paramOfIdx_le hp]) (.wrp hport hp)

theorem execRdp_result {idx : Nat} {s t : State} (h : execRdp idx s = .next t) : PacketResult s (.rdp idx) t := by
  unfold execRdp at h
  split at h
  all_goals obtain rfl := Host.Outcome.next.inj h
  case h_1 hp =>
    rw [paramOfIdx_eq_none] at hp
    exact .refused (by simp [refusal, *]) (by simp [refused, refusal, *])
  case h_2 hp => exact .accepted (by simp [refusal, paramOfIdx_le hp]) (.rdp hp)

theorem execWrb_result {c : Chan} {i : Nat} {v : F} {s t : State} (h : execWrb c i v s = .next t) :
    PacketResult s (.wrb c i v) t := by
  unfold execWrb at h
  split at h
  · exact .refused (by simp [refusal, *]) (by simp_all [refused, refusal])
  · split at h
    · exact .refused (by simp [refusal, *]) (by simp_all [refused, refusal])
    · obtain rfl := Host.Outcome.next.inj h
      exact .accepted (by simp [refusal, *]) (.wrb (by simp_all))

theorem execRdb_result {c : Chan} {i : Nat} {s t : State} (h : execRdb c i s = .next t) :
    PacketResult s (.rdb c i) t := by
  unfold execRdb at h
  split at h
  · exact .refused (by simp [refusal, *]) (by simp_all [refused, refusal])
  · split at h
    · exact .refused (by simp [refusal, *]) (by simp_all [refused, refusal])
    · obtain rfl := Host.Outcome.next.inj h
      exact .accepted (by simp [refusal, *]) .rdb

/-! ### What the phases and shapers do -/

/-- A step of a phase that works sample by sample: at a sample of channels `lo` to `hi - 1` it leaves `written` and goes
on, elsewhere it goes to the next phase (10_state.md R16). -/
def sampleStep (s : State) (lo hi lim : Nat) (written : State) (next : Phase) : State :=
  if atSample s lo hi lim then nextSample written hi lim next else enterPhase s next

/-- What CLEAR writes at a sample (43_filter_chain_block.md R141). -/
def clearWritten (s : State) : State := writeBuf s s.ch s.ix fZero

/-- What the oversampler makes of the sample at hand in UP (41_oversampler.md R102). -/
def upResult (s : State) : F × F × OsMem :=
  upSample Config.osAD Config.osAP (s.os.get s.ch) (readBuf s s.ch s.ix)

/-- What UP writes at a sample. -/
def upWritten (s : State) : State :=
  { writeWbuf (writeWbuf s s.ch (2 * s.ix) (upResult s).1) s.ch (2 * s.ix + 1) (upResult s).2.1 with
    os := s.os.set s.ch (upResult s).2.2 }

/-- What the oversampler makes of the wide pair at hand in DOWN (R103). -/
def downResult (s : State) : F × OsMem :=
  downSample Config.osAD Config.osAP (s.os.get s.ch) (readWbuf s s.ch (2 * s.ix)) (readWbuf s s.ch (2 * s.ix + 1))

/-- What DOWN writes at a sample. -/
def downWritten (s : State) : State :=
  { writeBuf s s.ch s.ix (downResult s).1 with os := s.os.set s.ch (downResult s).2 }

/-- The output and the new state words of the filter of role `r` at the sample at hand (R135). -/
def filterResult (s : State) (r : Role) : F × ZPair :=
  biquadStep (s.co.get r) ((s.z.get r).get s.ch) (readWbuf s s.ch s.ix)

/-- What a filter phase writes at a sample (43_filter_chain_block.md R136). -/
def filterWritten (s : State) (r : Role) : State :=
  { writeWbuf s s.ch s.ix (filterResult s r).1 with z := s.z.set r ((s.z.get r).set s.ch (filterResult s r).2) }

/-- What the last part of DIST writes at a sample (42_distortion.md R122 to R124). -/
def mixWritten (s : State) : State := { writeWbuf s s.ch s.ix (distOut s) with dstage := .gate }

/-- What the nine phases and three shapers do, a shaper as DIST on its turn does (30_encoding.md R69, R70). -/
inductive SequencerEffect (s : State) : Instr → State → Prop
  | latchExit (hb : Param.bypass ∈ s.latchLeft) : SequencerEffect s .latch (bypassExit (latchSlot s .bypass))
  | latchBypass (hb : Param.bypass ∈ s.latchLeft) : SequencerEffect s .latch (latchSlot s .bypass)
  | latchNone (hl : s.latchLeft = []) : SequencerEffect s .latch (endLatch s)
  | latchLast {p : Param} (hl : s.latchLeft = [p]) : SequencerEffect s .latch (endLatch (latchSlot s p))
  | latchOne {p : Param} (hb : Param.bypass ∉ s.latchLeft) (hlen : 2 ≤ s.latchLeft.length) :
    SequencerEffect s .latch { latchSlot s p with draws := s.draws + 1 }
  | clear : SequencerEffect s .clear (sampleStep s s.nin s.nout s.nblk (clearWritten s) .coef)
  | coef {co : PerRole Biquad} : SequencerEffect s .coef (enterPhase { s with co := co, draws := s.draws + 1 } .up)
  | up : SequencerEffect s .up (sampleStep s 0 s.nin s.nblk (upWritten s) .hpf)
  | hpf : SequencerEffect s .hpf (sampleStep s 0 s.nin (2 * s.nblk) (filterWritten s .hp) .mid)
  | mid : SequencerEffect s .mid (sampleStep s 0 s.nin (2 * s.nblk) (filterWritten s .mid) .dist)
  | distGate {clean : F} : SequencerEffect s .dist (distGate s clean)
  | distShape {d1 : F} : SequencerEffect s .dist (putShaped s d1)
  | distMix : SequencerEffect s .dist (sampleStep s 0 s.nin (2 * s.nblk) (mixWritten s) .lpf)
  | lpf : SequencerEffect s .lpf (sampleStep s 0 s.nin (2 * s.nblk) (filterWritten s .lp) .down)
  | down : SequencerEffect s .down (sampleStep s 0 s.nin s.nblk (downWritten s) .idle)
  | shapeWa {d1 : F} : SequencerEffect s .shapeWa (putShaped s d1)
  | shapeSa {d1 : F} : SequencerEffect s .shapeSa (putShaped s d1)
  | shapeBi {d1 : F} : SequencerEffect s .shapeBi (putShaped s d1)

theorem execLatch_effect {s t : State} (h : execLatch s = .next t) : SequencerEffect s .latch t := by
  unfold execLatch at h
  split at h
  · split at h
    all_goals obtain rfl := Host.Outcome.next.inj h
    · exact .latchExit ‹_›
    · exact .latchBypass ‹_›
  · split at h
    all_goals obtain rfl := Host.Outcome.next.inj h
    case h_1 hl => exact .latchNone hl
    case h_2 hl => exact .latchLast hl
    case h_3 hl => exact .latchOne ‹_› (by simp [hl])

theorem execClear_eq (s : State) :
    execClear s = .next (sampleStep s s.nin s.nout s.nblk (clearWritten s) .coef) := by
  simp only [execClear, sampleStep]
  split <;> rfl

theorem execUp_eq (s : State) : execUp s = .next (sampleStep s 0 s.nin s.nblk (upWritten s) .hpf) := by
  simp only [execUp, sampleStep]
  split <;> rfl

theorem execDown_eq (s : State) : execDown s = .next (sampleStep s 0 s.nin s.nblk (downWritten s) .idle) := by
  simp only [execDown, sampleStep]
  split <;> rfl

theorem execDist_effect {s t : State} (h : execDist s = .next t) : SequencerEffect s .dist t := by
  by_cases ha : atSample s 0 s.nin (2 * s.nblk) = true
  · rw [execDist, if_pos ha] at h
    split at h
    all_goals obtain rfl := Host.Outcome.next.inj h
    · exact .distGate
    · exact .distShape
    · have he : nextSample (mixWritten s) s.nin (2 * s.nblk) .lpf =
          sampleStep s 0 s.nin (2 * s.nblk) (mixWritten s) .lpf := by rw [sampleStep, if_pos ha]
      exact he ▸ .distMix
  · rw [execDist, if_neg ha] at h
    obtain rfl := Host.Outcome.next.inj h
    have he : enterPhase s .lpf = sampleStep s 0 s.nin (2 * s.nblk) (mixWritten s) .lpf := by rw [sampleStep, if_neg ha]
    exact he ▸ .distMix

/-- Everything an instruction can do: have a packet's result, or move a block in flight. -/
theorem exec_cases {i : Instr} {s t : State} (h : exec i s = .next t) : PacketResult s i t ∨ SequencerEffect s i t := by
  cases i
  case nop =>
    obtain rfl := Host.Outcome.next.inj h
    exact .inl (.accepted rfl .nop)
  case prepare => exact .inl (execPrepare_result h)
  case process => exact .inl (execProcess_result h)
  case release => exact .inl (execRelease_result h)
  case wrp => exact .inl (execWrp_result h)
  case rdp => exact .inl (execRdp_result h)
  case wrb => exact .inl (execWrb_result h)
  case rdb => exact .inl (execRdb_result h)
  case rds =>
    obtain rfl := Host.Outcome.next.inj h
    exact .inl (.accepted rfl .rds)
  case latch => exact .inr (execLatch_effect h)
  case clear =>
    obtain rfl := Host.Outcome.next.inj ((execClear_eq s).symm.trans h)
    exact .inr .clear
  case up =>
    obtain rfl := Host.Outcome.next.inj ((execUp_eq s).symm.trans h)
    exact .inr .up
  case dist => exact .inr (execDist_effect h)
  case down =>
    obtain rfl := Host.Outcome.next.inj ((execDown_eq s).symm.trans h)
    exact .inr .down
  all_goals
    obtain rfl := Host.Outcome.next.inj h
    exact .inr (by constructor)

/-- A packet's result is a packet's. -/
theorem PacketResult.isPacket {s t : State} {i : Instr} (h : PacketResult s i t) : Laws.codeFormat (encode i) = 0 := by
  obtain hc | ⟨-, he⟩ := h
  · cases i <;> first | rfl | exact absurd rfl hc
  · cases he <;> rfl

/-- Whatever a phase or a shaper does is an effect of it. -/
theorem exec_sequencer {s t : State} {i : Instr} (hi : Laws.codeFormat (encode i) ≠ 0) (h : exec i s = .next t) :
    SequencerEffect s i t :=
  (exec_cases h).resolve_left fun hp => hi hp.isPacket

/-- What a packet decodes to is a packet. -/
theorem decode_pkt_isPacket {w : Packet} {i : Instr} (h : decode (.pkt w) = .ok i) :
    Laws.codeFormat (encode i) = 0 := by
  cases (decode_pkt_ok h).2 <;> rfl

theorem exec_packet {s t : State} {i : Instr} (hi : Laws.codeFormat (encode i) = 0) (h : exec i s = .next t) :
    PacketResult s i t := by
  refine (exec_cases h).resolve_right fun he => ?_
  cases he <;> cases hi

/-- The phase that an instruction of the sequencer is a step of (R70; 42_distortion.md R124 for the shapers). -/
def instrPhase : Instr → Phase
  | .latch => .latch
  | .clear => .clear
  | .coef => .coef
  | .up => .up
  | .hpf => .hpf
  | .mid => .mid
  | .dist | .shapeWa | .shapeSa | .shapeBi => .dist
  | .lpf => .lpf
  | .down => .down
  | _ => .idle

/-- What the sequencer runs is no packet and a step of the phase it is in. -/
theorem sequencerCode_instr {s : State} {i : Instr} (h : decode (sequencerCode s) = .ok i) :
    Laws.codeFormat (encode i) ≠ 0 ∧ s.ph = instrPhase i := by
  obtain ⟨hph, -, rfl⟩ | ⟨-, hi⟩ := (decode_sequencerCode s i).1 h
  · rw [hph]
    cases s.type <;> exact ⟨by decide, rfl⟩
  · generalize s.ph = p at hi ⊢
    cases p <;> cases hi <;> exact ⟨by decide, rfl⟩

/-! ### Who writes the parameter bank and the fault registers -/

/-- From `s` to `t` the cause `c` was raised (60_exceptions.md R181): the first cause is kept; `.none` is no fault. -/
def Raised (s t : State) (c : Cause) : Prop :=
  (t.fault = true ↔ s.fault = true ∨ c ≠ .none) ∧ t.cause = if s.fault = true ∨ c = .none then s.cause else c

theorem raised_none {s t : State} : Raised s t .none ↔ t.fault = s.fault ∧ t.cause = s.cause := by
  simp [Raised, Bool.coe_iff_coe]

theorem raised_of_raiseFault {s t : State} {c : Cause} (hc : c ≠ .none) (hf : t.fault = (raiseFault s c).fault)
    (hcause : t.cause = (raiseFault s c).cause) : Raised s t c := by
  simp [Raised, hf, hcause, hc]

theorem refused_raised {s : State} {i : Instr} (hc : refusal s i ≠ .none) : Raised s (refused s i) (refusal s i) := by
  cases i <;> exact raised_of_raiseFault hc rfl rfl

theorem sampleStep_keeps {α : Type} (f : State → α) (hn : ∀ s hi lim p, f (nextSample s hi lim p) = f s)
    (he : ∀ s p, f (enterPhase s p) = f s) {s w : State} (hw : f w = f s) (lo hi lim : Nat) (next : Phase) :
    f (sampleStep s lo hi lim w next) = f s := by
  unfold sampleStep
  split
  · rw [hn, hw]
  · exact he s next

/-- The parameter bank and the fault registers. -/
def registers (s : State) : Params × Bool × Cause := (s.param, s.fault, s.cause)

/-- No phase and no shaper writes a parameter or a fault register (R180). -/
theorem sequencerEffect_registers {s t : State} {i : Instr} (h : SequencerEffect s i t) :
    registers t = registers s := by
  have hsample (w : State) (hw : registers w = registers s) (lo hi lim : Nat) (next : Phase) :
      registers (sampleStep s lo hi lim w next) = registers s :=
    sampleStep_keeps registers (by simp [registers]) (by simp [registers]) hw _ _ _ _
  cases h
  case latchExit | latchBypass | latchNone | latchLast | latchOne | coef =>
    simp [registers, bypassExit, endLatch]
  case clear | up | hpf | mid | distMix | lpf | down => exact hsample _ (by rfl) _ _ _ _
  all_goals rfl

/-- Of the packets WRP alone writes a parameter, and none writes a fault register where it is accepted. -/
theorem packetEffect_registers {s t : State} {i : Instr} (h : PacketEffect s i t) :
    t.fault = s.fault ∧ t.cause = s.cause ∧ (t.param = s.param ∨ s.port = .control ∧ ∃ idx v, i = .wrp idx v) := by
  cases h
  case wrp hport _ => exact ⟨rfl, rfl, .inr ⟨hport, _, _, rfl⟩⟩
  all_goals exact ⟨rfl, rfl, .inl rfl⟩

theorem refused_param (s : State) (i : Instr) : (refused s i).param = s.param := by
  cases i <;> rfl

/-- An instruction raises the cause it is refused with. -/
theorem exec_raised {s t : State} {i : Instr} (h : exec i s = .next t) : Raised s t (refusal s i) := by
  obtain (⟨hc, rfl⟩ | ⟨hc, he⟩) | he := exec_cases h
  · exact refused_raised hc
  · obtain ⟨hf, hcause, -⟩ := packetEffect_registers he
    rw [hc]
    exact raised_none.2 ⟨hf, hcause⟩
  · have hnone : refusal s i = .none := by cases he <;> rfl
    have hr := sequencerEffect_registers he
    simp only [registers, Prod.mk.injEq] at hr
    rw [hnone]
    exact raised_none.2 hr.2

/-- An instruction that changes the parameter bank is a WRP from the control port. -/
theorem exec_param {s t : State} {i : Instr} (h : exec i s = .next t) (hne : t.param ≠ s.param) :
    s.port = .control ∧ ∃ idx v, i = .wrp idx v := by
  obtain (⟨-, rfl⟩ | ⟨-, he⟩) | he := exec_cases h
  · exact absurd (refused_param s i) hne
  · exact (packetEffect_registers he).2.2.resolve_left hne
  · exact absurd (congrArg Prod.fst (sequencerEffect_registers he)) hne

/-! ### The cause of a packet -/

theorem legalLayout_eq_false_iff (nin nout : Nat) :
    legalLayout nin nout = false ↔ (nin, nout) ∉ [(1, 1), (1, 2), (2, 2)] := by
  rw [← Bool.not_eq_true, legalLayout_iff]
  simp

/-- The conditions of R182 on a packet's fields are those on which its instruction is refused. -/
theorem packetCause_of_decode {s : State} {p : Port} {w : Packet} {rest : List Input} {i : Instr}
    (h : decode (.pkt w) = .ok i) : packetCause s p w = refusal { s with inputs := rest, port := p } i := by
  obtain ⟨hrow, hd⟩ := decode_pkt_ok h
  have hrow' : ¬ ∀ r ∈ opcodeMap, w &&& r.mask ≠ r.pattern := by simpa [MatchesRow] using hrow
  rw [packetCause, if_neg hrow']
  cases hd
  case process hopc => cases p <;> simp only [refusal, Bool.not_eq_true', legalLayout_eq_false_iff] <;> simp [hopc]
  all_goals cases p <;> simp [refusal, *]

theorem packetCause_of_error {s : State} {p : Port} {w : Packet} {e : DecodeError} (h : decode (.pkt w) = .error e) :
    packetCause s p w = .illegalCmd := by
  have hrow : ∀ r ∈ opcodeMap, w &&& r.mask ≠ r.pattern := by simpa [MatchesRow] using decode_pkt_error h
  rw [packetCause, if_pos hrow]

/-! ### The step by what comes next -/

theorem nextTurn_packet {s : State} {p : Port} {w : Packet} {rest : List Input} (hin : s.inputs = .packet p w :: rest)
    (hfree : p = .audio → s.busy = false) : nextTurn s = .packet w { s with inputs := rest, port := p } := by
  cases p <;> simp [nextTurn, hin]
  exact hfree rfl

theorem step_packet_ok {s : State} {p : Port} {w : Packet} {rest : List Input} {i : Instr}
    (hin : s.inputs = .packet p w :: rest) (hfree : p = .audio → s.busy = false) (hd : decode (.pkt w) = .ok i) :
    step s = exec i { s with inputs := rest, port := p } := by
  simp only [step, nextTurn_packet hin hfree, hd]

theorem step_packet_error {s : State} {p : Port} {w : Packet} {rest : List Input} {e : DecodeError}
    (hin : s.inputs = .packet p w :: rest) (hfree : p = .audio → s.busy = false) (hd : decode (.pkt w) = .error e) :
    step s = .next (illegalPacket { s with inputs := rest, port := p }) := by
  simp only [step, nextTurn_packet hin hfree, hd]

theorem step_rst {s : State} {rest : List Input} (hin : s.inputs = .rst :: rest) :
    step s = .next (hardReset { s with inputs := rest }) := by
  simp only [step, nextTurn, hin]

theorem step_sequencer {s s1 : State} {i : Instr} (ht : nextTurn s = .sequencer s1) (hb : s1.busy = true)
    (hd : decode (sequencerCode s1) = .ok i) : step s = exec i s1 := by
  simp only [step, ht, hb, hd, if_true]

theorem step_waits {s s1 : State} (ht : nextTurn s = .sequencer s1) (hb : s1.busy = false) : step s = .next s1 := by
  simp [step, ht, hb]

theorem nextTurn_advance {s : State} {rest : List Input} (hin : s.inputs = .advance :: rest) :
    nextTurn s = .sequencer { s with inputs := rest } := by
  simp only [nextTurn, hin]

theorem nextTurn_nil {s : State} (hin : s.inputs = []) : nextTurn s = .sequencer s := by
  simp only [nextTurn, hin]

theorem nextTurn_audio_waits {s : State} {w : Packet} {rest : List Input} (hin : s.inputs = .packet .audio w :: rest)
    (hb : s.busy = true) : nextTurn s = .sequencer s := by
  simp only [nextTurn, hin, hb, if_true]

/-- Settles O6: each case is a turn of the sequencer, and taking an input off the list does not move its position. -/
theorem stepRunsSequencerPosition : Obligations.StepRunsSequencerPosition := by
  refine fun s => ⟨fun i hb hd => ⟨fun rest hin => ?_, fun hin => ?_, fun w rest hin => ?_⟩,
    fun hb => ⟨fun rest hin => ?_, fun hin => ?_⟩⟩
  · exact step_sequencer (nextTurn_advance hin) hb hd
  · exact step_sequencer (nextTurn_nil hin) hb hd
  · exact step_sequencer (nextTurn_audio_waits hin hb) hb hd
  · exact step_waits (nextTurn_advance hin) hb
  · exact step_waits (nextTurn_nil hin) hb

/-- The defaults are those of the parameter table (10_state.md R11). -/
theorem defaults_get_of_mem_parameterTable : ∀ r ∈ parameterTable, Params.defaults.get r.slot = r.dflt := by decide

/-- Settles O9: the fields of `State.reset` are written down there, and their STATUS is computed. -/
theorem resetStateHoldsSpecValues : Obligations.ResetStateHoldsSpecValues :=
  ⟨rfl, rfl, rfl, rfl, rfl, defaults_get_of_mem_parameterTable, rfl⟩

/-- Settles O10: the step is `hardReset`. -/
theorem resetInputAtAnyTime : Obligations.ResetInputAtAnyTime := fun _ _ hin =>
  ⟨_, step_rst hin, rfl, rfl, rfl, rfl, rfl, defaults_get_of_mem_parameterTable, rfl, rfl⟩

/-! ### STATUS -/

theorem getLsbD_bit1 (b : Bool) : (bit1 b).getLsbD 0 = b := by
  cases b <;> rfl

/-- Fields put side by side as in STATUS are read back at their places. -/
theorem append_fields (z : BitVec 20) (p c : BitVec 4) (f b : BitVec 1) (l : BitVec 2) :
    (z ++ p ++ c ++ f ++ b ++ l).extractLsb' 0 2 = l ∧ (z ++ p ++ c ++ f ++ b ++ l).getLsbD 2 = b.getLsbD 0 ∧
    (z ++ p ++ c ++ f ++ b ++ l).getLsbD 3 = f.getLsbD 0 ∧ (z ++ p ++ c ++ f ++ b ++ l).extractLsb' 4 4 = c ∧
    (z ++ p ++ c ++ f ++ b ++ l).extractLsb' 8 4 = p ∧ (z ++ p ++ c ++ f ++ b ++ l).extractLsb' 12 20 = z := by
  refine ⟨BitVec.extractLsb'_append_eq_right, ?_, ?_, ?_, ?_, ?_⟩
  · rw [BitVec.getLsbD_append, if_neg (by decide), BitVec.getLsbD_append, if_pos (by decide)]
  · rw [BitVec.getLsbD_append, if_neg (by decide), BitVec.getLsbD_append, if_neg (by decide), BitVec.getLsbD_append,
      if_pos (by decide)]
  · iterate 3 rw [BitVec.extractLsb'_append_eq_of_le (by decide)]
    exact BitVec.extractLsb'_append_eq_right
  · iterate 4 rw [BitVec.extractLsb'_append_eq_of_le (by decide)]
    exact BitVec.extractLsb'_append_eq_right
  · iterate 5 rw [BitVec.extractLsb'_append_eq_of_le (by decide)]
    exact BitVec.extractLsb'_eq_self

/-- STATUS read field by field (10_state.md R18). -/
theorem statusWord_fields (s : State) :
    (statusWord s).extractLsb' 0 2 = stCode s.st ∧ (statusWord s).getLsbD 2 = s.busy ∧
    (statusWord s).getLsbD 3 = s.fault ∧ (statusWord s).extractLsb' 4 4 = causeCode s.cause ∧
    (statusWord s).extractLsb' 8 4 = phCode s.ph ∧ (statusWord s).extractLsb' 12 20 = 0#20 := by
  obtain ⟨hst, hbusy, hfault, hrest⟩ :=
    append_fields 0#20 (phCode s.ph) (causeCode s.cause) (bit1 s.fault) (bit1 s.busy) (stCode s.st)
  exact ⟨hst, hbusy.trans (getLsbD_bit1 s.busy), hfault.trans (getLsbD_bit1 s.fault), hrest⟩

/-- Settles O19: RDS answers `statusWord`, and the code tables are finite. -/
theorem rdsAnswersStatus : Obligations.RdsAnswersStatus := by
  intro s
  obtain ⟨hst, hbusy, hfault, hcause, hph, hzero⟩ := statusWord_fields s
  exact ⟨statusWord s, rfl, hst, hbusy, hfault, hcause, hph, hzero, rfl, rfl, rfl⟩

/-! ### Faults and parameters over a step -/

/-- An accepted packet raises its cause, illegal or refused. -/
theorem step_packet_raised {s t : State} {p : Port} {w : Packet} {rest : List Input} (h : step s = .next t)
    (hin : s.inputs = .packet p w :: rest) (hfree : p = .audio → s.busy = false) : Raised s t (packetCause s p w) := by
  cases hd : decode (.pkt w) with
  | ok i =>
    rw [step_packet_ok hin hfree hd] at h
    rw [packetCause_of_decode hd]
    exact exec_raised h
  | error e =>
    rw [step_packet_error hin hfree hd] at h
    obtain rfl := Host.Outcome.next.inj h
    rw [packetCause_of_error hd]
    exact raised_of_raiseFault (by simp) rfl rfl

/-- What the sequencer runs leaves the parameter bank and the fault registers alone. -/
theorem sequencer_registers {s t : State} {rest : List Input} {i : Instr} (hd : decode (sequencerCode s) = .ok i)
    (h : exec i { s with inputs := rest } = .next t) : registers t = registers s :=
  (sequencerEffect_registers (exec_sequencer (sequencerCode_instr hd).1 h)).trans rfl

/-- A step other than reset raises the cause of the packet it accepts, or nothing. -/
theorem step_raised {s t : State} (h : step s = .next t) (hrst : ∀ rest, s.inputs ≠ .rst :: rest) :
    Raised s t .none ∨ ∃ p w rest, s.inputs = .packet p w :: rest ∧ (p = .audio → s.busy = false) ∧
      Raised s t (packetCause s p w) := by
  obtain ⟨rest, hin, -⟩ | ⟨p, w, rest, hin, hfree, -⟩ | ⟨rest, -, ⟨-, rfl⟩ | ⟨-, i, hd, he⟩⟩ := step_cases s t h
  · exact absurd hin (hrst rest)
  · exact .inr ⟨p, w, rest, hin, hfree, step_packet_raised h hin hfree⟩
  · exact .inl (raised_none.2 ⟨rfl, rfl⟩)
  · exact .inl (raised_none.2 (Prod.mk.inj (Prod.mk.inj (sequencer_registers hd he)).2))

theorem Raised.of_fault {s t : State} {c : Cause} (h : Raised s t c) (hf : s.fault = true) :
    t.fault = true ∧ t.cause = s.cause := by
  obtain ⟨hfault, hcause⟩ := h
  exact ⟨hfault.2 (.inl hf), by rw [hcause, if_pos (.inl hf)]⟩

theorem Raised.of_clear {s t : State} {c : Cause} (h : Raised s t c) (hf : s.fault = false) :
    (t.fault = true ↔ c ≠ .none) ∧ t.cause = if c = .none then s.cause else c := by
  simpa [Raised, hf] using h

/-- Settles O22: a step that is no reset raises one cause or none: a recorded fault stays, a new one is the packet's. -/
theorem firstCauseKept : Obligations.FirstCauseKept := by
  refine fun s t h hrst => ⟨fun hf => ?_, fun hf p w rest hin hfree => ?_, fun hf ht => ?_⟩
  · obtain hr | ⟨p, w, rest, -, -, hr⟩ := step_raised h hrst
    · exact hr.of_fault hf
    · exact hr.of_fault hf
  · exact (step_packet_raised h hin hfree).of_clear hf
  · obtain hr | ⟨p, w, rest, hin, hfree, hr⟩ := step_raised h hrst
    · exact absurd rfl ((hr.of_clear hf).1.1 ht)
    · obtain ⟨hiff, hcause⟩ := hr.of_clear hf
      exact ⟨p, w, rest, hin, hfree, by rw [hcause, if_neg (hiff.1 ht)]⟩

/-- Settles O25: of the instructions WRP alone writes the bank, and the sequencer runs none. -/
theorem onlyWrpWritesParameters : Obligations.OnlyWrpWritesParameters := by
  intro s t h hne
  obtain ⟨rest, hin, -⟩ | ⟨p, w, rest, hin, -, ⟨i, hd, he⟩ | ⟨e, -, rfl⟩⟩ | ⟨rest, -, ⟨-, rfl⟩ | ⟨-, i, hd, he⟩⟩ :=
    step_cases s t h
  · exact .inl ⟨rest, hin⟩
  · obtain ⟨rfl, idx, v, rfl⟩ := exec_param he hne
    exact .inr ⟨w, rest, idx, v, hin, hd⟩
  · exact absurd rfl hne
  · exact absurd rfl hne
  · exact absurd (congrArg Prod.fst (sequencer_registers hd he)) hne

/-! ### The invariant in two parts

`DataOk` is what an operation on the data keeps wherever the sequencer is; the position is kept apart, since entering a
phase makes a legal position of any state with a block in flight. -/

/-- The parts of the invariant that do not speak of the sequencer position. -/
structure DataOk (s : State) : Prop where
  mem : s.memOk
  param : s.param.inRange
  fault : s.faultOk
  config : s.configOk
  os : s.osOk

theorem inv_iff (s : State) : s.Inv ↔ DataOk s ∧ s.positionOk :=
  ⟨fun ⟨hmem, hparam, hfault, hconfig, hposition, hos⟩ => ⟨⟨hmem, hparam, hfault, hconfig, hos⟩, hposition⟩,
    fun ⟨⟨hmem, hparam, hfault, hconfig, hos⟩, hposition⟩ => ⟨hmem, hparam, hfault, hconfig, hposition, hos⟩⟩

/-! Memory -/

theorem bufAddr_lt {n : Nat} {c : Chan} {i : Nat} (hi : i < n) : bufAddr n c i < 2 * n := by
  cases c <;> simp only [bufAddr, chanIndex] <;> omega

theorem wbufAddr_lt {n : Nat} {c : Chan} {j : Nat} (hj : j < 2 * n) : wbufAddr n c j < wbufBase + 4 * n := by
  cases c <;> simp only [wbufAddr, chanIndex] <;> omega

theorem memOk_writeWord {s : State} {a : Nat} (h : s.memOk)
    (ha : a < 2 * s.nblk ∨ (wbufBase ≤ a ∧ a < wbufBase + 4 * s.nblk)) (v : F) : (writeWord s a v).memOk := by
  refine ⟨memWf_memStore _ _ _ h.1, fun e he => ?_⟩
  obtain rfl | he := mem_memStore_fst _ _ _ _ he
  · exact ha
  · exact h.2 e he

theorem DataOk.writeBuf {s : State} (h : DataOk s) {i : Nat} (hi : i < s.nblk) (c : Chan) (v : F) :
    DataOk (writeBuf s c i v) :=
  { h with mem := memOk_writeWord h.mem (.inl (bufAddr_lt hi)) v }

theorem DataOk.writeWbuf {s : State} (h : DataOk s) {j : Nat} (hj : j < 2 * s.nblk) (c : Chan) (v : F) :
    DataOk (writeWbuf s c j v) :=
  { h with mem := memOk_writeWord h.mem (.inr ⟨wbufBase_le_wbufAddr _ _ _, wbufAddr_lt hj⟩) v }

/-! Oversampler memories -/

theorem lengthsOk_zero : OsMem.zero.lengthsOk := by simp [OsMem.lengthsOk, OsMem.zero]

theorem lengthsOk_drawnOsMem (n : Nat) (c : Chan) : (drawnOsMem n c).lengthsOk := by
  simp [OsMem.lengthsOk, drawnOsMem]

theorem lengthsOk_upSample {m : OsMem} (h : m.lengthsOk) (ad ap : List F) (x : F) :
    (upSample ad ap m x).2.2.lengthsOk := by
  simpa [OsMem.lengthsOk, upSample, cascade_length] using h

theorem lengthsOk_downSample {m : OsMem} (h : m.lengthsOk) (ad ap : List F) (x y : F) :
    (downSample ad ap m x y).2.lengthsOk := by
  simpa [OsMem.lengthsOk, downSample, cascade_length] using h

theorem osOk_iff (s : State) : s.osOk ↔ ∀ c, (s.os.get c).lengthsOk :=
  ⟨fun ⟨h0, h1⟩ c => by cases c; exacts [h0, h1], fun h => ⟨h .c0, h .c1⟩⟩

theorem DataOk.setOs {s : State} (h : DataOk s) {m : OsMem} (hm : m.lengthsOk) (c : Chan) :
    DataOk { s with os := s.os.set c m } := by
  refine { h with os := (osOk_iff _).2 fun d => ?_ }
  by_cases hd : d = c
  · subst hd
    simpa using hm
  · simpa [PerChan.get_set_other _ _ _ _ hd] using (osOk_iff s).1 h.os d

/-! Parameters -/

theorem defaults_inRange : Params.defaults.inRange := by
  intro p
  cases p <;> decide

theorem paramBounds_ordered (p : Param) :
    isNaN (paramLo p) = false ∧ isNaN (paramHi p) = false ∧ flt (paramHi p) (paramLo p) = false := by
  cases p <;> decide

/-- What WRP stores is in range (44_port_commands.md R164). -/
theorem clampParam_inRange (p : Param) (v : F) : isNaN (clampParam p v) = false ∧
    flt (clampParam p v) (paramLo p) = false ∧ fgt (clampParam p v) (paramHi p) = false := by
  obtain ⟨hlo, hhi, horder⟩ := paramBounds_ordered p
  unfold clampParam
  split
  · exact ⟨hlo, flt_irrefl _, horder⟩
  · split
    · exact ⟨hhi, horder, flt_irrefl _⟩
    · simp_all

theorem inRange_set_clampParam {b : Params} (h : b.inRange) (p : Param) (v : F) :
    (b.set p (clampParam p v)).inRange := by
  intro q
  by_cases hq : q = p
  · subst hq
    simpa using clampParam_inRange q v
  · simpa [Params.get_set_other _ _ _ _ hq] using h q

/-! Faults -/

theorem DataOk.raiseFault {s : State} (h : DataOk s) {c : Cause} (hc : c ≠ .none) : DataOk (raiseFault s c) := by
  refine { h with fault := ?_ }
  have hf := h.fault
  cases hfault : s.fault <;> simp_all [State.faultOk]

theorem DataOk.refused {s : State} (h : DataOk s) {i : Instr} (hc : refusal s i ≠ .none) : DataOk (refused s i) := by
  have hr := h.raiseFault hc
  cases i <;> exact { hr with }

/-! The sequencer moves no data. -/

theorem DataOk.enterPhase {s : State} (h : DataOk s) (p : Phase) : DataOk (enterPhase s p) := by
  cases p <;> exact { h with }

theorem DataOk.nextSample {s : State} (h : DataOk s) (hi lim : Nat) (p : Phase) : DataOk (nextSample s hi lim p) := by
  obtain ⟨-, he⟩ | ⟨-, -, he⟩ | ⟨-, -, he⟩ := nextSample_cases s hi lim p <;> rw [he]
  · exact { h with }
  · exact { h with }
  · exact h.enterPhase p

/-! ### The position -/

/-- A block in flight on a prepared stream. -/
structure InFlight (s : State) : Prop where
  busy : s.busy = true
  st : s.st = .processing
  layout : legalLayout s.nin s.nout = true
  nblk : 0 < s.nblk

theorem InFlight.nin {s : State} (h : InFlight s) : 0 < s.nin := by
  have := (legalLayout_iff _ _).1 h.layout
  omega

theorem nblk_pos_of_configOk {s : State} (h : s.configOk) (hst : s.st ≠ .uninit) : 0 < s.nblk := by
  have := h hst
  simp only [badConfig, Bool.or_eq_false_iff, decide_eq_false_iff_not] at this
  omega

theorem inFlight_of_positionOk {s : State} (h : s.positionOk) (hb : s.busy = true) (hn : 0 < s.nblk) : InFlight s := by
  obtain ⟨hst, hl, -⟩ := h.2 hb
  exact ⟨hb, hst, hl, hn⟩

theorem inFlight_of_inv {s : State} (h : s.Inv) (hb : s.busy = true) : InFlight s := by
  obtain ⟨hd, hp⟩ := (inv_iff s).1 h
  have hst : s.st = .processing := (hp.2 hb).1
  exact inFlight_of_positionOk hp hb (nblk_pos_of_configOk hd.config (by simp [hst]))

theorem positionOk_of_idle {s : State} (hb : s.busy = false) (hp : s.ph = .idle) : s.positionOk :=
  ⟨by simp [hb, hp], fun h => by simp [hb] at h⟩

theorem phaseLimit_pos {s : State} (h : 0 < s.nblk) : 0 < s.phaseLimit := by
  unfold State.phaseLimit
  split <;> omega

/-- With a block in flight, entering any phase but LATCH gives a legal position. -/
theorem positionOk_enterPhase {s : State} (h : InFlight s) {p : Phase} (hp : p ≠ .latch) :
    (enterPhase s p).positionOk := by
  cases p
  case idle => exact positionOk_of_idle rfl rfl
  case latch => exact absurd rfl hp
  all_goals
    exact ⟨by simp [enterPhase, h.busy], fun _ => ⟨h.st, h.layout, phaseLimit_pos h.nblk,
      by simp [enterPhase, chanIndex, h.nin], by simp, fun _ => rfl⟩⟩

/-- Going on from a sample of a phase to the next, or to the next phase, gives a legal position. -/
theorem positionOk_nextSample {s : State} (hf : InFlight s) (h : s.positionOk) {hi lim : Nat} {next : Phase}
    (hlim : s.phaseLimit = lim) (hhi : s.ph = .clear ∨ hi = s.nin) (hph : s.ph ≠ .latch) (hnext : next ≠ .latch) :
    (nextSample s hi lim next).positionOk := by
  obtain ⟨hiff, hpos⟩ := h
  obtain ⟨hst, hl, hix, hch, -, hstage⟩ := hpos hf.busy
  obtain ⟨hlt, he⟩ | ⟨-, hlt, he⟩ | ⟨-, -, he⟩ := nextSample_cases s hi lim next <;> rw [he]
  · exact ⟨hiff, fun _ => ⟨hst, hl, hlim ▸ hlt, hch, fun hl => absurd hl hph, hstage⟩⟩
  · refine ⟨hiff, fun _ => ⟨hst, hl, Nat.zero_lt_of_lt hix, fun hc => ?_, fun hl => absurd hl hph, hstage⟩⟩
    have := hhi.resolve_left hc
    simp only [chanIndex]
    omega
  · exact positionOk_enterPhase hf hnext

/-- Inside DIST any part of a sample may come next. -/
theorem positionOk_dstage {s : State} (h : s.positionOk) (hph : s.ph = .dist) (d : DistStage) :
    ({ s with dstage := d } : State).positionOk := by
  obtain ⟨hiff, hpos⟩ := h
  refine ⟨hiff, fun hb => ?_⟩
  obtain ⟨hst, hl, hix, hch, hlatch, -⟩ := hpos hb
  exact ⟨hst, hl, hix, hch, hlatch, fun hne => absurd hph hne⟩

/-- A latch read that leaves a slot besides bypass leaves the position legal. -/
theorem positionOk_latchSlot {s : State} (h : s.positionOk) {p : Param}
    (hleft : s.ph = .latch → ∃ q ∈ s.latchLeft.erase p, q ≠ Param.bypass) : (latchSlot s p).positionOk := by
  obtain ⟨hiff, hpos⟩ := h
  refine ⟨hiff, fun hb => ?_⟩
  obtain ⟨hst, hl, hix, hch, hlatch, hstage⟩ := hpos hb
  exact ⟨hst, hl, hix, hch, fun hp => ⟨(hlatch hp).1.erase p, hleft hp⟩, hstage⟩

/-! ### Steps of the sequencer -/

/-- A state that differs from `s` in no field that a position to go on from is made of. -/
def SamePlace (s w : State) : Prop := w.busy = s.busy ∧ w.nblk = s.nblk ∧ w.nin = s.nin ∧ w.ph = s.ph

theorem inv_enterPhase {s : State} (hd : DataOk s) (hf : InFlight s) {p : Phase} (hp : p ≠ .latch) :
    (enterPhase s p).Inv :=
  (inv_iff _).2 ⟨hd.enterPhase p, positionOk_enterPhase hf hp⟩

/-- A step from sample to sample keeps the invariant if what it writes keeps the data and the position at the sample. -/
theorem inv_sampleStep {s w : State} (hs : s.Inv) (hb : s.busy = true) {lo hi lim : Nat} {next : Phase}
    (hdata : s.ix < lim → DataOk w) (hpos : w.positionOk) (hplace : SamePlace s w) (hlim : s.phaseLimit = lim)
    (hhi : s.ph = .clear ∨ hi = s.nin) (hph : s.ph ≠ .latch) (hnext : next ≠ .latch) :
    (sampleStep s lo hi lim w next).Inv := by
  have hf := inFlight_of_inv hs hb
  unfold sampleStep
  split
  · obtain ⟨-, -, hix⟩ := (atSample_iff _ _ _ _).1 ‹_›
    obtain ⟨hwb, hwn, hwin, hwph⟩ := hplace
    have hfw := inFlight_of_positionOk hpos (hwb.trans hb) (hwn ▸ hf.nblk)
    have hwlim : w.phaseLimit = lim := by rw [← hlim, State.phaseLimit, State.phaseLimit, hwph, hwn]
    exact (inv_iff _).2 ⟨(hdata hix).nextSample _ _ _,
      positionOk_nextSample hfw hpos hwlim (by rwa [hwph, hwin]) (by rwa [hwph]) hnext⟩
  · exact inv_enterPhase ((inv_iff s).1 hs).1 hf hnext

theorem dataOk_clearWritten {s : State} (h : DataOk s) (hix : s.ix < s.nblk) : DataOk (clearWritten s) :=
  h.writeBuf hix _ _

theorem dataOk_upWritten {s : State} (h : DataOk s) (hix : s.ix < s.nblk) : DataOk (upWritten s) := by
  have hlen := lengthsOk_upSample ((osOk_iff s).1 h.os s.ch) Config.osAD Config.osAP (readBuf s s.ch s.ix)
  have heven := h.writeWbuf (j := 2 * s.ix) (by omega) s.ch (upResult s).1
  have hodd := heven.writeWbuf (j := 2 * s.ix + 1) (by simp; omega) s.ch (upResult s).2.1
  exact hodd.setOs hlen s.ch

theorem dataOk_downWritten {s : State} (h : DataOk s) (hix : s.ix < s.nblk) : DataOk (downWritten s) :=
  (h.writeBuf hix s.ch (downResult s).1).setOs (lengthsOk_downSample ((osOk_iff s).1 h.os s.ch) _ _ _ _) s.ch

theorem dataOk_filterWritten {s : State} (h : DataOk s) (hix : s.ix < 2 * s.nblk) (r : Role) :
    DataOk (filterWritten s r) :=
  { h.writeWbuf hix s.ch (filterResult s r).1 with }

theorem dataOk_mixWritten {s : State} (h : DataOk s) (hix : s.ix < 2 * s.nblk) : DataOk (mixWritten s) :=
  { h.writeWbuf hix s.ch (distOut s) with }

/-- In LATCH, a read of one of several slots left leaves one besides bypass. -/
theorem exists_left_of_two {left : List Param} (hb : Param.bypass ∉ left) (hlen : 2 ≤ left.length) (p : Param) :
    ∃ q ∈ left.erase p, q ≠ Param.bypass := by
  have hpos : 0 < (left.erase p).length := by
    have := List.le_length_erase (l := left) (a := p)
    omega
  obtain ⟨q, hq⟩ := List.exists_mem_of_length_pos hpos
  exact ⟨q, hq, fun h => hb (h ▸ List.mem_of_mem_erase hq)⟩

theorem inv_bypassExit {s : State} (hd : DataOk s) (hf : InFlight s) : (bypassExit s).Inv :=
  inv_enterPhase (s := { s with latchLeft := [] }) { hd with } { hf with } (by simp)

theorem inv_endLatch {s : State} (hd : DataOk s) (hf : InFlight s) : (endLatch s).Inv :=
  inv_enterPhase (s := { s with type := typeCode s.l.distortionType }) { hd with } { hf with } (by simp)

theorem inv_latchBypass {s : State} (hs : s.Inv) (hb : s.busy = true) : (latchSlot s .bypass).Inv := by
  obtain ⟨hd, hp⟩ := (inv_iff s).1 hs
  obtain ⟨-, -, -, -, hlatch, -⟩ := hp.2 hb
  refine (inv_iff _).2 ⟨{ hd with }, positionOk_latchSlot hp fun hph => ?_⟩
  obtain ⟨-, q, hq, hne⟩ := hlatch hph
  exact ⟨q, (List.mem_erase_of_ne hne).2 hq, hne⟩

/-- Every phase and shaper keeps the invariant, run where the sequencer runs it. -/
theorem inv_sequencerEffect {s t : State} {i : Instr} (hs : s.Inv) (hb : s.busy = true) (hph : s.ph = instrPhase i)
    (h : SequencerEffect s i t) : t.Inv := by
  obtain ⟨hd, hp⟩ := (inv_iff s).1 hs
  have hf := inFlight_of_inv hs hb
  cases h
  case latchExit => exact inv_bypassExit { hd with } { hf with }
  case latchBypass => exact inv_latchBypass hs hb
  case latchNone => exact inv_endLatch hd hf
  case latchLast => exact inv_endLatch { hd with } { hf with }
  case latchOne p hbypass hlen =>
    exact (inv_iff _).2 ⟨{ hd with }, positionOk_latchSlot hp fun _ => exists_left_of_two hbypass hlen p⟩
  case coef => exact inv_enterPhase (p := .up) { hd with } { hf with } (by simp)
  case clear =>
    exact inv_sampleStep hs hb (dataOk_clearWritten hd) hp ⟨rfl, rfl, rfl, rfl⟩
      (by rw [State.phaseLimit, hph]; rfl) (.inl hph) (by simp [hph, instrPhase]) (by simp)
  case up =>
    exact inv_sampleStep hs hb (dataOk_upWritten hd) hp ⟨rfl, rfl, rfl, rfl⟩
      (by rw [State.phaseLimit, hph]; rfl) (.inr rfl) (by simp [hph, instrPhase]) (by simp)
  case hpf | mid | lpf =>
    exact inv_sampleStep hs hb (fun hix => dataOk_filterWritten hd hix _) hp ⟨rfl, rfl, rfl, rfl⟩
      (by rw [State.phaseLimit, hph]; rfl) (.inr rfl) (by simp [hph, instrPhase]) (by simp)
  case distMix =>
    exact inv_sampleStep hs hb (dataOk_mixWritten hd) (positionOk_dstage hp hph .gate) ⟨rfl, rfl, rfl, rfl⟩
      (by rw [State.phaseLimit, hph]; rfl) (.inr rfl) (by simp [hph, instrPhase]) (by simp)
  case down =>
    exact inv_sampleStep hs hb (dataOk_downWritten hd) hp ⟨rfl, rfl, rfl, rfl⟩
      (by rw [State.phaseLimit, hph]; rfl) (.inr rfl) (by simp [hph, instrPhase]) (by simp)
  case distGate => exact (inv_iff _).2 ⟨{ hd with }, positionOk_dstage hp hph .shape⟩
  all_goals exact (inv_iff _).2 ⟨{ hd with }, positionOk_dstage hp hph .mix⟩

/-! ### Packets, reset, every step -/

theorem inv_of_reset_values {s : State} (hst : s.st = .uninit) (hb : s.busy = false) (hph : s.ph = .idle)
    (hf : s.fault = false) (hc : s.cause = .none) (hparam : s.param = Params.defaults) (hmem : s.mem = [])
    (hos : s.osOk) : s.Inv := by
  refine (inv_iff s).2 ⟨⟨?_, hparam ▸ defaults_inRange, by simp [State.faultOk, hf, hc], fun h => absurd hst h, hos⟩,
    positionOk_of_idle hb hph⟩
  simp [State.memOk, hmem, memWf]

theorem inv_hardReset (s : State) : (hardReset s).Inv :=
  inv_of_reset_values rfl rfl rfl rfl rfl rfl rfl ⟨lengthsOk_drawnOsMem _ _, lengthsOk_drawnOsMem _ _⟩

/-- Settles O58: the values of R28 make every part hold, whatever the registers that R28 leaves open contain. -/
theorem resetSatisfiesInvariant : Obligations.ResetSatisfiesInvariant :=
  inv_of_reset_values rfl rfl rfl rfl rfl rfl rfl ⟨lengthsOk_zero, lengthsOk_zero⟩

theorem memOk_releaseStream {s : State} (h : s.memOk) : (releaseStream s).memOk :=
  ⟨memWf_filter _ _ h.1, fun e he => h.2 e (List.mem_of_mem_filter he)⟩

theorem inv_prepareStream {s : State} (h : DataOk s) {n : Nat} {fs : F} (hc : badConfig n fs = false) :
    (prepareStream s n fs).Inv :=
  (inv_iff _).2 ⟨{ h with
    mem := by simp [State.memOk, memWf]
    config := fun _ => hc
    os := ⟨lengthsOk_zero, lengthsOk_zero⟩ }, positionOk_of_idle rfl rfl⟩

theorem inv_releaseStream {s : State} (h : DataOk s) (hst : s.st ≠ .uninit) : (releaseStream s).Inv :=
  (inv_iff _).2 ⟨{ h with
    mem := memOk_releaseStream h.mem
    config := fun _ => h.config hst
    os := ⟨lengthsOk_zero, lengthsOk_zero⟩ }, positionOk_of_idle rfl rfl⟩

theorem inv_blockStarted {s : State} (h : DataOk s) (hst : s.st ≠ .uninit) {nin nout : Nat}
    (hl : legalLayout nin nout = true) : (blockStarted s nin nout).Inv := by
  refine (inv_iff _).2 ⟨{ h with config := fun _ => h.config hst }, by simp [blockStarted, enterPhase], fun _ => ?_⟩
  have hin : 0 < nin := by
    have := (legalLayout_iff _ _).1 hl
    omega
  have hnodup : allParams.Nodup := by decide
  have hdrive : Param.drive ∈ allParams := by decide
  exact ⟨rfl, hl, Nat.one_pos, fun _ => hin, fun _ => ⟨hnodup, .drive, hdrive, by decide⟩, fun _ => rfl⟩

/-- Every packet keeps the invariant. -/
theorem inv_packetResult {s t : State} {i : Instr} (hs : s.Inv) (h : PacketResult s i t) : t.Inv := by
  obtain ⟨hd, hp⟩ := (inv_iff s).1 hs
  obtain ⟨hc, rfl⟩ | ⟨-, he⟩ := h
  · exact (inv_iff _).2 ⟨hd.refused hc, by cases i <;> exact hp⟩
  · cases he
    case nop | releaseNothing => exact hs
    case prepare hc => exact inv_prepareStream hd hc
    case process hl hst => exact inv_blockStarted hd hst.1 hl
    case release hst => exact inv_releaseStream hd hst
    case wrp => exact (inv_iff _).2 ⟨{ hd with param := inRange_set_clampParam hd.param _ _ }, hp⟩
    case wrb hi => exact (inv_iff _).2 ⟨hd.writeBuf hi _ _, hp⟩
    case rdp | rdb | rds => exact (inv_iff _).2 ⟨{ hd with }, hp⟩

/-- Settles O57: taking an input off the list keeps the invariant, and so does whatever then runs. -/
theorem stepKeepsInvariant : Obligations.StepKeepsInvariant := by
  intro s t hs h
  obtain ⟨rest, -, rfl⟩ | ⟨p, w, rest, -, -, ⟨i, hd, he⟩ | ⟨e, -, rfl⟩⟩ | ⟨rest, -, ⟨-, rfl⟩ | ⟨hb, i, hd, he⟩⟩ :=
    step_cases s t h
  · exact inv_hardReset _
  · exact inv_packetResult (s := { s with inputs := rest, port := p }) hs (exec_packet (decode_pkt_isPacket hd) he)
  · obtain ⟨hdata, hpos⟩ := (inv_iff s).1 hs
    exact (inv_iff _).2 ⟨{ hdata.raiseFault (c := .illegalCmd) (by simp) with }, hpos⟩
  · exact hs
  · obtain ⟨hi, hph⟩ := sequencerCode_instr hd
    exact inv_sequencerEffect (s := { s with inputs := rest }) hs hb hph (exec_sequencer hi he)

section Channels

/-! ### Channels -/

/-- From `s` to `t` nothing of channel `c` changed: its memories, its filter state words and its words of both buffers,
at the addresses that the block size of `s` gives them. -/
structure ChannelKept (c : Chan) (s t : State) : Prop where
  os : t.os.get c = s.os.get c
  z : ∀ r : Role, (t.z.get r).get c = (s.z.get r).get c
  buf : ∀ j < s.nblk, readWord t (bufAddr s.nblk c j) = readWord s (bufAddr s.nblk c j)
  wbuf : ∀ j < 2 * s.nblk, readWord t (wbufAddr s.nblk c j) = readWord s (wbufAddr s.nblk c j)

variable {c : Chan} {s t w : State}

theorem ChannelKept.refl (c : Chan) (s : State) : ChannelKept c s s :=
  ⟨rfl, fun _ => rfl, fun _ _ => rfl, fun _ _ => rfl⟩

theorem ChannelKept.trans {u : State} (h : ChannelKept c s t) (h' : ChannelKept c t u) (hn : t.nblk = s.nblk) :
    ChannelKept c s u :=
  ⟨h'.os.trans h.os, fun r => (h'.z r).trans (h.z r),
    fun j hj => (hn ▸ h'.buf j (hn ▸ hj)).trans (h.buf j hj),
    fun j hj => (hn ▸ h'.wbuf j (hn ▸ hj)).trans (h.wbuf j hj)⟩

/-- A write to a word of the other channel's `BUF`. -/
theorem ChannelKept.writeBuf {d : Chan} {i : Nat} (hne : c ≠ d) (hmax : s.nblk ≤ Config.nblkMax) (hi : i < s.nblk)
    (v : F) : ChannelKept c s (writeBuf s d i v) where
  os := rfl
  z _ := rfl
  buf _ hj := readWord_writeWord_other _ _ _ _ fun h => hne (bufAddr_inj _ _ _ _ _ hj hi h).1
  wbuf j _ := readWord_writeWord_other _ _ _ _
    ((bufAddr_lt_wbufBase _ d i hmax hi).trans_le (wbufBase_le_wbufAddr _ c j)).ne'

/-- A write to a word of the other channel's `WBUF`. -/
theorem ChannelKept.writeWbuf {d : Chan} {j : Nat} (hne : c ≠ d) (hmax : s.nblk ≤ Config.nblkMax) (hj : j < 2 * s.nblk)
    (v : F) : ChannelKept c s (writeWbuf s d j v) where
  os := rfl
  z _ := rfl
  buf i hi := readWord_writeWord_other _ _ _ _
    ((bufAddr_lt_wbufBase _ c i hmax hi).trans_le (wbufBase_le_wbufAddr _ d j)).ne
  wbuf _ hi := readWord_writeWord_other _ _ _ _ fun h => hne (wbufAddr_inj _ _ _ _ _ hi hj h).1

theorem ChannelKept.setOs {d : Chan} (hne : c ≠ d) (m : OsMem) : ChannelKept c s { s with os := s.os.set d m } :=
  { ChannelKept.refl c s with os := PerChan.get_set_other _ _ _ _ hne }

theorem ChannelKept.setZ {d : Chan} (hne : c ≠ d) (r : Role) (z : ZPair) :
    ChannelKept c s { s with z := s.z.set r ((s.z.get r).set d z) } := by
  refine { ChannelKept.refl c s with z := fun q => ?_ }
  by_cases hq : q = r
  · subst hq
    simp [PerChan.get_set_other _ _ _ _ hne]
  · simp [PerRole.get_set_other _ _ _ _ hq]

/-- Moving the sequencer touches no channel. -/
theorem ChannelKept.nextSample (h : ChannelKept c s w) (hi lim : Nat) (p : Phase) :
    ChannelKept c s (nextSample w hi lim p) :=
  ⟨by simp [h.os], by simp [h.z], by simpa using h.buf, by simpa using h.wbuf⟩

theorem ChannelKept.sampleStep {lo hi lim : Nat} {next : Phase} (hw : s.ix < lim → ChannelKept c s w) :
    ChannelKept c s (sampleStep s lo hi lim w next) := by
  unfold StateRules.sampleStep
  split
  · obtain ⟨-, -, hix⟩ := (atSample_iff _ _ _ _).1 ‹_›
    exact (hw hix).nextSample hi lim next
  · exact ⟨by simp, by simp, by simp, by simp⟩

variable (hne : c ≠ s.ch) (hmax : s.nblk ≤ Config.nblkMax)
include hne hmax

theorem channelKept_upWritten (hix : s.ix < s.nblk) : ChannelKept c s (upWritten s) := by
  have hodd : 2 * s.ix + 1 < 2 * s.nblk := by omega
  have h1 := ChannelKept.writeWbuf hne hmax (Nat.lt_of_succ_lt hodd) (upResult s).1
  have h2 := h1.trans (.writeWbuf (s := writeWbuf s s.ch (2 * s.ix) (upResult s).1) hne hmax hodd (upResult s).2.1) rfl
  exact h2.trans (.setOs hne (upResult s).2.2) rfl

theorem channelKept_downWritten (hix : s.ix < s.nblk) : ChannelKept c s (downWritten s) :=
  (ChannelKept.writeBuf hne hmax hix (downResult s).1).trans (.setOs hne (downResult s).2) rfl

theorem channelKept_filterWritten (hix : s.ix < 2 * s.nblk) (r : Role) : ChannelKept c s (filterWritten s r) :=
  (ChannelKept.writeWbuf hne hmax hix (filterResult s r).1).trans (.setZ hne r (filterResult s r).2) rfl

theorem channelKept_mixWritten (hix : s.ix < 2 * s.nblk) : ChannelKept c s (mixWritten s) :=
  { ChannelKept.writeWbuf hne hmax hix (distOut s) with }

/-- A step of a phase that works on one channel leaves the other alone. -/
theorem channelKept_of_effect {i : Instr} (hi : i ∈ [Instr.up, .hpf, .mid, .dist, .lpf, .down])
    (h : SequencerEffect s i t) : ChannelKept c s t := by
  cases h
  case up => exact .sampleStep (channelKept_upWritten hne hmax)
  case down => exact .sampleStep (channelKept_downWritten hne hmax)
  case hpf | mid | lpf => exact .sampleStep fun hix => channelKept_filterWritten hne hmax hix _
  case distMix => exact .sampleStep (channelKept_mixWritten hne hmax)
  case distGate | distShape => exact { ChannelKept.refl c s with }
  all_goals simp at hi

end Channels

/-- Settles O59: what the phase does at a sample is written under `CH`, and the addresses of the two channels differ. -/
theorem channelsAreIndependent : Obligations.ChannelsAreIndependent := by
  intro i hi s c hne hmax
  obtain ⟨t, ht⟩ := exec_total i s
  have hseq : Laws.codeFormat (encode i) ≠ 0 := by fin_cases hi <;> decide
  obtain ⟨hos, hz, hbuf, hwbuf⟩ := channelKept_of_effect hne hmax hi (exec_sequencer hseq ht)
  exact ⟨t, ht, hos, hz, hbuf, hwbuf⟩

end Sys2Proof.StateRules

/-! The data space and the parameter bank as the two ports reach them (20_memory.md): the words of `BUF` and `WBUF`, what
a packet on the control port can touch, and the parameter bank against the latched copy of a block in flight. A state that
differs in its bank alone is written `withParam`; one read of LATCH is `SlotRead`, and the rest of LATCH is run by
induction on the slots left. -/

namespace Sys2Proof.MemoryRules

open Sys2Proof.Machine Sys2Proof.StateRules

/-! ### The words of the buffers -/

/-- What a word of `BUF` holds after a write to a word of `BUF` (20_memory.md R44). -/
theorem readBuf_writeBuf {s : State} {i j : Nat} (hi : i < s.nblk) (hj : j < s.nblk) (c d : Chan) (v : F) :
    readBuf (writeBuf s c i v) d j = if d = c ∧ j = i then v else readBuf s d j := by
  split
  · obtain ⟨rfl, rfl⟩ := ‹d = c ∧ j = i›
    exact readWord_writeWord_same s _ v
  · exact readWord_writeWord_other s _ _ v fun h => ‹¬ (d = c ∧ j = i)› (bufAddr_inj _ _ _ _ _ hj hi h)

theorem exec_wrb_accepted {s : State} {i : Nat} (hp : s.port = .audio) (hst : s.st ≠ .uninit) (hi : i < s.nblk)
    (c : Chan) (v : F) : exec (.wrb c i v) s = .next (writeBuf s c i v) := by
  simp [exec, execWrb, hp, hst, hi]

theorem exec_rdb_accepted {s : State} {i : Nat} (hp : s.port = .audio) (hst : s.st ≠ .uninit) (hi : i < s.nblk)
    (c : Chan) : exec (.rdb c i) s = .next (respond s (readBuf s c i)) := by
  simp [exec, execRdb, hp, hst, hi]

/-- Settles O20: both packets are accepted, and words of `BUF` with different names have different addresses. -/
theorem bufferReadsAfterWrite : Obligations.BufferReadsAfterWrite := by
  intro s c d i j v hp hst hi hj
  refine ⟨_, _, exec_wrb_accepted hp hst hi c v, exec_rdb_accepted (s := writeBuf s c i v) hp hst hj d, ?_⟩
  rw [readBuf_writeBuf hi hj, respond_resp, writeBuf_resp, writeBuf_port, hp]
  rfl

/-- Settles O21: the two addresses are injective in range, and `WBUF_BASE` separates the buffers. -/
theorem bufferAddressesAreDistinct : Obligations.BufferAddressesAreDistinct := by
  intro n c d i j
  refine ⟨by simp [bufAddr, chanIndex], by simp [bufAddr, chanIndex], by simp [wbufAddr, chanIndex, wbufBase],
    by simp [wbufAddr, chanIndex, wbufBase], bufAddr_inj n c d i j, wbufAddr_inj n c d i j, fun hn hi => ?_⟩
  exact (bufAddr_lt_wbufBase n c i hn hi).trans_le (wbufBase_le_wbufAddr n d j)

/-! ### The ports -/

/-- Settles O5: the packet's turn has come. -/
theorem stepRunsDecodedPacket : Obligations.StepRunsDecodedPacket := fun _ _ _ _ _ hin hfree hd =>
  step_packet_ok hin hfree hd

/-- From `s` to `t` nothing changed but the parameters, the fault registers, the responses and the count of draws. -/
def ControlEffect (s t : State) : Prop :=
  t = { s with param := t.param, fault := t.fault, cause := t.cause, resp := t.resp, draws := t.draws }

/-- A refusal writes the fault registers, and sends a draw where an answer is due (60_exceptions.md R181). -/
theorem controlEffect_refused (s : State) (i : Instr) : ControlEffect s (refused s i) := by
  cases i <;> rfl

/-- The packets that reach more than this are refused on the control port (R187). -/
theorem controlEffect_accepted {s t : State} {i : Instr} (hport : s.port = .control) (hc : refusal s i = .none)
    (h : PacketEffect s i t) : ControlEffect s t := by
  cases h
  case nop | wrp | rdp | rds => rfl
  all_goals simp [refusal, hport] at hc

/-- Settles O24: on the control port a packet is illegal, or refused, or one of the four that the port admits. -/
theorem controlPortReachesOnlyParameters : Obligations.ControlPortReachesOnlyParameters := by
  intro s t w rest hin h
  cases hd : decode (.pkt w) with
  | ok i =>
    rw [step_packet_ok hin (by simp) hd] at h
    obtain ⟨-, rfl⟩ | ⟨hc, he⟩ := exec_packet (decode_pkt_isPacket hd) h
    · exact controlEffect_refused _ i
    · exact controlEffect_accepted rfl hc he
  | error e =>
    rw [step_packet_error hin (by simp) hd] at h
    obtain rfl := Host.Outcome.next.inj h
    rfl

/-! ### A block in flight and the parameter bank -/

/-- The state with another parameter bank. -/
def withParam (b : Params) (s : State) : State := { s with param := b }

theorem enterPhase_withParam (b : Params) (s : State) (p : Phase) :
    enterPhase (withParam b s) p = withParam b (enterPhase s p) := by
  cases p <;> rfl

theorem nextSample_withParam (b : Params) (s : State) (hi lim : Nat) (p : Phase) :
    nextSample (withParam b s) hi lim p = withParam b (nextSample s hi lim p) := by
  unfold nextSample
  rw [enterPhase_withParam, apply_ite (withParam b), apply_ite (withParam b)]
  rfl

/-- A step from sample to sample does not see the bank if what it writes at the sample does not. -/
theorem sampleStep_withParam (b : Params) (s w : State) (lo hi lim : Nat) (next : Phase) :
    sampleStep (withParam b s) lo hi lim (withParam b w) next = withParam b (sampleStep s lo hi lim w next) := by
  unfold sampleStep
  rw [enterPhase_withParam, nextSample_withParam, apply_ite (withParam b)]
  rfl

/-- The instruction computes from the rest of the state and leaves the bank alone. -/
def IgnoresParam (i : Instr) : Prop :=
  ∀ (s : State) (b : Params), ∃ t, exec i s = .next t ∧ exec i (withParam b s) = .next (withParam b t)

/-- A phase that goes from sample to sample: its loop bounds and what it writes at a sample are read off the state. -/
theorem ignoresParam_of_sampleStep {i : Instr} {lo hi lim : State → Nat} {written : State → State} {next : Phase}
    (he : ∀ s, exec i s = .next (sampleStep s (lo s) (hi s) (lim s) (written s) next))
    (hlo : ∀ b s, lo (withParam b s) = lo s) (hhi : ∀ b s, hi (withParam b s) = hi s)
    (hlim : ∀ b s, lim (withParam b s) = lim s) (hw : ∀ b s, written (withParam b s) = withParam b (written s)) :
    IgnoresParam i := by
  intro s b
  refine ⟨_, he s, ?_⟩
  rw [he, hlo, hhi, hlim, hw, sampleStep_withParam]

theorem ignoresParam_filter {i : Instr} {r : Role} {next : Phase} (he : ∀ s, exec i s = .next (filterSample s r next)) :
    IgnoresParam i :=
  ignoresParam_of_sampleStep (lo := fun _ => 0) (hi := State.nin) (lim := fun s => 2 * s.nblk)
    (written := (filterWritten · r)) he (fun _ _ => rfl) (fun _ _ => rfl) (fun _ _ => rfl) fun _ _ => rfl

theorem ignoresParam_clear : IgnoresParam .clear :=
  ignoresParam_of_sampleStep (lo := State.nin) (hi := State.nout) (lim := State.nblk) (written := clearWritten)
    execClear_eq (fun _ _ => rfl) (fun _ _ => rfl) (fun _ _ => rfl) fun _ _ => rfl

theorem ignoresParam_up : IgnoresParam .up :=
  ignoresParam_of_sampleStep (lo := fun _ => 0) (hi := State.nin) (lim := State.nblk) (written := upWritten)
    execUp_eq (fun _ _ => rfl) (fun _ _ => rfl) (fun _ _ => rfl) fun _ _ => rfl

theorem ignoresParam_down : IgnoresParam .down :=
  ignoresParam_of_sampleStep (lo := fun _ => 0) (hi := State.nin) (lim := State.nblk) (written := downWritten)
    execDown_eq (fun _ _ => rfl) (fun _ _ => rfl) (fun _ _ => rfl) fun _ _ => rfl

/-! DIST at a sample is one of its three parts, by `dstage`, and nothing elsewhere (42_distortion.md R124). -/

theorem exec_dist_gate {s : State} (ha : atSample s 0 s.nin (2 * s.nblk) = true) (hd : s.dstage = .gate) :
    exec .dist s = .next (distGate s (readWbuf s s.ch s.ix)) := by
  simp only [exec, execDist, ha, hd, if_true]

theorem exec_dist_shape {s : State} (ha : atSample s 0 s.nin (2 * s.nblk) = true) (hd : s.dstage = .shape) :
    exec .dist s = .next (putShaped s (shapeByType s.type s.l.drive s.d0)) := by
  simp only [exec, execDist, ha, hd, if_true]

theorem exec_dist_mix {s : State} (ha : atSample s 0 s.nin (2 * s.nblk) = true) (hd : s.dstage = .mix) :
    exec .dist s = .next (nextSample (mixWritten s) s.nin (2 * s.nblk) .lpf) := by
  simp only [exec, execDist, ha, hd, if_true, mixWritten]

theorem exec_dist_elsewhere {s : State} (ha : ¬ atSample s 0 s.nin (2 * s.nblk) = true) :
    exec .dist s = .next (enterPhase s .lpf) := by
  simp only [exec, execDist, if_neg ha]

theorem ignoresParam_dist : IgnoresParam .dist := by
  intro s b
  by_cases ha : atSample s 0 s.nin (2 * s.nblk) = true
  · cases hd : s.dstage
    case gate => exact ⟨_, exec_dist_gate ha hd, exec_dist_gate (s := withParam b s) ha hd⟩
    case shape => exact ⟨_, exec_dist_shape ha hd, exec_dist_shape (s := withParam b s) ha hd⟩
    case mix =>
      refine ⟨_, exec_dist_mix ha hd, (exec_dist_mix (s := withParam b s) ha hd).trans ?_⟩
      exact congrArg _ (nextSample_withParam b (mixWritten s) s.nin (2 * s.nblk) .lpf)
  · exact ⟨_, exec_dist_elsewhere ha, exec_dist_elsewhere (s := withParam b s) ha⟩

/-- Settles O33: each phase after LATCH, and each shaper, works from `L`. -/
theorem latchedParametersHold : Obligations.LatchedParametersHold := by
  have hall : ∀ i ∈ [Instr.clear, .coef, .up, .hpf, .mid, .dist, .lpf, .down, .shapeWa, .shapeSa, .shapeBi],
      IgnoresParam i := by
    simp only [List.forall_mem_cons, List.not_mem_nil, false_implies, implies_true, and_true]
    exact ⟨ignoresParam_clear, fun _ _ => ⟨_, rfl, rfl⟩, ignoresParam_up, ignoresParam_filter fun _ => rfl,
      ignoresParam_filter fun _ => rfl, ignoresParam_dist, ignoresParam_filter fun _ => rfl, ignoresParam_down,
      fun _ _ => ⟨_, rfl, rfl⟩, fun _ _ => ⟨_, rfl, rfl⟩, fun _ _ => ⟨_, rfl, rfl⟩⟩
  exact hall

/-! ### A parameter write during LATCH

`SlotRead` is one read of LATCH after which the block goes on. That the slots not yet read can be read to the end
(`Latching.run`) holds of any bank, so a write before those reads only changes the bank they copy from. -/

/-- From `s` to `t` LATCH read slot `p` and the block went on (43_filter_chain_block.md R139): bypass is read first, and
after the last read of another slot CLEAR begins. -/
structure SlotRead (s : State) (p : Param) (t : State) : Prop where
  left : p ∈ s.latchLeft
  bypassFirst : Param.bypass ∈ s.latchLeft → p = .bypass
  l : t.l = s.l.set p (s.param.get p)
  latchLeft : t.latchLeft = s.latchLeft.erase p
  param : t.param = s.param
  busy : t.busy = s.busy
  inputs : t.inputs = s.inputs
  last : p ≠ .bypass → s.latchLeft.length = 1 → t.ph = .clear
  more : p = .bypass ∨ s.latchLeft.length ≠ 1 → t.ph = s.ph

/-- The bypass read does not end the block (R140). -/
def GoesOn (s : State) : Prop := Param.bypass ∈ s.latchLeft → fgt s.param.bypass 0x3F000000#32 = false

theorem exec_latch_bypass {s : State} (hb : Param.bypass ∈ s.latchLeft) :
    exec .latch s = .next (if fgt s.param.bypass 0x3F000000#32 = true then bypassExit (latchSlot s .bypass)
      else latchSlot s .bypass) := by
  rw [apply_ite Host.Outcome.next]
  exact if_pos hb

theorem slotRead_bypass {s : State} (hb : Param.bypass ∈ s.latchLeft) : SlotRead s .bypass (latchSlot s .bypass) :=
  ⟨hb, fun _ => rfl, rfl, rfl, rfl, rfl, rfl, fun h => absurd rfl h, fun _ => rfl⟩

theorem slotRead_last {s : State} {p : Param} (hl : s.latchLeft = [p]) (hp : p ≠ .bypass) :
    SlotRead s p (endLatch (latchSlot s p)) where
  left := by simp [hl]
  bypassFirst hb := by simp_all
  l := rfl
  latchLeft := rfl
  param := rfl
  busy := rfl
  inputs := rfl
  last _ _ := rfl
  more h := by simp_all

theorem slotRead_one {s : State} {p : Param} (hp : p ∈ s.latchLeft) (hb : Param.bypass ∉ s.latchLeft)
    (hlen : s.latchLeft.length ≠ 1) : SlotRead s p { latchSlot s p with draws := s.draws + 1 } :=
  ⟨hp, fun h => absurd h hb, rfl, rfl, rfl, rfl, rfl, fun _ h => absurd h hlen, fun _ => rfl⟩

/-- With a slot left, LATCH reads one; which one is open (log 14). -/
theorem exists_slotRead {s : State} (hne : s.latchLeft ≠ []) (hgo : GoesOn s) :
    ∃ p t, exec .latch s = .next t ∧ SlotRead s p t := by
  by_cases hb : Param.bypass ∈ s.latchLeft
  · refine ⟨.bypass, _, exec_latch_bypass hb, ?_⟩
    simpa [hgo hb] using slotRead_bypass hb
  · match hl : s.latchLeft with
    | [] => exact absurd hl hne
    | [p] =>
      have hp : p ≠ .bypass := fun h => hb (by simp [hl, h])
      exact ⟨p, _, by simp [exec, execLatch, hl, hp.symm], slotRead_last hl hp⟩
    | p :: q :: ps =>
      have hpick : Config.latchPick s.draws % s.latchLeft.length < s.latchLeft.length :=
        Nat.mod_lt _ (by simp [hl])
      refine ⟨s.latchLeft.getD (Config.latchPick s.draws % s.latchLeft.length) p, _, ?_,
        slotRead_one (by rw [List.getD_eq_getElem _ _ hpick]; exact List.getElem_mem hpick) hb (by simp [hl])⟩
      rw [exec, execLatch, if_neg hb]
      simp only [hl]

theorem decode_latch {s : State} (hph : s.ph = .latch) : decode (sequencerCode s) = .ok .latch :=
  (decode_sequencerCode s .latch).2 (.inr ⟨by simp [hph], by rw [hph]; rfl⟩)

/-- What `L` holds after the rest of LATCH, said from before and from after a read of it. -/
theorem SlotRead.copied {s t : State} {p : Param} (h : SlotRead s p t) {l : Params}
    (hl : ∀ q, l.get q = if q ∈ t.latchLeft then t.param.get q else t.l.get q) (q : Param) :
    l.get q = if q ∈ s.latchLeft then s.param.get q else s.l.get q := by
  have hmem : q ∈ s.latchLeft ↔ q = p ∨ q ∈ t.latchLeft := by
    rw [(List.perm_cons_erase h.left).mem_iff, List.mem_cons, h.latchLeft]
  rw [hl, h.param, h.l, if_congr hmem rfl rfl]
  by_cases hq : q = p
  · simp [hq]
  · simp [hq, Params.get_set_other]

/-- A block in LATCH that CLEAR follows, with nothing to come between the reads. -/
structure Latching (s : State) : Prop where
  busy : s.busy = true
  ph : s.ph = .latch
  inputs : s.inputs = []
  slot : ∃ q ∈ s.latchLeft, q ≠ Param.bypass
  goesOn : GoesOn s

/-- A read that is not the last one leaves such a block. -/
theorem Latching.of_slotRead {s t : State} {p : Param} (h : Latching s) (hr : SlotRead s p t)
    (hmore : p = .bypass ∨ s.latchLeft.length ≠ 1) : Latching t where
  busy := hr.busy.trans h.busy
  ph := (hr.more hmore).trans h.ph
  inputs := hr.inputs.trans h.inputs
  slot := by
    rw [hr.latchLeft]
    by_cases hp : p = .bypass
    · obtain ⟨q, hq, hne⟩ := h.slot
      exact ⟨q, (List.mem_erase_of_ne (hp ▸ hne)).2 hq, hne⟩
    · have hpos := List.length_pos_of_mem hr.left
      have hlen := hmore.resolve_left hp
      exact exists_left_of_two (fun hb => hp (hr.bypassFirst hb)) (by omega) p
  goesOn hb := by
    rw [hr.param]
    exact h.goesOn (List.mem_of_mem_erase (hr.latchLeft ▸ hb))

/-- The rest of LATCH takes one step for each slot left and copies these slots. -/
theorem Latching.run {n : Nat} : ∀ {s : State}, Latching s → s.latchLeft.length = n →
    ∃ t : State, Sys2Proof.core.run n s = .next t ∧ t.param = s.param ∧ t.ph = .clear ∧
      ∀ q, t.l.get q = if q ∈ s.latchLeft then s.param.get q else s.l.get q := by
  induction n with
  | zero =>
    intro s h hn
    obtain ⟨q, hq, -⟩ := h.slot
    simp [List.length_eq_zero_iff.1 hn] at hq
  | succ n ih =>
    intro s h hn
    obtain ⟨p, t, hexec, hr⟩ := exists_slotRead (List.ne_nil_of_length_eq_add_one hn) h.goesOn
    have hstep : step s = .next t := (step_sequencer (nextTurn_nil h.inputs) h.busy (decode_latch h.ph)).trans hexec
    have hlen : t.latchLeft.length = n := by rw [hr.latchLeft, List.length_erase_of_mem hr.left, hn, Nat.add_sub_cancel]
    rw [run_succ n s t hstep]
    by_cases hmore : p = .bypass ∨ s.latchLeft.length ≠ 1
    · obtain ⟨u, hrun, hparam, hph, hl⟩ := ih (h.of_slotRead hr hmore) hlen
      exact ⟨u, hrun, hparam.trans hr.param, hph, hr.copied hl⟩
    · obtain ⟨hp, hone⟩ := not_or.1 hmore
      obtain rfl : n = 0 := by omega
      have hnil : t.latchLeft = [] := List.length_eq_zero_iff.1 hlen
      exact ⟨t, rfl, hr.param, hr.last hp (not_not.1 hone), hr.copied (by simp [hnil])⟩

/-- The packet is a WRP of a slot, of a word that is stored as it is. -/
def Writes (w : Packet) (p : Param) (v : F) : Prop :=
  ∃ idx, decode (.pkt w) = .ok (.wrp idx v) ∧ paramOfIdx idx = some p ∧ clampParam p v = v

/-- The rows of the parameter table are the slots of the model (10_state.md R11). -/
theorem parameterTable_slot : ∀ r ∈ parameterTable,
    paramOfIdx r.idx = some r.slot ∧ paramLo r.slot = r.lo ∧ paramHi r.slot = r.hi := by decide

/-- A word in the range of a row is stored as it is (44_port_commands.md R164). -/
theorem writes_of_row {w : Packet} {r : ParamRow} {v : F} (hr : r ∈ parameterTable)
    (hd : decode (.pkt w) = .ok (.wrp r.idx v)) (hn : isNaN v = false) (hlo : flt v r.lo = false)
    (hhi : fgt v r.hi = false) : Writes w r.slot v := by
  obtain ⟨hidx, hlo', hhi'⟩ := parameterTable_slot r hr
  exact ⟨r.idx, hd, hidx, by simp [clampParam, hlo', hhi', hn, hlo, hhi]⟩

/-- The state after a WRP that was the last input. -/
def slotWritten (s : State) (p : Param) (v : F) : State :=
  { s with inputs := [], port := .control, param := s.param.set p v }

theorem step_writes {s : State} {w : Packet} {p : Param} {v : F} (h : Writes w p v)
    (hin : s.inputs = [.packet .control w]) : step s = .next (slotWritten s p v) := by
  obtain ⟨idx, hd, hidx, hclamp⟩ := h
  rw [step_packet_ok hin (by simp) hd]
  simp [exec, execWrp, hidx, hclamp, slotWritten]

/-- A write to another slot than bypass, or once bypass is read, lets the block go on. -/
theorem goesOn_slotWritten {s : State} {p : Param} (h : GoesOn s) (hp : Param.bypass ∈ s.latchLeft → p ≠ .bypass)
    (v : F) : GoesOn (slotWritten s p v) := by
  intro hb
  have hget : (slotWritten s p v).param.bypass = s.param.bypass := Params.get_set_other s.param p .bypass v (hp hb).symm
  rw [hget]
  exact h hb

theorem run_two {s t u : State} (hst : step s = .next t) (htu : step t = .next u) :
    Sys2Proof.core.run 2 s = .next u := by
  rw [run_succ 1 s t hst, run_succ 0 t u htu]
  rfl

section BeforeAndAfter

variable {s : State} {w : Packet} {p : Param} {v : F}
variable (hw : Writes w p v) (hbusy : s.busy = true) (hph : s.ph = .latch)
include hw hbusy hph

/-- The write first, then the rest of LATCH: what is left to be read is read from the new bank. -/
theorem run_write_latch (hslot : ∃ q ∈ s.latchLeft, q ≠ Param.bypass) (hgo : GoesOn s)
    (hp : Param.bypass ∈ s.latchLeft → p ≠ .bypass) :
    ∃ t : State, Sys2Proof.core.run (1 + s.latchLeft.length) { s with inputs := [.packet .control w] } = .next t ∧
      t.param = s.param.set p v ∧ t.ph = .clear ∧
      ∀ q, t.l.get q = if q ∈ s.latchLeft then (s.param.set p v).get q else s.l.get q := by
  rw [Nat.add_comm, run_succ _ _ _ (step_writes hw rfl)]
  exact Latching.run (s := slotWritten s p v) ⟨hbusy, hph, rfl, hslot, goesOn_slotWritten hgo hp v⟩ rfl

/-- A write of bypass first, then the bypass read: the new word decides whether the block ends (R140). -/
theorem run_write_bypass (hb : p ∈ s.latchLeft) (hp : p = .bypass) :
    ∃ t : State, Sys2Proof.core.run 2 { s with inputs := [.packet .control w] } = .next t ∧
      t.l.get p = v ∧ t.param.get p = v ∧ (t.busy = false ↔ fgt v 0x3F000000#32 = true) := by
  subst hp
  have hread : step (slotWritten s .bypass v) = exec .latch (slotWritten s .bypass v) :=
    step_sequencer (nextTurn_nil rfl) hbusy (decode_latch hph)
  refine ⟨_, run_two (step_writes hw rfl) (hread.trans (exec_latch_bypass hb)), ?_⟩
  have hv : (slotWritten s .bypass v).param.bypass = v := rfl
  rw [hv]
  split
  · exact ⟨rfl, rfl, iff_of_true rfl ‹_›⟩
  · exact ⟨rfl, rfl, iff_of_false (by simp [slotWritten, hbusy]) ‹_›⟩

/-- A read first, then the write. -/
theorem run_read_write {t : State} (hread : exec .latch { s with inputs := [.packet .control w] } = .next t)
    (hin : t.inputs = [.packet .control w]) :
    Sys2Proof.core.run 2 { s with inputs := [.advance, .packet .control w] } = .next (slotWritten t p v) :=
  have hturn := nextTurn_advance (s := { s with inputs := [.advance, .packet .control w] }) rfl
  run_two ((step_sequencer hturn hbusy (decode_latch hph)).trans hread) (step_writes hw hin)

/-- After a read and then a write, a slot that is not left holds the old word, and the slot is not left where no other
could be read. -/
theorem run_read_write_slot (hleft : p ∈ s.latchLeft) (hnodup : s.latchLeft.Nodup) (hgo : p ≠ .bypass → GoesOn s) :
    ∃ u : State, Sys2Proof.core.run 2 { s with inputs := [.advance, .packet .control w] } = .next u ∧
      u.param.get p = v ∧ (p ∉ u.latchLeft → u.l.get p = s.param.get p) ∧
      (s.latchLeft = [p] ∨ p = .bypass → p ∉ u.latchLeft) ∧
      (s.latchLeft = [p] → p ≠ .bypass → u.ph = .clear) := by
  by_cases hexit : Param.bypass ∈ s.latchLeft ∧ fgt s.param.bypass 0x3F000000#32 = true
  · obtain ⟨hb, hgt⟩ := hexit
    obtain rfl : p = .bypass := by
      by_contra hne
      simp [hgo hne hb] at hgt
    have hread := exec_latch_bypass (s := { s with inputs := [.packet .control w] }) hb
    rw [if_pos hgt] at hread
    exact ⟨_, run_read_write hw hbusy hph hread rfl, rfl, fun _ => rfl, fun _ => List.not_mem_nil,
      fun _ hne => absurd rfl hne⟩
  · have hgo' : GoesOn s := fun hb => Bool.eq_false_iff.2 fun hgt => hexit ⟨hb, hgt⟩
    obtain ⟨q, t, hread, hr⟩ :=
      exists_slotRead (s := { s with inputs := [.packet .control w] }) (List.ne_nil_of_mem hleft) hgo'
    refine ⟨_, run_read_write hw hbusy hph hread hr.inputs, ?_, fun hnot => ?_, fun hpq => ?_, fun hl hp => ?_⟩
    · exact Params.get_set_same _ p v
    · obtain rfl : p = q := by
        by_contra hne
        exact hnot (hr.latchLeft ▸ (List.mem_erase_of_ne hne).2 hleft)
      exact (congrArg (Params.get · p) hr.l).trans (Params.get_set_same _ p _)
    · obtain rfl : q = p := by
        obtain hl | rfl := hpq
        · exact List.mem_singleton.1 (hl ▸ hr.left)
        · exact hr.bypassFirst hleft
      exact hr.latchLeft ▸ hnodup.not_mem_erase
    · obtain rfl : q = p := List.mem_singleton.1 (hl ▸ hr.left)
      exact hr.last hp (congrArg List.length hl)

end BeforeAndAfter

/-- Settles O32: the rest of LATCH reads the bank as it is after the write, and a read before the write has its word. -/
theorem latchReadAgainstWrite : Obligations.LatchReadAgainstWrite := by
  intro s w r v hr hd hn hlo hhi hbusy hph hnodup
  have hw := writes_of_row hr hd hn hlo hhi
  refine ⟨fun hleft hne hgo => ?_, run_write_bypass hw hbusy hph, fun hread hslot hgo => ?_, fun hleft hgo => ?_⟩
  · obtain ⟨t, hrun, hparam, hclear, hl⟩ := run_write_latch hw hbusy hph ⟨r.slot, hleft, hne⟩ hgo fun _ => hne
    exact ⟨t, hrun, by simp [hl, hleft], by simp [hparam], hclear⟩
  · obtain ⟨t, hrun, hparam, hclear, hl⟩ :=
      run_write_latch hw hbusy hph hslot hgo fun hb heq => hread (heq ▸ hb)
    exact ⟨t, hrun, by simp [hl, hread], by simp [hparam], hclear⟩
  · exact run_read_write_slot hw hbusy hph hleft hnodup fun hne hb => hgo hb hne

end Sys2Proof.MemoryRules

/-! The encodings (30_encoding.md): packets, phase codes and type codes against the instructions they stand for, the opcode
map as the criterion of what decodes, and the type code of a latched `distortionType` (R68). -/

namespace Sys2Proof.EncodingRules

open Sys2Proof.Machine Sys2Proof.StateRules Sys2Proof.Arithmetic

/-! ### Well-formed instructions are read back (R61 to R65, R69, R70) -/

/-- The four fields of a packet made of fields that fit (R61). -/
theorem fields_mkPacket (opc : Nat) {sel idx : Nat} (data : F) (ho : opc < 16) (hs : sel < 16) (hi : idx < 2 ^ 24) :
    pktOpc (mkPacket opc sel idx data) = opc ∧ pktSel (mkPacket opc sel idx data) = sel ∧
    pktIdx (mkPacket opc sel idx data) = idx ∧ pktData (mkPacket opc sel idx data) = data :=
  ⟨pktOpc_mkPacket opc sel idx data ho hs hi, pktSel_mkPacket opc sel idx data hs hi,
    pktIdx_mkPacket opc sel idx data hi, pktData_mkPacket opc sel idx data⟩

/-- A channel's bit is bit 0 of `SEL`, and the other bits are zero (R63). -/
theorem chanBit_fields (c : Chan) : chanBit c < 16 ∧ chanBit c / 2 = 0 ∧ chanOfBit (chanBit c % 2) = c := by
  cases c <;> decide

/-- Settles O1: each row's operands fit their fields, and the fields of the packet give them back. -/
theorem decodeInvertsEncode : Obligations.DecodeInvertsEncode := by
  intro i hwf
  cases i
  case prepare n fs =>
    have hn : n < 2 ^ 24 := by simpa [Instr.wellFormed] using hwf
    obtain ⟨hopc, hsel, hidx, hdata⟩ := fields_mkPacket 1 fs (by decide) (by decide : 0 < 16) hn
    simp [encode, decode, decodePacket, needZero, hopc, hsel, hidx, hdata]
  case process nout nin =>
    obtain ⟨hnout, hnin⟩ : nout < 4 ∧ nin < 4 := by simpa [Instr.wellFormed] using hwf
    have hdiv : (nout * 4 + nin) / 4 = nout := by omega
    have hmod : (nout * 4 + nin) % 4 = nin := by omega
    obtain ⟨hopc, hsel, hidx, hdata⟩ :=
      fields_mkPacket 2 0#32 (by decide) (by omega : nout * 4 + nin < 16) (by decide : 0 < 2 ^ 24)
    simp only [encode, decode, decodePacket, needZero, hopc, hsel, hidx, hdata, hdiv, hmod]
    rfl
  case wrp idx v =>
    have hlt : idx < 16 := by simpa [Instr.wellFormed] using hwf
    obtain ⟨hopc, hsel, hidx, hdata⟩ := fields_mkPacket 4 v (by decide) hlt (by decide : 0 < 2 ^ 24)
    simp [encode, decode, decodePacket, needZero, hopc, hsel, hidx, hdata]
  case rdp idx =>
    have hlt : idx < 16 := by simpa [Instr.wellFormed] using hwf
    obtain ⟨hopc, hsel, hidx, hdata⟩ := fields_mkPacket 5 0#32 (by decide) hlt (by decide : 0 < 2 ^ 24)
    simp [encode, decode, decodePacket, needZero, hopc, hsel, hidx, hdata]
  case wrb c n v =>
    have hn : n < 2 ^ 24 := by simpa [Instr.wellFormed] using hwf
    obtain ⟨hlt, hhigh, hlow⟩ := chanBit_fields c
    obtain ⟨hopc, hsel, hidx, hdata⟩ := fields_mkPacket 6 v (by decide) hlt hn
    simp [encode, decode, decodePacket, needZero, hopc, hsel, hidx, hdata, hhigh, hlow, -Nat.div_eq_zero_iff]
  case rdb c n =>
    have hn : n < 2 ^ 24 := by simpa [Instr.wellFormed] using hwf
    obtain ⟨hlt, hhigh, hlow⟩ := chanBit_fields c
    obtain ⟨hopc, hsel, hidx, hdata⟩ := fields_mkPacket 7 0#32 (by decide) hlt hn
    simp [encode, decode, decodePacket, needZero, hopc, hsel, hidx, hdata, hhigh, hlow, -Nat.div_eq_zero_iff]
  all_goals rfl

/-- Settles O3: each printed word is the code of the instruction it stands for. -/
theorem printedWordsDecode : Obligations.PrintedWordsDecode :=
  ⟨decodeInvertsEncode (.prepare 512 0x472C4400#32) rfl, decodeInvertsEncode (.process 2 1) rfl,
    decodeInvertsEncode (.wrp 9 0x3F800000#32) rfl, decodeInvertsEncode (.wrb .c1 3 0x3F000000#32) rfl,
    decodeInvertsEncode (.rdb .c0 0) rfl, decodeInvertsEncode .mid rfl, decodeInvertsEncode .shapeBi rfl⟩

/-! ### What decodes has one code (R61 to R65, R69, R70) -/

theorem pktSel_lt (w : Packet) : pktSel w < 16 := (w.extractLsb' 56 4).isLt

theorem pktIdx_lt (w : Packet) : pktIdx w < 2 ^ 24 := (w.extractLsb' 32 24).isLt

/-- A packet is its four fields (R61). -/
theorem mkPacket_fields (w : Packet) : mkPacket (pktOpc w) (pktSel w) (pktIdx w) (pktData w) = w := by
  have hw := w.isLt
  apply BitVec.eq_of_toNat_eq
  rw [mkPacket_toNat, pktOpc_toNat, pktSel_toNat, pktIdx_toNat, pktData_toNat]
  omega

theorem mkPacket_eq {w : Packet} {opc sel idx : Nat} {data : F} (hopc : pktOpc w = opc) (hsel : pktSel w = sel)
    (hidx : pktIdx w = idx) (hdata : pktData w = data) : mkPacket opc sel idx data = w := by
  rw [← hopc, ← hsel, ← hidx, ← hdata, mkPacket_fields]

/-- A `SEL` of 0 or 1 is the bit of the channel it names (R63). -/
theorem chanBit_chanOfBit {sel : Nat} (h : sel / 2 = 0) : chanBit (chanOfBit (sel % 2)) = sel := by
  obtain rfl | rfl : sel = 0 ∨ sel = 1 := by omega
  · rfl
  · rfl

/-- The fields that a packet's instruction does not show are zero, so the instruction gives the packet. -/
theorem encode_of_decode_pkt {w : Packet} {i : Instr} (h : decode (.pkt w) = .ok i) :
    i.wellFormed = true ∧ encode i = .pkt w := by
  obtain ⟨hrow, hd⟩ := decode_pkt_ok h
  rw [matchesRow_iff] at hrow
  have hsel := pktSel_lt w
  have hidx := pktIdx_lt w
  cases hd <;> rename_i hopc <;>
    simp only [hopc, Nat.reduceEqDiff, false_and, true_and, false_or, or_false] at hrow
  case nop | release | rds =>
    obtain ⟨hsel0, hidx0, hdata0⟩ := hrow
    exact ⟨rfl, congrArg Code.pkt (mkPacket_eq hopc hsel0 hidx0 hdata0)⟩
  case prepare => exact ⟨decide_eq_true hidx, congrArg Code.pkt (mkPacket_eq hopc hrow rfl rfl)⟩
  case process =>
    obtain ⟨hidx0, hdata0⟩ := hrow
    refine ⟨?_, congrArg Code.pkt (mkPacket_eq hopc (Nat.div_add_mod' _ 4).symm hidx0 hdata0)⟩
    simp only [Instr.wellFormed, Bool.and_eq_true, decide_eq_true_eq]
    omega
  case wrp => exact ⟨decide_eq_true hsel, congrArg Code.pkt (mkPacket_eq hopc rfl hrow rfl)⟩
  case rdp =>
    obtain ⟨hidx0, hdata0⟩ := hrow
    exact ⟨decide_eq_true hsel, congrArg Code.pkt (mkPacket_eq hopc rfl hidx0 hdata0)⟩
  case wrb =>
    exact ⟨decide_eq_true hidx, congrArg Code.pkt (mkPacket_eq hopc (chanBit_chanOfBit hrow).symm rfl rfl)⟩
  case rdb =>
    obtain ⟨hhigh, hdata0⟩ := hrow
    exact ⟨decide_eq_true hidx, congrArg Code.pkt (mkPacket_eq hopc (chanBit_chanOfBit hhigh).symm rfl hdata0)⟩

theorem encode_of_decode_ph {code : BitVec 4} {i : Instr} (h : decode (.ph code) = .ok i) :
    i.wellFormed = true ∧ encode i = .ph code := by
  simp only [decode, decodePhase] at h
  split at h
  case h_10 => cases h
  all_goals
    rename_i hcode
    obtain rfl := Except.ok.inj h
    exact ⟨rfl, congrArg Code.ph (BitVec.eq_of_toNat_eq hcode.symm)⟩

theorem encode_of_decode_type {code : BitVec 2} {i : Instr} (h : decode (.type code) = .ok i) :
    i.wellFormed = true ∧ encode i = .type code := by
  simp only [decode, decodeType] at h
  split at h
  case h_4 => cases h
  all_goals
    rename_i hcode
    obtain rfl := Except.ok.inj h
    exact ⟨rfl, congrArg Code.type (BitVec.eq_of_toNat_eq hcode.symm)⟩

/-- Settles O2: an instruction of each format gives the code it was read from. -/
theorem encodeInvertsDecode : Obligations.EncodeInvertsDecode := by
  intro c i h
  cases c with
  | pkt w => exact encode_of_decode_pkt h
  | ph code => exact encode_of_decode_ph h
  | type code => exact encode_of_decode_type h

/-! ### The opcode map (R62, R73) -/

/-- Each row fixes all four bits of `OPC`, to its own opcode below 9. -/
theorem opcodeMap_opc : ∀ r ∈ opcodeMap, r.mask.extractLsb' 60 4 = BitVec.allOnes 4 ∧
    r.pattern.extractLsb' 60 4 = BitVec.ofNat 4 r.opc ∧ r.opc < 9 := by decide

/-- No two rows have one opcode. -/
theorem opcodeMap_opc_inj : ∀ r ∈ opcodeMap, ∀ q ∈ opcodeMap, r.opc = q.opc → r = q := by decide

theorem pktOpc_of_row {w : Packet} {r : OpcodeRow} (hr : r ∈ opcodeMap) (h : w &&& r.mask = r.pattern) :
    pktOpc w = r.opc := by
  obtain ⟨hmask, hpattern, hlt⟩ := opcodeMap_opc r hr
  obtain ⟨hopc, -⟩ := (and_eq_iff w r.mask r.pattern).1 h
  rw [hmask, hpattern, BitVec.and_allOnes] at hopc
  exact (pktOpc_eq_iff w r.opc (by omega)).2 hopc

/-- The row that a packet matches is the one of its opcode. -/
theorem row_iff {w : Packet} {r : OpcodeRow} (hr : r ∈ opcodeMap) :
    w &&& r.mask = r.pattern ↔ pktOpc w = r.opc ∧ MatchesRow w := by
  refine ⟨fun h => ⟨pktOpc_of_row hr h, r, hr, h⟩, fun ⟨hopc, q, hq, h⟩ => ?_⟩
  obtain rfl := opcodeMap_opc_inj r hr q hq (hopc.symm.trans (pktOpc_of_row hq h))
  exact h

/-- The opcode map says which packets are instructions. -/
theorem matchesRow_iff_decodes (w : Packet) : MatchesRow w ↔ ∃ i, decode (.pkt w) = .ok i := by
  cases hd : decode (.pkt w) with
  | ok i => exact iff_of_true (decode_pkt_ok hd).1 ⟨i, rfl⟩
  | error e => exact iff_of_false (decode_pkt_error hd) (by simp)

theorem not_matchesRow_iff (w : Packet) : ¬ MatchesRow w ↔ ∃ e, decode (.pkt w) = .error e := by
  rw [matchesRow_iff_decodes]
  cases decode (.pkt w) <;> simp

theorem forall_rows_ne_iff (w : Packet) : (∀ r ∈ opcodeMap, w &&& r.mask ≠ r.pattern) ↔ ¬ MatchesRow w := by
  simp [MatchesRow]

/-- Settles O4: a row is selected by its opcode, and what the map selects is what decodes. -/
theorem opcodeMapSelectsRow : Obligations.OpcodeMapSelectsRow := by
  refine fun w => ⟨fun r hr => ?_, fun r hr q hq hwr hwq => ?_, ?_, fun hopc => ?_⟩
  · rw [row_iff hr, matchesRow_iff_decodes]
  · exact opcodeMap_opc_inj r hr q hq ((pktOpc_of_row hr hwr).symm.trans (pktOpc_of_row hq hwq))
  · rw [forall_rows_ne_iff, not_matchesRow_iff]
  · refine (not_matchesRow_iff w).1 fun ⟨r, hr, h⟩ => ?_
    have hlt := (opcodeMap_opc r hr).2.2
    have := pktOpc_of_row hr h
    omega

/-- Settles O8: the packet does not decode, and the step takes the fault. -/
theorem illegalPacketFaults : Obligations.IllegalPacketFaults := by
  intro s p w rest hin hfree hrow
  obtain ⟨e, hd⟩ := (not_matchesRow_iff w).1 ((forall_rows_ne_iff w).1 hrow)
  exact step_packet_error hin hfree hd

/-! ### The sequencer position (R69, R70) -/

/-- Away from the shaper's turn the position decodes to the instruction of its phase. -/
theorem decode_position_phase {s : State} {p : Phase} {i : Instr} (hph : s.ph = p) (hi : phaseInstr p = some i)
    (hturn : p = .dist → s.dstage ≠ .shape) : decode (sequencerCode s) = .ok i := by
  subst hph
  exact (decode_sequencerCode s i).2 (.inr ⟨fun ⟨hdist, hshape⟩ => hturn hdist hshape, hi⟩)

/-- On the shaper's turn the position decodes to the shaper of `TYPE`. -/
theorem decode_position_shaper {s : State} {t : Shaper} (hph : s.ph = .dist) (hturn : s.dstage = .shape)
    (ht : s.type = t) : decode (sequencerCode s) = .ok (shaperInstr t) :=
  (decode_sequencerCode s _).2 (.inl ⟨hph, hturn, by rw [ht]⟩)

/-- Settles O7: nine phases and three shapers, by the phase and by the shaper's turn. -/
theorem sequencerPositionNamesItsRow : Obligations.SequencerPositionNamesItsRow := by
  refine fun s => ⟨?latch, ?clear, ?coef, ?up, ?hpf, ?mid, ?dist, ?wa, ?sa, ?bi, ?lpf, ?down⟩
  case dist => exact fun hph hturn => decode_position_phase hph rfl fun _ => hturn
  case wa | sa | bi => exact decode_position_shaper
  all_goals exact fun hph => decode_position_phase hph rfl nofun

/-! ### The type code (R68) -/

/-- One more in the exponent of a normal word doubles its units. -/
theorem magUnits_add_exponent {n : Nat} (h : 2 ^ 23 ≤ n) : magUnits (n + 2 ^ 23) = 2 * magUnits n := by
  obtain ⟨j, q, hq, hj, rfl⟩ := exists_binade n
  have hq23 : 2 ^ 23 ≤ q := by omega
  rw [show j * 2 ^ 23 + q + 2 ^ 23 = (j + 1) * 2 ^ 23 + q by ring, magUnits_binade (j + 1) q hq.le (.inl hq23),
    magUnits_binade j q hq.le (.inl hq23), pow_succ]
  ring

/-- The positive finite word with a magnitude. -/
theorem positive_word {n : Nat} (hn : n < 0x7F800000) :
    fmag (fpack false n) = n ∧ isFinite (fpack false n) = true ∧ units (fpack false n) = magUnits n := by
  have hm : fmag (fpack false n) = n := fmag_fpack false n (by omega)
  exact ⟨hm, (isFinite_iff_fmag_lt _).2 (by rwa [hm]), by rw [units_eq_magUnits, hm]⟩

/-- A product with 2.0 keeps the sign and is no NaN. -/
theorem fmul_two_shape {v : F} (hv : isNaN v = false) :
    fsign (fmul v f2) = fsign v ∧ isNaN (fmul v f2) = false := by
  obtain h | h | h := word_trichotomy v
  · simp [hv] at h
  · rw [fmul_of_inf v f2 (.inl h) hv (by decide) (not_isZero_of_isInf h) (by decide), fsign_fpack]
    exact ⟨by cases fsign v <;> decide, by cases fsign v <;> decide⟩
  · rw [fmul_of_finite v f2 h (by decide), fsign_fpack]
    refine ⟨by cases fsign v <;> decide, ?_⟩
    have := roundMag_le (units v * units f2) 149
    simp only [isNaN, fmag_fpack_roundMag, decide_eq_false_iff_not]
    omega

/-- Twice a word against a bound with the next exponent is the word against the bound, overflow included: rounding is
monotone, and the bound and the word below it are doubled exactly. -/
theorem fmag_fmul_two_lt_iff {v : F} (hv : isNaN v = false) {p : Nat} (hp : 2 ^ 23 < p)
    (hinf : p + 2 ^ 23 < 0x7F800000) : fmag (fmul v f2) < p + 2 ^ 23 ↔ fmag v < p := by
  have htwo : units f2 = 2 * 2 ^ 149 := by decide
  obtain h | h | h := word_trichotomy v
  · simp [hv] at h
  · rw [fmul_of_inf v f2 (.inl h) hv (by decide) (not_isZero_of_isInf h) (by decide), fmag_of_isInf h,
      fmag_fpack _ _ (by decide)]
    omega
  · refine ⟨fun hlt => ?_, fun hlt => ?_⟩
    · by_contra hge
      have hmono : magUnits p ≤ magUnits (fmag v) := magUnits_strictMono.monotone (by omega)
      obtain ⟨hmag, hfin, hunits⟩ := positive_word hinf
      have hle := word_le_fmul v f2 _ h (by decide) hfin (by
        rw [hunits, magUnits_add_exponent hp.le, units_eq_magUnits v, htwo]
        omega)
      omega
    · have hmono : magUnits (fmag v) ≤ magUnits (p - 1) := magUnits_strictMono.monotone (by omega)
      obtain ⟨hmag, hfin, hunits⟩ := positive_word (show p - 1 + 2 ^ 23 < 0x7F800000 by omega)
      have hle := fmag_fmul_le v f2 _ h (by decide) hfin (by
        rw [hunits, magUnits_add_exponent (by omega), units_eq_magUnits v, htwo]
        omega)
      omega

/-- Rounded to whole numbers, a magnitude is at least 1 from 0.5 on and at least 2 from 1.5 on. -/
theorem roundHaz_of_pos {t : F} (hs : fsign t = false) :
    (roundHaz t ≤ 0 ↔ fmag t < 0x3F000000) ∧ (roundHaz t ≤ 1 ↔ fmag t < 0x3FC00000) := by
  have hr : roundHaz t = roundedUnits (units t) := by simp [roundHaz, hs, roundedUnits]
  have hhalf : magUnits 0x3F000000 = 2 ^ 148 := by decide
  have honehalf : magUnits 0x3FC00000 = 3 * 2 ^ 148 := by decide
  rw [hr, ← magUnits_strictMono.lt_iff_lt (a := fmag t), ← magUnits_strictMono.lt_iff_lt (a := fmag t), hhalf, honehalf,
    ← units_eq_magUnits, roundedUnits]
  omega

theorem roundHaz_of_neg {t : F} (hs : fsign t = true) : roundHaz t ≤ 0 := by
  simp only [roundHaz, hs, if_true]
  omega

/-- A word that is no NaN against a positive word. -/
theorem flt_pos_iff {v c : F} (hv : isNaN v = false) (hc : isNaN c = false) (hs : fsign c = false) (h0 : 0 < fmag c) :
    flt v c = true ↔ fsign v = true ∨ fmag v < fmag c := by
  rw [flt_iff_orderKey hv hc]
  cases hsv : fsign v <;> simp [orderKey, hs, hsv]
  omega

theorem typeCode_of_isNaN {v : F} (h : isNaN v = true) : typeCode v = .wa := by
  simp [typeCode, (nanResult_of_isNaN v f2 (.inl h)).2.2.1, isNaN_nanResult]

/-- The type code by sign and magnitude of twice the word: below 0.5, below 1.5, above. -/
theorem typeCode_of_double {v : F} (hv : isNaN v = false) :
    typeCode v = if fsign v = true ∨ fmag (fmul v f2) < 0x3F000000 then .wa
      else if fmag (fmul v f2) < 0x3FC00000 then .sa else .bi := by
  obtain ⟨hs, hn⟩ := fmul_two_shape hv
  unfold typeCode
  rw [← hs]
  generalize fmul v f2 = t at hn ⊢
  cases hst : fsign t <;> cases hinf : isInf t
  · obtain ⟨hzero, hone⟩ := roundHaz_of_pos hst
    simp only [hn, hst, hinf, Bool.false_eq_true, if_false, false_or, ← hzero, ← hone]
    split
    · rfl
    · rw [if_congr (by omega : roundHaz t = 1 ↔ roundHaz t ≤ 1) rfl rfl]
  · simp [hn, hst, hinf, fmag_of_isInf hinf]
  · simp [hn, hinf, roundHaz_of_neg hst]
  · simp [hn, hst, hinf]

/-- The thresholds 0.25 and 0.75 are those of `ROUND_HAZ` with the exponent one lower. -/
theorem typeCode_of_not_isNaN {v : F} (hv : isNaN v = false) :
    typeCode v = if fsign v = true ∨ fmag v < 0x3E800000 then .wa else if fmag v < 0x3F400000 then .sa else .bi := by
  have hquarter := fmag_fmul_two_lt_iff hv (p := 0x3E800000) (by decide) (by decide)
  have hthree := fmag_fmul_two_lt_iff hv (p := 0x3F400000) (by decide) (by decide)
  simp only [typeCode_of_double hv, ← hquarter, ← hthree]
  rfl

/-- Settles O30: doubling keeps each side of the thresholds, and `ROUND_HAZ` does the rest. -/
theorem typeCodeThresholds : Obligations.TypeCodeThresholds := by
  intro v
  have hquarter (hv : isNaN v = false) : flt v 0x3E800000#32 = true ↔ fsign v = true ∨ fmag v < 0x3E800000 :=
    flt_pos_iff hv (by decide) (by decide) (by decide)
  have hthree (hv : isNaN v = false) : flt v 0x3F400000#32 = true ↔ fsign v = true ∨ fmag v < 0x3F400000 :=
    flt_pos_iff hv (by decide) (by decide) (by decide)
  refine ⟨typeCode_of_isNaN, fun hv hlow => ?_, fun hv hlow hmid => ?_, fun hv hmid => ?_, rfl⟩
  · rw [typeCode_of_not_isNaN hv, if_pos ((hquarter hv).1 hlow)]
  · rw [← Bool.not_eq_true, hquarter hv] at hlow
    rw [typeCode_of_not_isNaN hv, if_neg hlow, if_pos (((hthree hv).1 hmid).resolve_left fun h => hlow (.inl h))]
  · rw [← Bool.not_eq_true, hthree hv, not_or] at hmid
    obtain ⟨hpos, hge⟩ := hmid
    rw [typeCode_of_not_isNaN hv, if_neg (by rintro (h | h); exacts [hpos h, hge (by omega)]), if_neg hge]

end Sys2Proof.EncodingRules

/-! The Coefficient Calculator (40_coefficients.md): what COEF leaves in the coefficient bank. `coefBank` names the fifteen
words of `CO` after the phase, and a cutoff above zero makes each of its bundles the one of its rule, not a draw. -/

namespace Sys2Proof.CoefficientRules

open Sys2Proof.Machine

/-- The bank COEF leaves (R80): each bundle is computed, or open where its cutoff is not above zero (log 25). -/
def coefBank (s : State) : PerRole Biquad where
  hp := bundleOrDraw s.l.highPassFreq s.draws .hp (coefHp numTan Config.kNyq coefFsMult s.fs s.l.highPassFreq)
  mid := bundleOrDraw s.l.midFreq s.draws .mid
    (coefMid numSin numCos numPow10 Config.kNyq coefFsMult s.fs s.l.midFreq s.l.midGain)
  lp := bundleOrDraw s.l.lowPassFreq s.draws .lp (coefLp numTan Config.kNyq coefFsMult s.fs s.l.lowPassFreq)

/-- COEF in full: the bank, the count of draws and the position at UP's start. -/
theorem exec_coef (s : State) :
    exec .coef s = .next
      { s with co := coefBank s, draws := s.draws + 1, ph := .up, ch := .c0, ix := 0, dstage := .gate } := rfl

theorem bundleOrDraw_of_fgt {freq : F} (h : fgt freq fZero = true) (n : Nat) (r : Role) (b : Biquad) :
    bundleOrDraw freq n r b = b := if_pos h

section Bundles

variable {s : State}

theorem coefBank_hp (h : fgt s.l.highPassFreq fZero = true) :
    (coefBank s).hp = coefHp numTan Config.kNyq coefFsMult s.fs s.l.highPassFreq := bundleOrDraw_of_fgt h ..

theorem coefBank_mid (h : fgt s.l.midFreq fZero = true) :
    (coefBank s).mid = coefMid numSin numCos numPow10 Config.kNyq coefFsMult s.fs s.l.midFreq s.l.midGain :=
  bundleOrDraw_of_fgt h ..

theorem coefBank_lp (h : fgt s.l.lowPassFreq fZero = true) :
    (coefBank s).lp = coefLp numTan Config.kNyq coefFsMult s.fs s.l.lowPassFreq := bundleOrDraw_of_fgt h ..

/-- With every cutoff above zero no draw is left, so the bank comes from `FS` and `L` alone (R86). -/
theorem coefBank_congr {r : State} (hhp : fgt s.l.highPassFreq fZero = true) (hmid : fgt s.l.midFreq fZero = true)
    (hlp : fgt s.l.lowPassFreq fZero = true) (hfs : r.fs = s.fs) (hl : r.l = s.l) : coefBank r = coefBank s := by
  simp only [coefBank, hfs, hl, bundleOrDraw_of_fgt hhp, bundleOrDraw_of_fgt hmid, bundleOrDraw_of_fgt hlp]

end Bundles

/-- Settles O35: the cutoff is above zero, so the bundle is `COEF.HP`, which is R82 once the clamp of R81 is written out. -/
theorem coefHighPassFormula : Obligations.CoefHighPassFormula := by
  intro s h
  refine ⟨_, exec_coef s, ?_⟩
  simp only [coefBank_hp h, coefHp, fclamp]
  exact ⟨rfl, rfl, rfl, rfl, rfl⟩

/-- Settles O36: as for O35, with `COEF.LP` and R83. -/
theorem coefLowPassFormula : Obligations.CoefLowPassFormula := by
  intro s h
  refine ⟨_, exec_coef s, ?_⟩
  simp only [coefBank_lp h, coefLp, fclamp]
  exact ⟨rfl, rfl, rfl, rfl, rfl⟩

/-- Settles O37: as for O35, with `COEF.MID`, R84 and R85. -/
theorem coefMidFormula : Obligations.CoefMidFormula := by
  intro s h
  refine ⟨_, exec_coef s, ?_⟩
  simp only [coefBank_mid h, coefMid, fclamp]
  exact ⟨rfl, rfl, rfl, rfl, rfl⟩

/-- Settles O38: COEF in full gives the frame, and the banks agree where nothing is drawn. -/
theorem coefIsPure : Obligations.CoefIsPure := fun s r =>
  ⟨_, _, exec_coef s, exec_coef r, rfl, fun hhp hmid hlp hfs hl => coefBank_congr hhp hmid hlp hfs hl⟩

end Sys2Proof.CoefficientRules

/-! The Oversampler (41_oversampler.md): the words a build can have as allpass coefficients, one sample of UP and of DOWN,
and silence through both. A cascade of sections with finite coefficients keeps silence, whatever the coefficients. -/

namespace Sys2Proof.OversamplerRules

open Sys2Proof.Machine Sys2Proof.StateRules

/-! ### The coefficients and the cascade -/

/-- An allpass coefficient is a word of magnitude below 1.0 (R101). -/
theorem allpassCoef_iff_fmag_lt (w : F) : (∃ c : AllpassCoef, fpack c.1 c.2.val = w) ↔ fmag w < 0x3F800000 := by
  constructor
  · rintro ⟨⟨s, m⟩, rfl⟩
    rw [fmag_fpack s m.val (m.isLt.trans (by decide))]
    exact m.isLt
  · exact fun h => ⟨(fsign w, ⟨fmag w, h⟩), fpack_fsign_fmag w⟩

/-- The words of the open interval (-1, 1) are those of magnitude below 1.0; no NaN is among them. -/
theorem between_neg_one_one_iff (w : F) :
    flt 0xBF800000#32 w = true ∧ flt w 0x3F800000#32 = true ↔ fmag w < 0x3F800000 := by
  have hlo : orderKey 0xBF800000#32 = -0x3F800000 := by decide
  have hhi : orderKey 0x3F800000#32 = 0x3F800000 := by decide
  have hnlo : isNaN 0xBF800000#32 = false := by decide
  have hnhi : isNaN 0x3F800000#32 = false := by decide
  cases hw : isNaN w with
  | true =>
    have hm : 0x7F800000 < fmag w := of_decide_eq_true hw
    rw [flt_nan_left w _ hw]
    exact ⟨fun h => by simp at h, fun h => by omega⟩
  | false =>
    rw [Arithmetic.flt_iff_orderKey hnlo hw, Arithmetic.flt_iff_orderKey hw hnhi, hlo, hhi, orderKey]
    split <;> omega

theorem isFinite_of_allpassCoef {w : F} (h : ∃ c : AllpassCoef, fpack c.1 c.2.val = w) : isFinite w = true :=
  isFinite_of_fmag_le_one w ((allpassCoef_iff_fmag_lt w).1 h).le

/-- The coefficients of this build are of the kind D9 leaves open (log 13). -/
theorem allpassCoef_of_mem {w : F} (h : w ∈ Config.osAD ++ Config.osAP) : ∃ c : AllpassCoef, fpack c.1 c.2.val = w := by
  rw [Config.osAD, Config.osAP, ← List.map_append] at h
  obtain ⟨c, -, hc⟩ := List.mem_map.1 h
  exact ⟨c, hc⟩

/-- Settles O39: the cascade unfolds section by section, and both descriptions of a coefficient bound its magnitude. -/
theorem allpassCascade : Obligations.AllpassCascade :=
  ⟨fun _ _ _ _ _ => ⟨cascade_nil _ _, rfl⟩,
    fun w => (allpassCoef_iff_fmag_lt w).trans (between_neg_one_one_iff w).symm,
    fun _ h => allpassCoef_of_mem h⟩

/-! ### One sample of UP and of DOWN -/

/-- At a sample a phase leaves what it writes and goes on. -/
theorem sampleStep_at {s w : State} {lo hi lim : Nat} {next : Phase} (hlo : lo ≤ chanIndex s.ch)
    (hhi : chanIndex s.ch < hi) (hix : s.ix < lim) : sampleStep s lo hi lim w next = nextSample w hi lim next :=
  if_pos ((atSample_iff s lo hi lim).2 ⟨hlo, hhi, hix⟩)

theorem exec_up_at {s : State} (hch : chanIndex s.ch < s.nin) (hix : s.ix < s.nblk) :
    exec .up s = .next (nextSample (upWritten s) s.nin s.nblk .hpf) := by
  rw [← sampleStep_at (Nat.zero_le _) hch hix]
  exact execUp_eq s

theorem exec_down_at {s : State} (hch : chanIndex s.ch < s.nin) (hix : s.ix < s.nblk) :
    exec .down s = .next (nextSample (downWritten s) s.nin s.nblk .idle) := by
  rw [← sampleStep_at (Nat.zero_le _) hch hix]
  exact execDown_eq s

/-- The two words of a wide pair have different addresses (20_memory.md R45). -/
theorem wbufAddr_pair_ne (n : Nat) (c : Chan) (i : Nat) : wbufAddr n c (2 * i) ≠ wbufAddr n c (2 * i + 1) := by
  simp [wbufAddr]

/-! The words after UP and DOWN have written (R102, R103). -/

theorem readWord_upWritten_odd (s : State) :
    readWord (upWritten s) (wbufAddr s.nblk s.ch (2 * s.ix + 1)) = (upResult s).2.1 :=
  readWord_writeWord_same (writeWbuf s s.ch (2 * s.ix) (upResult s).1) _ _

theorem readWord_upWritten_even (s : State) :
    readWord (upWritten s) (wbufAddr s.nblk s.ch (2 * s.ix)) = (upResult s).1 :=
  (readWord_writeWord_other (writeWbuf s s.ch (2 * s.ix) (upResult s).1) _ _ _ (wbufAddr_pair_ne _ _ _)).trans
    (readWord_writeWord_same s _ _)

theorem readWord_upWritten_other {s : State} {b : Nat} (heven : b ≠ wbufAddr s.nblk s.ch (2 * s.ix))
    (hodd : b ≠ wbufAddr s.nblk s.ch (2 * s.ix + 1)) : readWord (upWritten s) b = readWord s b :=
  (readWord_writeWord_other (writeWbuf s s.ch (2 * s.ix) (upResult s).1) _ _ _ hodd).trans
    (readWord_writeWord_other s _ _ _ heven)

theorem readWord_downWritten_same (s : State) :
    readWord (downWritten s) (bufAddr s.nblk s.ch s.ix) = (downResult s).1 := readWord_writeWord_same s _ _

theorem readWord_downWritten_other {s : State} {b : Nat} (h : b ≠ bufAddr s.nblk s.ch s.ix) :
    readWord (downWritten s) b = readWord s b := readWord_writeWord_other s _ _ _ h

/-- The step writes the oversampler memories of the channel at hand and no others. -/
theorem os_nextSample {s w : State} {m : OsMem} (h : w.os = s.os.set s.ch m) (hi lim : Nat) (p : Phase) :
    (nextSample w hi lim p).os.get s.ch = m ∧ ∀ c, c ≠ s.ch → (nextSample w hi lim p).os.get c = s.os.get c := by
  rw [nextSample_os, h]
  exact ⟨PerChan.get_set_same s.os s.ch m, fun c hc => PerChan.get_set_other s.os s.ch c m hc⟩

/-- Settles O40: `upWritten` holds the pair and the new memories, and going on to the next sample changes neither. -/
theorem upWritesWidePair : Obligations.UpWritesWidePair := by
  intro s hch hix
  obtain ⟨hos, hother⟩ := os_nextSample (w := upWritten s) rfl s.nin s.nblk .hpf
  refine ⟨_, exec_up_at hch hix, ?_, ?_, fun b heven hodd => ?_, hos, hother, ?_, ?_⟩
  · exact (readWord_nextSample ..).trans (readWord_upWritten_even s)
  · exact (readWord_nextSample ..).trans (readWord_upWritten_odd s)
  · exact (readWord_nextSample ..).trans (readWord_upWritten_other heven hodd)
  · exact nextSample_movedOn s (upWritten s) _ _ _ rfl rfl rfl rfl rfl (by decide)
  · obtain ⟨ph, ch, ix, dstage, busy, hframe, hbusy⟩ := nextSample_frame (upWritten s) s.nin s.nblk .hpf
    rw [hframe, hbusy (by decide)]
    rfl

/-- Settles O41: as for O40, with `downWritten`; `BUSY` may change as well, where the block ends. -/
theorem downWritesOutput : Obligations.DownWritesOutput := by
  intro s hch hix
  obtain ⟨hos, hother⟩ := os_nextSample (w := downWritten s) rfl s.nin s.nblk .idle
  refine ⟨_, exec_down_at hch hix, ?_, fun b hb => ?_, hos, hother, ?_, ?_⟩
  · exact (readWord_nextSample ..).trans (readWord_downWritten_same s)
  · exact (readWord_nextSample ..).trans (readWord_downWritten_other hb)
  · exact nextSample_movedOn s (downWritten s) _ _ _ rfl rfl rfl rfl rfl (by decide)
  · obtain ⟨ph, ch, ix, dstage, busy, hframe, -⟩ := nextSample_frame (downWritten s) s.nin s.nblk .idle
    rw [hframe]
    rfl

/-! ### Silence -/

/-- A section with a finite coefficient keeps silence (R101, R106). -/
theorem isZero_allpass {a v x : F} (ha : isFinite a = true) (hv : isZero v = true) (hx : isZero x = true) :
    isZero (allpass a v x).1 = true ∧ isZero (allpass a v x).2 = true := by
  have hy : isZero (fadd (fmul a x) v) = true := isZero_fadd _ _ (isZero_fmul_right a x ha hx) hv
  exact ⟨hy, isZero_fsub _ _ hx (isZero_fmul_right a _ ha hy)⟩

/-- A cascade of sections with finite coefficients keeps silence, however many memories there are. -/
theorem isZero_cascade {coefs : List F} (hc : ∀ a ∈ coefs, isFinite a = true) :
    ∀ {mem : List F} {x : F}, (∀ v ∈ mem, isZero v = true) → isZero x = true →
      isZero (cascade coefs mem x).1 = true ∧ ∀ v ∈ (cascade coefs mem x).2, isZero v = true := by
  induction coefs with
  | nil =>
    intro mem x hm hx
    rw [cascade_nil]
    exact ⟨hx, hm⟩
  | cons a coefs ih =>
    intro mem x hm hx
    cases mem with
    | nil => exact ⟨hx, hm⟩
    | cons v mem =>
      obtain ⟨ha, hcoefs⟩ := List.forall_mem_cons.1 hc
      obtain ⟨hv, hmem⟩ := List.forall_mem_cons.1 hm
      obtain ⟨hy, hnew⟩ := isZero_allpass ha hv hx
      obtain ⟨hout, hrest⟩ := ih hcoefs hmem hy
      exact ⟨hout, List.forall_mem_cons.2 ⟨hnew, hrest⟩⟩

theorem isFinite_of_mem_osAD : ∀ a ∈ Config.osAD, isFinite a = true := fun _ h =>
  isFinite_of_allpassCoef (allpassCoef_of_mem (List.mem_append_left _ h))

theorem isFinite_of_mem_osAP : ∀ a ∈ Config.osAP, isFinite a = true := fun _ h =>
  isFinite_of_allpassCoef (allpassCoef_of_mem (List.mem_append_right _ h))

/-- Settles O42: what O40 and O41 say is written is made of two cascades of silence. -/
theorem silenceThroughOversampler : Obligations.SilenceThroughOversampler := by
  rintro s hch hix ⟨hud, hup, hdd, hdp, hdz⟩
  refine ⟨fun hx => ?_, fun heven hodd => ?_⟩
  · obtain ⟨t, hexec, hteven, htodd, -, htos, -⟩ := upWritesWidePair s hch hix
    obtain ⟨hd, hud'⟩ := isZero_cascade isFinite_of_mem_osAD hud hx
    obtain ⟨hp, hup'⟩ := isZero_cascade isFinite_of_mem_osAP hup hx
    exact ⟨t, hexec, htos ▸ ⟨hud', hup', hdd, hdp, hdz⟩, hteven ▸ hd, htodd ▸ hp⟩
  · obtain ⟨t, hexec, htout, -, htos, -⟩ := downWritesOutput s hch hix
    obtain ⟨hd, hdd'⟩ := isZero_cascade isFinite_of_mem_osAD hdd heven
    obtain ⟨hp, hdp'⟩ := isZero_cascade isFinite_of_mem_osAP hdp hodd
    have hout := isZero_fmul_left _ f0_5 (isZero_fadd _ _ hdz hd) (by decide)
    exact ⟨t, hexec, htos ▸ ⟨hud, hup, hdd', hdp', hp⟩, htout ▸ hout⟩

end Sys2Proof.OversamplerRules

/-! The Distortion Engine (42_distortion.md): the shapers, the three parts of a wide sample, and one sample through
all of them. `engineOut` is the engine as a function of a word, `TYPE` and `L`; three steps of the machine write its value
(`run_wide_sample`), so that what holds of `engineOut` holds of the machine. -/

namespace Sys2Proof.DistortionRules

open Sys2Proof.Machine Sys2Proof.StateRules

/-! ### The shapers (R119 to R121) -/

/-- Settles O47: `shapeWa` is R119 with `TANH` for the function it takes. -/
theorem shapeWaFormula : Obligations.ShapeWaFormula := fun _ => rfl

/-- Settles O48: `shapeSa` is R120 once the clamp of R9 is written out. -/
theorem shapeSaFormula : Obligations.ShapeSaFormula := fun _ => rfl

/-- Settles O49: `shapeBi` is R121 once the clamp of R9 is written out. -/
theorem shapeBiFormula : Obligations.ShapeBiFormula := fun _ => rfl

/-- The instruction of a shaper writes what the shaper makes of `d0` (R118, R124). -/
theorem exec_shaperInstr (t : Shaper) (s : State) :
    exec (shaperInstr t) s = .next (putShaped s (shapeByType t s.l.drive s.d0)) := by
  cases t <;> rfl

/-! ### Bounds and oddness of the shapers -/

/-- The place of a word in the order of values is as far from the zeros as its magnitude says (R9). -/
theorem natAbs_orderKey (x : F) : (orderKey x).natAbs = fmag x := by
  unfold orderKey
  split <;> simp

/-- Words of magnitude at most 0.9 are within the bounds of the clamps. -/
theorem between_of_fmag_le {x : F} (h : fmag x ≤ fmag f0_9) : flt x fNeg0_9 = false ∧ fgt x f0_9 = false := by
  have hmag : fmag f0_9 = 0x3F666666 := by decide
  have hlo : orderKey fNeg0_9 = -0x3F666666 := by decide
  have hhi : orderKey f0_9 = 0x3F666666 := by decide
  have hkey := natAbs_orderKey x
  simp only [flt, fgt, Bool.and_eq_false_iff, decide_eq_false_iff_not]
  exact ⟨.inr (by omega), .inr (by omega)⟩

/-- The bound of R119: at most 1.0 in magnitude by `NUM.P3`, times 0.9. -/
theorem fmag_shapeWa_le {drive d0 : F} (h : isFinite (fmul d0 (fadd f1 drive)) = true) :
    fmag (shapeWa numTanh drive d0) ≤ fmag f0_9 :=
  mul_le f1 f0_9 f0_9 (by decide) (fmag_oddWithinUnit Config.tanhRaw _ h) le_rfl

/-- The bounds of R120 and R121: a word clamped to -0.9 and 0.9 is a NaN or between them. -/
theorem between_of_clamp (x : F) :
    flt (clamp x fNeg0_9 f0_9) fNeg0_9 = false ∧ fgt (clamp x fNeg0_9 f0_9) f0_9 = false :=
  ⟨clamp_not_below x _ _ (by decide), clamp_not_above x _ _ (by decide)⟩

/-- Settles O51: `NUM.P3` bounds SHAPE.WA, a clamp ends the other two. -/
theorem shapersStayBounded : Obligations.ShapersStayBounded := by
  intro i hi s hfinite
  simp only [List.mem_cons, List.not_mem_nil, or_false] at hi
  obtain rfl | rfl | rfl := hi
  · exact ⟨_, rfl, between_of_fmag_le (fmag_shapeWa_le (hfinite rfl))⟩
  · exact ⟨_, rfl, between_of_clamp _⟩
  · exact ⟨_, rfl, between_of_clamp _⟩

/-- Only finite factors have a finite product (R6). -/
theorem isFinite_factors {a b : F} (h : isFinite (fmul a b) = true) : isFinite a = true ∧ isFinite b = true := by
  have hnan : isNaN (fmul a b) ≠ true := by simp [not_isNaN_of_isFinite _ h]
  have hinf : isInf (fmul a b) ≠ true := by simp [not_isInf_of_isFinite _ h]
  simp only [fmul] at hnan hinf
  split_ifs at hnan hinf with hn hi
  · exact absurd (isNaN_nanResult ..) hnan
  · exact absurd (isNaN_nanResult ..) hnan
  · exact absurd (by simp [isInf]) hinf
  · simp only [Bool.or_eq_true, not_or] at hn hi
    exact ⟨((word_trichotomy a).resolve_left hn.1).resolve_left hi.1,
      ((word_trichotomy b).resolve_left hn.2).resolve_left hi.2⟩

theorem fneg_fpack (s : Bool) {m : Nat} (h : m < 2 ^ 31) : fneg (fpack s m) = fpack (!s) m := by
  rw [fneg, fsign_fpack, fmag_fpack s m h]

/-- A product of finite words is odd in its first factor, bit for bit: only the sign of the result turns (R6). -/
theorem fmul_fneg_left {a b : F} (ha : isFinite a = true) (hb : isFinite b = true) :
    fmul (fneg a) b = fneg (fmul a b) := by
  rw [fmul_of_finite a b ha hb, fmul_of_finite (fneg a) b (by rwa [isFinite_fneg]) hb,
    fneg_fpack _ (roundMag_lt _ _), fsign_fneg, units_fneg, Bool.not_bne]

/-- R119: the products on both sides of `TANH` are odd, and `TANH` is by `NUM.P2`. -/
theorem shapeWa_fneg {drive d0 : F} (h : isFinite (fmul d0 (fadd f1 drive)) = true) :
    shapeWa numTanh drive (fneg d0) = fneg (shapeWa numTanh drive d0) := by
  obtain ⟨hd0, hgain⟩ := isFinite_factors h
  have htanh : isFinite (numTanh (fmul d0 (fadd f1 drive))) = true :=
    isFinite_of_fmag_le_one _ (fmag_oddWithinUnit Config.tanhRaw _ h)
  have hodd : numTanh (fneg (fmul d0 (fadd f1 drive))) = fneg (numTanh (fmul d0 (fadd f1 drive))) :=
    oddWithinUnit_fneg Config.tanhRaw _ h
  rw [shapeWa, shapeWa, fmul_fneg_left hd0 hgain, hodd, fmul_fneg_left htanh (by decide)]

/-- Settles O52: the two states differ in `d0` alone, and `shapeWa` is odd in it. -/
theorem shapeWaIsOdd : Obligations.ShapeWaIsOdd := fun _ h => ⟨_, _, rfl, rfl, shapeWa_fneg h⟩

/-! ### The parts of a wide sample (R124) -/

/-- POSTGAIN and MIX write the sample at hand. -/
theorem readWord_mixWritten_same (s : State) : readWord (mixWritten s) (wbufAddr s.nblk s.ch s.ix) = distOut s :=
  readWord_writeWord_same s _ _

/-- POSTGAIN and MIX write no other word. -/
theorem readWord_mixWritten_other {s : State} {b : Nat} (h : b ≠ wbufAddr s.nblk s.ch s.ix) :
    readWord (mixWritten s) b = readWord s b :=
  readWord_writeWord_other s _ _ _ h

/-- The last part of a sample moves the position on, whatever the parts before it left in the engine's registers. -/
theorem mixDone_movedOn {s r : State} (hix : r.ix = s.ix) (hch : r.ch = s.ch) (hph : r.ph = s.ph)
    (hbusy : r.busy = s.busy) (hd : s.dstage = .gate) (hi lim : Nat) :
    movedOn s (nextSample (mixWritten r) hi lim .lpf) hi lim .lpf :=
  nextSample_movedOn s (mixWritten r) hi lim .lpf hix hch hph hbusy hd.symm (by decide)

/-- The last part of a sample writes the memory and the position, nothing else. -/
theorem mixDone_frame (s : State) (hi lim : Nat) :
    ∃ mem ph ch ix dstage, nextSample (mixWritten s) hi lim .lpf =
      { s with mem := mem, ph := ph, ch := ch, ix := ix, dstage := dstage } := by
  obtain ⟨ph, ch, ix, dstage, busy, hframe, hbusy⟩ := nextSample_frame (mixWritten s) hi lim .lpf
  obtain rfl := hbusy (by decide)
  exact ⟨_, ph, ch, ix, dstage, hframe⟩

/-- Settles O46: the parts by `dstage`; the last one leaves `mixWritten`, and going on to the next sample reads no word
differently. -/
theorem distParts : Obligations.DistParts := by
  intro s hch hix
  have hat := (atSample_iff s 0 s.nin (2 * s.nblk)).2 ⟨Nat.zero_le _, hch, hix⟩
  refine ⟨fun hgate => MemoryRules.exec_dist_gate hat hgate, fun hshape => ?_, fun hmix => ?_⟩
  · rw [MemoryRules.exec_dist_shape hat hshape, ← exec_shaperInstr]
    cases s.type <;> rfl
  · refine ⟨_, MemoryRules.exec_dist_mix hat hmix, ?_, fun b hb => ?_, ?_, ?_⟩
    · exact (readWord_nextSample ..).trans (readWord_mixWritten_same s)
    · exact (readWord_nextSample ..).trans (readWord_mixWritten_other hb)
    · exact mixDone_movedOn (s := { s with dstage := .gate }) rfl rfl rfl rfl rfl _ _
    · obtain ⟨mem, ph, ch, ix, dstage, hframe⟩ := mixDone_frame s s.nin (2 * s.nblk)
      rw [hframe]

/-! ### One wide sample through the engine -/

/-- The engine as a function of the sample, `TYPE` and `L` (R115 to R123). -/
def engineOut (t : Shaper) (l : Params) (clean : F) : F :=
  let gate := gateFactor clean
  let cg := fmul clean gate
  mixOut l.blend (postgain l.volume (shapeByType t l.drive (pregain l.range cg))) cg gate

/-- The state before the shaper's part of a sample, from the state at its start. -/
def gatedSample (s : State) : State := distGate s (readWord s (wbufAddr s.nblk s.ch s.ix))

/-- The state before the last part of a sample, from the state at its start. -/
def shapedSample (s : State) : State := putShaped (gatedSample s) (shapeByType s.type s.l.drive (gatedSample s).d0)

/-! The first two parts leave the place of the sample as it is. -/

theorem shapedSample_busy (s : State) : (shapedSample s).busy = s.busy := by simp [shapedSample, gatedSample]

theorem shapedSample_ph (s : State) : (shapedSample s).ph = s.ph := by simp [shapedSample, gatedSample]

theorem shapedSample_ch (s : State) : (shapedSample s).ch = s.ch := by simp [shapedSample, gatedSample]

theorem shapedSample_ix (s : State) : (shapedSample s).ix = s.ix := by simp [shapedSample, gatedSample]

/-- What MIX then makes of the sample is `engineOut`. -/
theorem distOut_shapedSample (s : State) :
    distOut (shapedSample s) = engineOut s.type s.l (readWord s (wbufAddr s.nblk s.ch s.ix)) := by
  simp only [distOut, engineOut, shapedSample, gatedSample, putShaped, distGate]

/-- The first two parts write no word of the data space. -/
theorem readWord_shapedSample (s : State) (b : Nat) : readWord (shapedSample s) b = readWord s b :=
  readWord_congr s (shapedSample s) b rfl rfl rfl

theorem readWord_shapedSample_mixed (s : State) :
    readWord (mixWritten (shapedSample s)) (wbufAddr s.nblk s.ch s.ix) =
      engineOut s.type s.l (readWord s (wbufAddr s.nblk s.ch s.ix)) :=
  (readWord_mixWritten_same (shapedSample s)).trans (distOut_shapedSample s)

/-- Three undisturbed steps take a sample from its start through the engine (R124, log 16). -/
theorem run_wide_sample {s : State} (hbusy : s.busy = true) (hph : s.ph = .dist) (hd : s.dstage = .gate)
    (hin : s.inputs = []) (hch : chanIndex s.ch < s.nin) (hix : s.ix < 2 * s.nblk) :
    Sys2Proof.core.run 3 s = .next (nextSample (mixWritten (shapedSample s)) s.nin (2 * s.nblk) .lpf) := by
  have hat := (atSample_iff s 0 s.nin (2 * s.nblk)).2 ⟨Nat.zero_le _, hch, hix⟩
  have hgate : step s = .next (gatedSample s) :=
    (step_sequencer (nextTurn_nil hin) hbusy
      (EncodingRules.decode_position_phase hph rfl fun _ => by simp [hd])).trans (MemoryRules.exec_dist_gate hat hd)
  have hshape : step (gatedSample s) = .next (shapedSample s) :=
    (step_sequencer (nextTurn_nil (s := gatedSample s) hin) hbusy
      (EncodingRules.decode_position_shaper (s := gatedSample s) hph rfl rfl)).trans
      (exec_shaperInstr _ (gatedSample s))
  have hmix : step (shapedSample s) = .next (nextSample (mixWritten (shapedSample s)) s.nin (2 * s.nblk) .lpf) :=
    (step_sequencer (nextTurn_nil (s := shapedSample s) hin) hbusy
      (EncodingRules.decode_position_phase (s := shapedSample s) hph rfl fun _ => nofun)).trans
      (MemoryRules.exec_dist_mix (s := shapedSample s) hat rfl)
  rw [run_succ 2 s _ hgate, MemoryRules.run_two hshape hmix]

/-- Settles O50: three steps write `engineOut`, which is the printed formula for each `TYPE`. -/
theorem distSampleFormula : Obligations.DistSampleFormula := by
  intro s hbusy hph hd hin hch hix
  refine ⟨_, run_wide_sample hbusy hph hd hin hch hix, ?_, fun b hb => ?_, ?_, ?_⟩
  · refine (readWord_nextSample ..).trans ((readWord_shapedSample_mixed s).trans ?_)
    cases s.type <;> rfl
  · exact (readWord_nextSample ..).trans
      ((readWord_mixWritten_other (s := shapedSample s) hb).trans (readWord_shapedSample s b))
  · exact mixDone_movedOn (shapedSample_ix s) (shapedSample_ch s) (shapedSample_ph s) (shapedSample_busy s) hd _ _
  · obtain ⟨mem, ph, ch, ix, dstage, hframe⟩ := mixDone_frame (shapedSample s) s.nin (2 * s.nblk)
    rw [hframe]
    rfl

/-! ### A zero through the engine (R125 (c))

With every parameter in its range each gain is finite, so every product on the way is of a zero and a finite word. -/

/-- A word that WRP can store is at most its upper bound in magnitude: no lower bound is below zero (R11). -/
theorem fmag_get_le {l : Params} (h : l.inRange) (p : Param) : fmag (l.get p) ≤ fmag (paramHi p) := by
  obtain ⟨hnan, hlo, hhi⟩ := h p
  have hbounds : isNaN (paramLo p) = false ∧ isNaN (paramHi p) = false ∧ 0 ≤ orderKey (paramLo p) ∧
      orderKey (paramHi p) = fmag (paramHi p) := by cases p <;> decide
  obtain ⟨hnlo, hnhi, hpos, hkey⟩ := hbounds
  rw [fgt, Bool.eq_false_iff, ne_eq, Arithmetic.flt_iff_orderKey hnhi hnan, hkey] at hhi
  rw [Bool.eq_false_iff, ne_eq, Arithmetic.flt_iff_orderKey hnan hnlo] at hlo
  have hmag := natAbs_orderKey (l.get p)
  omega

theorem fmag_gateFactor_le (x : F) : fmag (gateFactor x) ≤ fmag f1 := by
  unfold gateFactor
  split <;> decide

section Zero

variable {l : Params} {x : F}

theorem clamp_of_isZero (h : isZero x = true) : clamp x fNeg0_9 f0_9 = x := by
  have hx : fmag x = 0 := of_decide_eq_true h
  obtain ⟨hlo, hhi⟩ := between_of_fmag_le (x := x) (by simp [hx])
  simp [clamp, hlo, hhi]

/-- PREGAIN keeps a zero: its gain is at most 25 (R117). -/
theorem isZero_pregain (hl : l.inRange) (h : isZero x = true) : isZero (pregain l.range x) = true := by
  have hgain : fmag (fmul l.range f5) ≤ fmag 0x41C80000#32 :=
    mul_le f5 f5 _ (by decide) (fmag_get_le hl .range) le_rfl
  exact isZero_fmul_left _ _ h (isFinite_of_le _ _ (by decide) hgain)

/-- SHAPE.WA keeps a zero: its gain is at most 3, and `TANH` keeps it by `NUM.P1` (R119). -/
theorem isZero_shapeWa (hl : l.inRange) (h : isZero x = true) : isZero (shapeWa numTanh l.drive x) = true := by
  have hgain : fmag (fadd f1 l.drive) ≤ fmag 0x40400000#32 :=
    add_le f1 f2 _ (by decide) le_rfl (fmag_get_le hl .drive)
  have harg := isZero_fmul_left x _ h (isFinite_of_le _ _ (by decide) hgain)
  rw [shapeWa, numTanh, oddWithinUnit_zero _ _ harg]
  exact isZero_fmul_left _ _ harg (by decide)

/-- SHAPE.SA keeps a zero: its gain is at most 5 (R120). -/
theorem isZero_shapeSa (hl : l.inRange) (h : isZero x = true) : isZero (shapeSa numTanh l.drive x) = true := by
  have hgain : fmag (fadd f1 (fmul l.drive f2)) ≤ fmag f5 :=
    add_le f1 0x40800000#32 _ (by decide) le_rfl (mul_le f2 f2 _ (by decide) (fmag_get_le hl .drive) le_rfl)
  have harg : isZero (fmul x f0_6) = true := isZero_fmul_left _ _ h (by decide)
  have hout := isZero_fmul_left _ _ (isZero_fmul_left _ f1_8 harg (by decide))
    (isFinite_of_le (fadd f1 (fmul l.drive f2)) _ (by decide) hgain)
  rw [shapeSa, numTanh, oddWithinUnit_zero _ _ harg, clamp_of_isZero hout]
  exact hout

/-- SHAPE.BI keeps a zero: folding keeps it, and its gain is at most 1.5 (R121). -/
theorem isZero_shapeBi (hl : l.inRange) (h : isZero x = true) : isZero (shapeBi numSin l.drive x) = true := by
  have hgain : fmag (fadd f0_5 (fmul l.drive f0_5)) ≤ fmag f1_5 :=
    add_le f0_5 f1 _ (by decide) le_rfl (mul_le f2 f0_5 _ (by decide) (fmag_get_le hl .drive) le_rfl)
  have hfinite := isFinite_of_isZero x h
  have hcube : isZero (fmul (fmul x x) x) = true := isZero_fmul_left _ _ (isZero_fmul_left _ _ h hfinite) hfinite
  have hfolded : isZero (fsub x (fmul f0_2 (fmul (fmul x x) x))) = true :=
    isZero_fsub _ _ h (isZero_fmul_right _ _ (by decide) hcube)
  have harg := isZero_fmul_left _ _ (isZero_fmul_left _ fPi hfolded (by decide))
    (isFinite_of_le (fadd f0_5 (fmul l.drive f0_5)) _ (by decide) hgain)
  rw [shapeBi, numSin, oddWithinUnit_zero _ _ harg, clamp_of_isZero harg]
  exact harg

theorem isZero_shapeByType (t : Shaper) (hl : l.inRange) (h : isZero x = true) :
    isZero (shapeByType t l.drive x) = true := by
  cases t with
  | wa => exact isZero_shapeWa hl h
  | sa => exact isZero_shapeSa hl h
  | bi => exact isZero_shapeBi hl h

/-- POSTGAIN keeps a zero: its gain is at most 3.5 (R122). -/
theorem isZero_postgain (hl : l.inRange) (h : isZero x = true) : isZero (postgain l.volume x) = true := by
  have hgain : fmag (fadd f0_5 (fmul l.volume f1_5)) ≤ fmag 0x40600000#32 :=
    add_le f0_5 0x40400000#32 _ (by decide) le_rfl (mul_le f2 f1_5 _ (by decide) (fmag_get_le hl .volume) le_rfl)
  exact isZero_fmul_left _ _ h (isFinite_of_le _ _ (by decide) hgain)

/-- MIX of two zeros is a zero: `blend` and `1 - blend` are finite (R123). -/
theorem isZero_mixOut {d2 cg gate : F} (hl : l.inRange) (hd2 : isZero d2 = true) (hcg : isZero cg = true)
    (hgate : isFinite gate = true) : isZero (mixOut l.blend d2 cg gate) = true := by
  have hblend : fmag l.blend ≤ fmag f1 := fmag_get_le hl .blend
  have hwet := isZero_fmul_left d2 _ hd2 (isFinite_of_le _ f1 (by decide) hblend)
  have hdry := isZero_fmul_left cg _ hcg
    (isFinite_of_le (fsub f1 l.blend) f2 (by decide) (sub_le f1 f1 _ (by decide) le_rfl hblend))
  exact isZero_fmul_left _ _ (isZero_fadd _ _ hwet hdry) hgate

theorem isZero_engineOut (t : Shaper) (hl : l.inRange) (h : isZero x = true) : isZero (engineOut t l x) = true := by
  have hgate := isFinite_of_le (gateFactor x) f1 (by decide) (fmag_gateFactor_le x)
  have hcg := isZero_fmul_left x _ h hgate
  exact isZero_mixOut hl (isZero_postgain hl (isZero_shapeByType t hl (isZero_pregain hl hcg))) hcg hgate

end Zero

/-- Settles O53: the three steps write `engineOut`, which keeps a zero. -/
theorem zeroSampleThroughEngine : Obligations.ZeroSampleThroughEngine := by
  intro s hbusy hph hd hin hch hix hl hzero
  refine ⟨_, run_wide_sample hbusy hph hd hin hch hix, ?_⟩
  rw [readWord_nextSample, readWord_shapedSample_mixed]
  exact isZero_engineOut s.type hl hzero

end Sys2Proof.DistortionRules

/-! The lifecycle, LATCH, CLEAR and the end of a block (43_filter_chain_block.md R138 to R141, R146, R148). A whole
LATCH phase is an induction over the slots left, and a block ends because every step of it leaves less to do
(`Nearer`). -/

namespace Sys2Proof.BlockRules

open Sys2Proof.Machine Sys2Proof.StateRules Sys2Proof.MemoryRules

/-! ### The lifecycle (R148) -/

/-- PREPARE is accepted on the audio port with operands in range (44_port_commands.md R161). -/
theorem refusal_prepare_eq_none (s : State) (n : Nat) (fs : F) :
    refusal s (.prepare n fs) = .none ↔ s.port = .audio ∧ badConfig n fs = false := by
  cases hp : s.port <;> cases hc : badConfig n fs <;> simp [refusal, hp, hc]

/-- PROCESS is accepted on the audio port of a prepared stream with a legal layout (R162). -/
theorem refusal_process_eq_none (s : State) (nout nin : Nat) :
    refusal s (.process nout nin) = .none ↔
      s.port = .audio ∧ legalLayout nin nout = true ∧ (s.st = .prepared ∨ s.st = .processing) := by
  cases hp : s.port <;> cases hl : legalLayout nin nout <;> cases hst : s.st <;> simp [refusal, hp, hl, hst]

/-- RELEASE is accepted on the audio port (R163). -/
theorem refusal_release_eq_none (s : State) : refusal s .release = .none ↔ s.port = .audio := by
  cases hp : s.port <;> simp [refusal, hp]

theorem refused_st (s : State) (i : Instr) : (refused s i).st = s.st := by
  cases i <;> rfl

/-- The lifecycle and the inputs to come. -/
def agenda (s : State) : Lifecycle × List Input := (s.st, s.inputs)

/-- No phase and no shaper moves the lifecycle or takes an input. -/
theorem sequencerEffect_agenda {s t : State} {i : Instr} (h : SequencerEffect s i t) : agenda t = agenda s := by
  have hsample (w : State) (hw : agenda w = agenda s) (lo hi lim : Nat) (next : Phase) :
      agenda (sampleStep s lo hi lim w next) = agenda s :=
    sampleStep_keeps agenda (by simp [agenda]) (by simp [agenda]) hw _ _ _ _
  cases h
  case latchExit | latchBypass | latchNone | latchLast | latchOne | coef =>
    simp [agenda, bypassExit, endLatch]
  case clear | up | hpf | mid | distMix | lpf | down => exact hsample _ (by rfl) _ _ _ _
  all_goals rfl

/-- Settles O26: a refused instruction leaves `ST`, an accepted packet writes it by its effect, no phase writes it. -/
theorem lifecycleTransitions : Obligations.LifecycleTransitions := by
  intro i s
  obtain ⟨t, ht⟩ := exec_total i s
  refine ⟨t, ht, ?_⟩
  cases i
  case prepare n fs =>
    simp only [← refusal_prepare_eq_none]
    obtain ⟨hc, rfl⟩ | ⟨hc, ⟨⟩⟩ := exec_packet rfl ht
    · rw [if_neg hc, refused_st]
    · rw [if_pos hc, prepareStream_st]
  case process nout nin =>
    simp only [← refusal_process_eq_none]
    obtain ⟨hc, rfl⟩ | ⟨hc, ⟨⟩⟩ := exec_packet rfl ht
    · rw [if_neg hc, refused_st]
    · rw [if_pos hc, blockStarted, enterPhase_st]
  case release =>
    simp only [← refusal_release_eq_none]
    obtain ⟨hc, rfl⟩ | ⟨hc, he⟩ := exec_packet rfl ht
    · rw [if_neg fun h => hc h.1, refused_st]
    · cases he
      case releaseNothing hst => rw [if_neg fun h => h.2 hst]
      case release hst => rw [if_pos ⟨hc, hst⟩, releaseStream_st]
  all_goals
    obtain (⟨-, rfl⟩ | ⟨-, he⟩) | he := exec_cases ht
    · exact refused_st s _
    · cases he <;> rfl
    · exact congrArg Prod.fst (sequencerEffect_agenda he)

/-! ### LATCH (R139, R140) -/

/-- With several slots left, none of them bypass, LATCH copies one of them (log 14). -/
theorem exec_latch_several {s : State} (hb : Param.bypass ∉ s.latchLeft) (hlen : 2 ≤ s.latchLeft.length) :
    ∃ p ∈ s.latchLeft, exec .latch s = .next { latchSlot s p with draws := s.draws + 1 } := by
  match hl : s.latchLeft with
  | [] | [_] => simp [hl] at hlen
  | p :: q :: ps =>
    have hpick : Config.latchPick s.draws % (p :: q :: ps).length < (p :: q :: ps).length :=
      Nat.mod_lt _ (by simp)
    refine ⟨(p :: q :: ps).getD (Config.latchPick s.draws % (p :: q :: ps).length) p, ?_, ?_⟩
    · rw [List.getD_eq_getElem _ _ hpick]
      exact List.getElem_mem hpick
    · rw [exec, execLatch, if_neg hb]
      simp only [hl]

/-- With one slot left, not bypass, LATCH copies it and CLEAR begins. -/
theorem exec_latch_last {s : State} {p : Param} (hp : p ≠ .bypass) (hl : s.latchLeft = [p]) :
    exec .latch s = .next (endLatch (latchSlot s p)) := by
  simp [exec, execLatch, hl, hp.symm]

/-- Settles O27: the bypass read by what it decides, then the reads by how many slots are left. -/
theorem latchReadsEachSlotOnce : Obligations.LatchReadsEachSlotOnce := by
  refine fun s => ⟨fun hb hgt => ?_, fun hb hle => ?_, exec_latch_several, fun p hp hl => ?_⟩
  · rw [exec_latch_bypass hb, if_pos hgt]
    rfl
  · have hgt : fgt s.param.bypass 0x3F000000#32 = false := hle.elim id (flt_nan_right _ _)
    rw [exec_latch_bypass hb, if_neg (by simp [hgt])]
    rfl
  · refine ⟨_, exec_latch_last hp hl, Params.get_set_same _ _ _, fun q hq => Params.get_set_other _ _ _ _ hq, rfl, ?_⟩
    simp [endLatch, latchSlot, enterPhase, chanOfIndex, hl]

/-- An accepted PROCESS starts a block (44_port_commands.md R162). -/
theorem exec_process_accepted {s : State} {nout nin : Nat} (hc : refusal s (.process nout nin) = .none) :
    exec (.process nout nin) s = .next (blockStarted s nin nout) := by
  obtain ⟨t, ht⟩ := exec_total (.process nout nin) s
  obtain ⟨hne, -⟩ | ⟨-, ⟨⟩⟩ := exec_packet rfl ht
  · exact absurd hc hne
  · exact ht

/-- Settles O28: the acceptance writes the position and `ST`, and the bypass read one slot and the position. -/
theorem bypassedBlockIsIdentity : Obligations.BypassedBlockIsIdentity := by
  intro s w nout nin hin hd hbusy hlayout hst hgt
  have hlegal : legalLayout nin nout = true := by
    by_contra h
    exact (legalLayout_eq_false_iff nin nout).1 (by simpa using h) hlayout
  have hstart : step s = .next (blockStarted { s with inputs := [], port := .audio } nin nout) :=
    (step_packet_ok hin (fun _ => hbusy) hd).trans
      (exec_process_accepted ((refusal_process_eq_none _ _ _).2 ⟨rfl, hlegal, hst⟩))
  have hread := (step_sequencer (nextTurn_nil rfl) rfl (decode_latch rfl)).trans
    ((exec_latch_bypass (s := blockStarted { s with inputs := [], port := .audio } nin nout)
      (by decide : _ ∈ allParams)).trans (congrArg _ (if_pos hgt)))
  refine ⟨_, run_two hstart hread, rfl, rfl, rfl, fun a => readWord_congr _ _ a rfl rfl rfl,
    fun p hp => Params.get_set_other _ _ _ _ hp, rfl, ?_⟩
  simp [bypassExit, latchSlot, blockStarted, enterPhase, hbusy]

/-- From `s` to `t` nothing changed but what LATCH writes: `L`, `TYPE`, the position, and the model's bookkeeping. -/
def LatchFrame (s t : State) : Prop :=
  t = { s with
    l := t.l, type := t.type, ph := t.ph, ch := t.ch, ix := t.ix, dstage := t.dstage, latchLeft := t.latchLeft,
    draws := t.draws }

theorem LatchFrame.trans {s t u : State} (h : LatchFrame s t) (h' : LatchFrame t u) : LatchFrame s u := by
  rw [LatchFrame] at h h' ⊢
  rw [h', h]

/-- A step of LATCH after which the block goes on writes no more than LATCH may, and `TYPE` where CLEAR begins. -/
theorem exec_latch_frame {s t : State} (h : exec .latch s = .next t) (hbusy : t.busy = true) (hph : s.ph = .latch) :
    LatchFrame s t ∧ (t.ph = .clear → t.type = typeCode t.l.distortionType) := by
  cases execLatch_effect h
  case latchExit => cases hbusy
  case latchBypass | latchOne => exact ⟨rfl, fun hc => by simp [hph] at hc⟩
  case latchNone | latchLast => exact ⟨rfl, fun _ => rfl⟩

/-- The rest of LATCH writes no more than LATCH may, reads every slot left, and computes `TYPE` from `L` (R139). -/
theorem latching_run_frame {n : Nat} : ∀ {s t : State}, Latching s → s.latchLeft.length = n →
    Sys2Proof.core.run n s = .next t →
    LatchFrame s t ∧ t.latchLeft = [] ∧ t.type = typeCode t.l.distortionType := by
  induction n with
  | zero =>
    intro s t h hn
    obtain ⟨q, hq, -⟩ := h.slot
    simp [List.length_eq_zero_iff.1 hn] at hq
  | succ n ih =>
    intro s t h hn hrun
    obtain ⟨p, u, hexec, hr⟩ := exists_slotRead (List.ne_nil_of_length_eq_add_one hn) h.goesOn
    have hstep : step s = .next u := (step_sequencer (nextTurn_nil h.inputs) h.busy (decode_latch h.ph)).trans hexec
    have hlen : u.latchLeft.length = n := by rw [hr.latchLeft, List.length_erase_of_mem hr.left, hn, Nat.add_sub_cancel]
    obtain ⟨hframe, htype⟩ := exec_latch_frame hexec (hr.busy.trans h.busy) h.ph
    rw [run_succ n s u hstep] at hrun
    by_cases hmore : p = .bypass ∨ s.latchLeft.length ≠ 1
    · obtain ⟨hrest, hdone⟩ := ih (h.of_slotRead hr hmore) hlen hrun
      exact ⟨hframe.trans hrest, hdone⟩
    · obtain ⟨hp, hone⟩ := not_or.1 hmore
      obtain rfl : n = 0 := by omega
      obtain rfl := Host.Outcome.next.inj hrun
      exact ⟨hframe, List.length_eq_zero_iff.1 hlen, htype (hr.last hp (not_not.1 hone))⟩

/-- Settles O29: every slot is left at the start, so what the rest of LATCH copies is the whole bank. -/
theorem latchPhaseCopiesBank : Obligations.LatchPhaseCopiesBank := by
  intro s hbusy hph hin hgo hperm
  have hall : ∀ p : Param, p ∈ s.latchLeft := fun p => hperm.mem_iff.2 (by cases p <;> decide)
  have hlatching : Latching s := ⟨hbusy, hph, hin, ⟨.drive, hall _, by decide⟩, fun _ => hgo⟩
  have hlen : s.latchLeft.length = 10 := hperm.length_eq
  obtain ⟨t, hrun, -, hclear, hl⟩ := hlatching.run hlen
  obtain ⟨hframe, hleft, htype⟩ := latching_run_frame hlatching hlen hrun
  have hbank : t.l = s.param := Params.ext_get _ _ fun p => by rw [hl, if_pos (hall p)]
  exact ⟨t, hrun, hbank, hbank ▸ htype, hclear, hleft, hframe⟩

/-! ### CLEAR (R141) -/

/-- Settles O31: a sample of an extra channel is written and left behind; without such a channel there is no sample. -/
theorem clearSilencesExtraChannel : Obligations.ClearSilencesExtraChannel := by
  refine fun s => ⟨fun hlo hhi hix => ?_, fun hnone => ?_⟩
  · have hexec : exec .clear s = .next (nextSample (clearWritten s) s.nout s.nblk .coef) := by
      rw [← OversamplerRules.sampleStep_at hlo hhi hix]
      exact execClear_eq s
    refine ⟨_, hexec, ?_, fun b hb => ?_, ?_, ?_⟩
    · exact (readWord_nextSample ..).trans (readWord_writeWord_same ..)
    · exact (readWord_nextSample ..).trans (readWord_writeWord_other _ _ _ _ hb)
    · exact nextSample_movedOn s (clearWritten s) _ _ _ rfl rfl rfl rfl rfl (by decide)
    · obtain ⟨ph, ch, ix, dstage, busy, hframe, hbusy⟩ := nextSample_frame (clearWritten s) s.nout s.nblk .coef
      rw [hframe, hbusy (by decide)]
      rfl
  · have hat : ¬ atSample s s.nin s.nout s.nblk = true := by
      rw [atSample_iff]
      omega
    exact (execClear_eq s).trans (congrArg _ (if_neg hat))

/-! ### A block in flight always ends (R138, R146)

What is left of a phase is counted in samples, in slots to latch and in parts of a sample of DIST; a step either leaves
less of it or goes to a later phase. -/

/-- How many phases come after a phase in the sequence of R138, `IDLE` standing for the end of the block. -/
def phasesLeft : Phase → Nat
  | .idle => 0
  | .down => 1
  | .lpf => 2
  | .dist => 3
  | .mid => 4
  | .hpf => 5
  | .up => 6
  | .coef => 7
  | .clear => 8
  | .latch => 9

/-- How many parts of a sample of DIST come after the one at hand (log 16). -/
def partsLeft : DistStage → Nat
  | .gate => 2
  | .shape => 1
  | .mix => 0

theorem partsLeft_le (d : DistStage) : partsLeft d ≤ 2 := by
  cases d <;> simp [partsLeft]

/-- How many samples are left to a phase of `lim` samples at a position, those of channel 1 included. -/
def samplesLeft (c : Chan) (ix lim : Nat) : Nat := (1 - chanIndex c) * lim + (lim - ix)

theorem samplesLeft_next_lt {ix lim : Nat} (h : ix < lim) (c : Chan) :
    samplesLeft c (ix + 1) lim < samplesLeft c ix lim := by
  simp only [samplesLeft]
  omega

theorem samplesLeft_channel_lt {ix lim : Nat} (h : ix < lim) : samplesLeft .c1 0 lim < samplesLeft .c0 ix lim := by
  simp only [samplesLeft, chanIndex]
  omega

/-- A bound of the steps that a phase still takes. -/
def phaseWork (s : State) : Nat :=
  s.latchLeft.length + (3 * samplesLeft s.ch s.ix s.phaseLimit + partsLeft s.dstage)

/-- From `s` to `t` the block came nearer to its end. -/
def Nearer (t s : State) : Prop :=
  phasesLeft t.ph < phasesLeft s.ph ∨ (t.ph = s.ph ∧ phaseWork t < phaseWork s)

theorem nearer_enterPhase {s : State} {p : Phase} (h : phasesLeft p < phasesLeft s.ph) (w : State) :
    Nearer (enterPhase w p) s :=
  .inl (by rwa [enterPhase_ph])

theorem phaseLimit_congr {s t : State} (hph : t.ph = s.ph) (hn : t.nblk = s.nblk) : t.phaseLimit = s.phaseLimit := by
  rw [State.phaseLimit, State.phaseLimit, hph, hn]

/-- A sample less to go outweighs the parts of a sample. -/
theorem nearer_of_samples {s t : State} (hph : t.ph = s.ph) (hn : t.nblk = s.nblk) (hleft : t.latchLeft = s.latchLeft)
    (h : samplesLeft t.ch t.ix s.phaseLimit < samplesLeft s.ch s.ix s.phaseLimit) : Nearer t s := by
  refine .inr ⟨hph, ?_⟩
  have hparts := partsLeft_le t.dstage
  simp only [phaseWork, hleft, phaseLimit_congr hph hn]
  omega

/-- What a sample step writes leaves the place of the sample and the slots to latch. -/
structure SampleKept (s w : State) : Prop where
  nblk : w.nblk = s.nblk
  ph : w.ph = s.ph
  ch : w.ch = s.ch
  ix : w.ix = s.ix
  latchLeft : w.latchLeft = s.latchLeft

/-- A phase that goes from sample to sample comes nearer to the end of the block, whichever sample it is at. -/
theorem nearer_sampleStep {s w : State} {lo hi lim : Nat} {next : Phase} (hw : SampleKept s w) (hhi : hi ≤ 2)
    (hlim : s.phaseLimit = lim) (hnext : phasesLeft next < phasesLeft s.ph) :
    Nearer (sampleStep s lo hi lim w next) s := by
  unfold sampleStep
  split
  · obtain ⟨-, -, hix⟩ := (atSample_iff _ _ _ _).1 ‹_›
    obtain ⟨-, he⟩ | ⟨-, hch, he⟩ | ⟨-, -, he⟩ := nextSample_cases w hi lim next <;> rw [he]
    · refine nearer_of_samples hw.ph hw.nblk hw.latchLeft ?_
      rw [hlim, hw.ch, hw.ix]
      exact samplesLeft_next_lt hix _
    · have hc0 : s.ch = .c0 := by
        rw [hw.ch] at hch
        cases hc : s.ch <;> simp [hc, chanIndex] at hch ⊢
        omega
      refine nearer_of_samples hw.ph hw.nblk hw.latchLeft ?_
      rw [hlim, hc0]
      exact samplesLeft_channel_lt hix
    · exact nearer_enterPhase hnext w
  · exact nearer_enterPhase hnext s

/-- A slot that was left and has been read is one less to read. -/
theorem nearer_latchSlot {s : State} {p : Param} (hp : p ∈ s.latchLeft) (draws : Nat) :
    Nearer { latchSlot s p with draws := draws } s := by
  have hlen := List.length_erase_of_mem hp
  have hpos := List.length_pos_of_mem hp
  exact .inr ⟨rfl, Nat.add_lt_add_right (show (s.latchLeft.erase p).length < s.latchLeft.length by omega) _⟩

theorem nearer_latch {s t : State} (hph : s.ph = .latch) (h : exec .latch s = .next t) : Nearer t s := by
  cases execLatch_effect h
  case latchExit | latchNone | latchLast => exact nearer_enterPhase (by rw [hph]; decide) _
  case latchBypass hb => exact nearer_latchSlot hb s.draws
  case latchOne hb hlen =>
    obtain ⟨p, hp, hread⟩ := exec_latch_several hb hlen
    rw [Host.Outcome.next.inj (h.symm.trans hread)]
    exact nearer_latchSlot hp _

/-- The first two parts of a sample of DIST leave one part less. -/
theorem nearer_distGate {s : State} (hd : s.dstage = .gate) (clean : F) : Nearer (distGate s clean) s :=
  .inr ⟨rfl, Nat.add_lt_add_left (Nat.add_lt_add_left (by simp [hd, partsLeft]) _) _⟩

theorem nearer_putShaped {s : State} (hd : s.dstage = .shape) (d1 : F) : Nearer (putShaped s d1) s :=
  .inr ⟨rfl, Nat.add_lt_add_left (Nat.add_lt_add_left (by simp [hd, partsLeft]) _) _⟩

theorem nearer_dist {s t : State} (hph : s.ph = .dist) (hturn : s.dstage ≠ .shape) (hnin : s.nin ≤ 2)
    (h : exec .dist s = .next t) : Nearer t s := by
  have hnext : phasesLeft .lpf < phasesLeft s.ph := by rw [hph]; decide
  by_cases hat : atSample s 0 s.nin (2 * s.nblk) = true
  · cases hd : s.dstage
    case gate =>
      obtain rfl := Host.Outcome.next.inj (h.symm.trans (exec_dist_gate hat hd))
      exact nearer_distGate hd _
    case shape => exact absurd hd hturn
    case mix =>
      have hsample : sampleStep s 0 s.nin (2 * s.nblk) (mixWritten s) .lpf = t :=
        (if_pos hat).trans (Host.Outcome.next.inj ((exec_dist_mix hat hd).symm.trans h))
      rw [← hsample]
      exact nearer_sampleStep ⟨rfl, rfl, rfl, rfl, rfl⟩ hnin (by rw [State.phaseLimit, hph]) hnext
  · rw [Host.Outcome.next.inj (h.symm.trans (exec_dist_elsewhere hat))]
    exact nearer_enterPhase hnext s

/-- Whatever the sequencer runs in a block with a legal layout brings its end nearer. -/
theorem nearer_of_exec {s t : State} {i : Instr} (hl : legalLayout s.nin s.nout = true)
    (hd : decode (sequencerCode s) = .ok i) (he : exec i s = .next t) : Nearer t s := by
  have hcounts := (legalLayout_iff _ _).1 hl
  have hnin : s.nin ≤ 2 := by omega
  have hnout : s.nout ≤ 2 := by omega
  obtain ⟨hseq, hph⟩ := sequencerCode_instr hd
  obtain ⟨-, hshape, rfl⟩ | ⟨hturn, hinstr⟩ := (decode_sequencerCode s i).1 hd
  · rw [Host.Outcome.next.inj (he.symm.trans (DistortionRules.exec_shaperInstr s.type s))]
    exact nearer_putShaped hshape _
  · cases exec_sequencer hseq he
    case latchExit | latchBypass | latchNone | latchLast | latchOne => exact nearer_latch hph he
    case distGate | distShape | distMix => exact nearer_dist hph (fun h => hturn ⟨hph, h⟩) hnin he
    case coef => exact nearer_enterPhase (by rw [hph]; decide) _
    case clear =>
      exact nearer_sampleStep ⟨rfl, rfl, rfl, rfl, rfl⟩ hnout (by rw [State.phaseLimit, hph]; rfl) (by rw [hph]; decide)
    case up | hpf | mid | lpf | down =>
      exact nearer_sampleStep ⟨rfl, rfl, rfl, rfl, rfl⟩ hnin (by rw [State.phaseLimit, hph]; rfl) (by rw [hph]; decide)
    case shapeWa | shapeSa | shapeBi => rw [hph] at hinstr; cases hinstr

theorem exists_phaseInstr {p : Phase} (h : p ≠ .idle) : ∃ i, phaseInstr p = some i := by
  cases p
  case idle => exact absurd rfl h
  all_goals exact ⟨_, rfl⟩

/-- In a phase there is an instruction for the sequencer to run. -/
theorem exists_sequencerInstr {s : State} (h : s.ph ≠ .idle) : ∃ i, decode (sequencerCode s) = .ok i := by
  by_cases hturn : s.ph = .dist ∧ s.dstage = .shape
  · exact ⟨_, EncodingRules.decode_position_shaper hturn.1 hturn.2 rfl⟩
  · obtain ⟨i, hi⟩ := exists_phaseInstr h
    exact ⟨i, (decode_sequencerCode s i).2 (.inr ⟨hturn, hi⟩)⟩

/-- A step of a block in flight with no input to come brings its end nearer and leaves the registers and `ST`. -/
theorem exists_step_nearer {s : State} (hs : s.Inv) (hb : s.busy = true) (hin : s.inputs = []) :
    ∃ t, step s = .next t ∧ Nearer t s ∧ registers t = registers s ∧ agenda t = agenda s := by
  have hpos := ((inv_iff s).1 hs).2
  obtain ⟨i, hd⟩ := exists_sequencerInstr (s := s) fun h => by simp [hpos.1.2 h] at hb
  obtain ⟨t, ht⟩ := exec_total i s
  have he := exec_sequencer (sequencerCode_instr hd).1 ht
  exact ⟨t, (step_sequencer (nextTurn_nil hin) hb hd).trans ht, nearer_of_exec (inFlight_of_inv hs hb).layout hd ht,
    sequencerEffect_registers he, sequencerEffect_agenda he⟩

/-- A run without input reaches the end of the block. -/
theorem exists_run_idle (s : State) (hs : s.Inv) (hin : s.inputs = []) :
    ∃ (n : Nat) (t : State), Sys2Proof.core.run n s = .next t ∧ t.busy = false ∧ t.ph = .idle ∧
      registers t = registers s ∧ agenda t = agenda s := by
  by_cases hb : s.busy = true
  · obtain ⟨u, hstep, hnearer, hreg, hagenda⟩ := exists_step_nearer hs hb hin
    obtain ⟨n, t, hrun, hbusy, hph, hreg', hagenda'⟩ :=
      exists_run_idle u (stepKeepsInvariant s u hs hstep) ((congrArg Prod.snd hagenda).trans hin)
    exact ⟨n + 1, t, (run_succ n s u hstep).trans hrun, hbusy, hph, hreg'.trans hreg, hagenda'.trans hagenda⟩
  · have hidle : s.busy = false := by simpa using hb
    exact ⟨0, s, rfl, hidle, ((inv_iff s).1 hs).2.1.1 hidle, rfl, rfl⟩
termination_by (phasesLeft s.ph, phaseWork s)
decreasing_by
  obtain hphase | ⟨hsame, hwork⟩ := hnearer
  · exact .left _ _ hphase
  · rw [hsame]
    exact .right _ hwork

/-- Settles O60: the run that ends the block leaves `FAULT`, `CAUSE` and `ST`, which the invariant knows at its
start. -/
theorem blockAlwaysEnds : Obligations.BlockAlwaysEnds := by
  intro s hs hb hin
  obtain ⟨n, t, hrun, hbusy, hph, hreg, hagenda⟩ := exists_run_idle s hs hin
  simp only [registers, Prod.mk.injEq] at hreg
  obtain ⟨-, hfault, hcause⟩ := hreg
  exact ⟨n, t, hrun, hbusy, hph, hfault, hcause, (congrArg Prod.fst hagenda).trans (inFlight_of_inv hs hb).st⟩

end Sys2Proof.BlockRules

/-! The filter phases HPF, MID and LPF (43_filter_chain_block.md R135 to R137). One step is one wide sample
(`filterStep`); the steps of a channel run the biquad over its wide block (`Filtering.run_channel`), and the channels
follow one another without touching each other's words (`ChannelsFiltered.cons`). -/

namespace Sys2Proof.FilterRules

open Sys2Proof.Machine Sys2Proof.StateRules

/-! ### One wide sample (R135) -/

/-- The filter phases, each with its role and the phase that follows it (R136, R137). -/
def filterRows : List (Instr × Role × Phase) := [(.hpf, .hp, .mid), (.mid, .mid, .dist), (.lpf, .lp, .down)]

theorem exec_filterRow {x : Instr × Role × Phase} (hx : x ∈ filterRows) (s : State) :
    exec x.1 s = .next (sampleStep s 0 s.nin (2 * s.nblk) (filterWritten s x.2.1) x.2.2) := by
  simp only [filterRows, List.mem_cons, List.not_mem_nil, or_false] at hx
  obtain rfl | rfl | rfl := hx <;> rfl

/-- A filter phase is followed by a phase of the block, which is not CLEAR. -/
theorem filterRow_next : ∀ x ∈ filterRows, x.2.2 ≠ .idle ∧ x.2.2 ≠ .clear := by decide

theorem readWord_filterWritten_same (s : State) (r : Role) :
    readWord (filterWritten s r) (wbufAddr s.nblk s.ch s.ix) = (filterResult s r).1 := readWord_writeWord_same s _ _

theorem readWord_filterWritten_other {s : State} {b : Nat} (h : b ≠ wbufAddr s.nblk s.ch s.ix) (r : Role) :
    readWord (filterWritten s r) b = readWord s b := readWord_writeWord_other s _ _ _ h

/-- The state words of the role and channel at hand are written. -/
theorem z_filterWritten_same (s : State) (r : Role) :
    ((filterWritten s r).z.get r).get s.ch = (filterResult s r).2 := by
  simp [filterWritten]

/-- The state words of another role or of another channel are left alone. -/
theorem z_filterWritten_other {s : State} {r q : Role} {c : Chan} (h : q ≠ r ∨ c ≠ s.ch) :
    ((filterWritten s r).z.get q).get c = (s.z.get q).get c := by
  by_cases hq : q = r
  · subst hq
    have hc : c ≠ s.ch := h.resolve_left fun hne => hne rfl
    simp [filterWritten, PerChan.get_set_other _ _ _ _ hc]
  · simp [filterWritten, PerRole.get_set_other _ _ _ _ hq]

/-- Settles O43: `filterWritten` holds the output and the new state words, and going on to the next sample changes
neither. -/
theorem filterStep : Obligations.FilterStep := by
  intro x hx s hch hix
  obtain ⟨hidle, hclear⟩ := filterRow_next x hx
  have hexec := (exec_filterRow hx s).trans
    (congrArg _ (OversamplerRules.sampleStep_at (w := filterWritten s x.2.1) (next := x.2.2) (Nat.zero_le _) hch hix))
  refine ⟨_, hexec, ?_, fun b hb => ?_, ?_, fun r c hne => ?_, ?_, ?_⟩
  · exact (readWord_nextSample ..).trans (readWord_filterWritten_same s _)
  · exact (readWord_nextSample ..).trans (readWord_filterWritten_other hb _)
  · rw [nextSample_z]
    exact z_filterWritten_same s _
  · rw [nextSample_z]
    exact z_filterWritten_other hne
  · exact nextSample_movedOn s (filterWritten s x.2.1) _ _ _ rfl rfl rfl rfl rfl hclear
  · obtain ⟨ph, ch, ix, dstage, busy, hframe, hbusy⟩ :=
      nextSample_frame (filterWritten s x.2.1) s.nin (2 * s.nblk) x.2.2
    rw [hframe, hbusy hidle]
    rfl

/-! ### The samples of one channel (R136) -/

/-- The words at some places of a channel's wide block, with the addresses of block size `n`. -/
def wideWords (n : Nat) (s : State) (c : Chan) (js : List Nat) : List F := js.map fun j => readWord s (wbufAddr n c j)

theorem wideWords_congr {n : Nat} {s t : State} {c : Chan} {js : List Nat}
    (h : ∀ j ∈ js, readWord t (wbufAddr n c j) = readWord s (wbufAddr n c j)) :
    wideWords n t c js = wideWords n s c js := List.map_congr_left h

/-- The filter of role `r` run over some places of a channel's wide block: the outputs and the state words after. -/
def filteredWords (s : State) (r : Role) (c : Chan) (js : List Nat) : List F × ZPair :=
  filterList (s.co.get r) ((s.z.get r).get c) (wideWords s.nblk s c js)

/-- From `s` to `t` nothing changed but what a filter phase writes: the data space, the state words and the position. -/
def FilterFrame (s t : State) : Prop :=
  t = { s with mem := t.mem, z := t.z, ph := t.ph, ch := t.ch, ix := t.ix, dstage := t.dstage }

theorem FilterFrame.trans {s t u : State} (h : FilterFrame s t) (h' : FilterFrame t u) : FilterFrame s u := by
  rw [FilterFrame] at h h' ⊢
  rw [h', h]

/-- What the samples to come are computed from besides the words and the state words. -/
theorem FilterFrame.keeps {s t : State} (h : FilterFrame s t) :
    t.nblk = s.nblk ∧ t.nin = s.nin ∧ t.co = s.co ∧ t.busy = s.busy ∧ t.inputs = s.inputs := by
  rw [FilterFrame] at h
  rw [h]
  exact ⟨rfl, rfl, rfl, rfl, rfl⟩

/-- From `s` to `t` the filter of role `r` ran in place over the samples `js` of channel `c`, in this order. -/
structure ChannelFiltered (r : Role) (s : State) (c : Chan) (js : List Nat) (t : State) : Prop where
  words : wideWords s.nblk t c js = (filteredWords s r c js).1
  z : (t.z.get r).get c = (filteredWords s r c js).2
  otherWords : ∀ b, (∀ j ∈ js, b ≠ wbufAddr s.nblk c j) → readWord t b = readWord s b
  otherZ : ∀ (q : Role) (d : Chan), q ≠ r ∨ d ≠ c → (t.z.get q).get d = (s.z.get q).get d
  frame : FilterFrame s t

/-- One sample and then others are the filter run over all of them. -/
theorem ChannelFiltered.cons {r : Role} {s u t : State} {c : Chan} {i : Nat} {js : List Nat}
    (h : ChannelFiltered r s c [i] u) (h' : ChannelFiltered r u c js t) (hi : i ∉ js) :
    ChannelFiltered r s c (i :: js) t := by
  obtain ⟨hn, -, hco, -, -⟩ := h.frame.keeps
  have hne : ∀ j ∈ js, wbufAddr s.nblk c j ≠ wbufAddr s.nblk c i := by
    intro j hj heq
    have : j = i := by simpa [wbufAddr] using heq
    exact hi (this ▸ hj)
  have hold : wideWords s.nblk u c js = wideWords s.nblk s c js :=
    wideWords_congr fun j hj => h.otherWords _ fun k hk => List.mem_singleton.1 hk ▸ hne j hj
  have hkept : readWord t (wbufAddr s.nblk c i) = readWord u (wbufAddr s.nblk c i) :=
    h'.otherWords _ fun j hj => hn ▸ (hne j hj).symm
  have hrest : filteredWords u r c js =
      filterList (s.co.get r) (filteredWords s r c [i]).2 (wideWords s.nblk s c js) := by
    rw [filteredWords, hn, hold, hco, h.z]
  have hfirst := h.words
  have hwords := h'.words
  rw [hn, hrest] at hwords
  exact {
    words := calc wideWords s.nblk t c (i :: js)
        = wideWords s.nblk u c [i] ++ wideWords s.nblk t c js := congrArg (· :: wideWords s.nblk t c js) hkept
      _ = (filteredWords s r c (i :: js)).1 := by rw [hfirst, hwords]; rfl
    z := h'.z.trans (by rw [hrest]; rfl)
    otherWords := fun b hb => by
      obtain ⟨hbi, hbjs⟩ := List.forall_mem_cons.1 hb
      exact (h'.otherWords b fun j hj => hn ▸ hbjs j hj).trans
        (h.otherWords b fun j hj => List.mem_singleton.1 hj ▸ hbi)
    otherZ := fun q d hqd => (h'.otherZ q d hqd).trans (h.otherZ q d hqd)
    frame := h.frame.trans h'.frame }

/-- After the last sample of a channel comes the next channel, or the next phase at channel 0. -/
theorem movedOn_last {s t : State} {hi lim : Nat} {p : Phase} (h : movedOn s t hi lim p) (hlast : lim ≤ s.ix + 1)
    (hp : p ≠ .idle) :
    t.ix = 0 ∧ (chanIndex s.ch + 1 < hi → t.ch = .c1 ∧ t.ph = s.ph) ∧
      (hi ≤ chanIndex s.ch + 1 → t.ch = .c0 ∧ t.ph = p) := by
  obtain ⟨-, hchannel, hphase⟩ := h
  by_cases hlt : chanIndex s.ch + 1 < hi
  · obtain ⟨hix, hch, hph, -⟩ := hchannel hlast hlt
    exact ⟨hix, fun _ => ⟨hch, hph⟩, fun hle => absurd hlt (not_lt.2 hle)⟩
  · obtain ⟨hph, -, hnext⟩ := hphase hlast (not_lt.1 hlt)
    obtain ⟨-, hix, hch, -⟩ := hnext hp
    exact ⟨hix, fun h => absurd h hlt, fun _ => ⟨hch, hph⟩⟩

/-- A filter phase is at a sample, with no input to come. -/
structure Filtering (i : Instr) (s : State) : Prop where
  busy : s.busy = true
  ph : s.ph = instrPhase i
  inputs : s.inputs = []
  ch : chanIndex s.ch < s.nin
  ix : s.ix < 2 * s.nblk

theorem decode_filterRow {x : Instr × Role × Phase} (hx : x ∈ filterRows) {s : State} (hph : s.ph = instrPhase x.1) :
    decode (sequencerCode s) = .ok x.1 := by
  have hrow : ∀ x ∈ filterRows, phaseInstr (instrPhase x.1) = some x.1 ∧ instrPhase x.1 ≠ .dist := by decide
  obtain ⟨hi, hdist⟩ := hrow x hx
  exact EncodingRules.decode_position_phase hph hi fun h => absurd h hdist

section Rows

variable {x : Instr × Role × Phase} (hx : x ∈ filterRows)
include hx

/-- One step filters one sample and moves on. -/
theorem Filtering.step {s : State} (h : Filtering x.1 s) :
    ∃ u, step s = .next u ∧ ChannelFiltered x.2.1 s s.ch [s.ix] u ∧ movedOn s u s.nin (2 * s.nblk) x.2.2 := by
  obtain ⟨u, hexec, hword, hother, hz, hotherZ, hmoved, hframe⟩ := filterStep x hx s h.ch h.ix
  exact ⟨u, (step_sequencer (nextTurn_nil h.inputs) h.busy (decode_filterRow hx h.ph)).trans hexec,
    ⟨congrArg (List.cons · []) hword, hz, fun b hb => hother b (hb _ (List.mem_singleton_self _)), hotherZ, hframe⟩,
    hmoved⟩

/-- The rest of a channel takes one step for each sample and leads to the next channel, or to the next phase. -/
theorem Filtering.run_channel (m : Nat) : ∀ {s : State}, Filtering x.1 s → s.ix + (m + 1) = 2 * s.nblk →
    ∃ t, Sys2Proof.core.run (m + 1) s = .next t ∧ ChannelFiltered x.2.1 s s.ch (List.range' s.ix (m + 1)) t ∧
      t.ix = 0 ∧ (chanIndex s.ch + 1 < s.nin → t.ch = .c1 ∧ t.ph = s.ph) ∧
      (s.nin ≤ chanIndex s.ch + 1 → t.ch = .c0 ∧ t.ph = x.2.2) := by
  induction m with
  | zero =>
    intro s h hlast
    obtain ⟨t, hstep, hfiltered, hmoved⟩ := h.step hx
    exact ⟨t, run_succ 0 s t hstep, hfiltered, movedOn_last hmoved hlast.ge (filterRow_next x hx).1⟩
  | succ m ih =>
    intro s h hleft
    obtain ⟨u, hstep, hfirst, hsample, -, -⟩ := h.step hx
    obtain ⟨hix, hch, hph, hbusy, -⟩ := hsample (by omega)
    obtain ⟨hn, hnin, -, -, hinputs⟩ := hfirst.frame.keeps
    have hu : Filtering x.1 u :=
      ⟨hbusy.trans h.busy, hph.trans h.ph, hinputs.trans h.inputs, by rw [hch, hnin]; exact h.ch, by omega⟩
    obtain ⟨t, hrun, hrest, hdone⟩ := ih hu (by omega)
    rw [hch, hix] at hrest
    rw [hch, hnin, hph] at hdone
    exact ⟨t, (run_succ _ s u hstep).trans hrun, hfirst.cons hrest (by simp), hdone⟩

end Rows

/-! ### The channels of a phase (R136) -/

/-- The places of a channel's wide block. -/
def wideBlock (s : State) : List Nat := List.range (2 * s.nblk)

/-- From `s` to `t` the filter of role `r` ran over the wide blocks of the channels `cs`, and over no other. -/
structure ChannelsFiltered (r : Role) (s : State) (cs : List Chan) (t : State) : Prop where
  filtered : ∀ c ∈ cs, wideWords s.nblk t c (wideBlock s) = (filteredWords s r c (wideBlock s)).1 ∧
    (t.z.get r).get c = (filteredWords s r c (wideBlock s)).2
  kept : ∀ c ∉ cs, (t.z.get r).get c = (s.z.get r).get c ∧
    ∀ j < 2 * s.nblk, readWord t (wbufAddr s.nblk c j) = readWord s (wbufAddr s.nblk c j)
  otherRoles : ∀ q, q ≠ r → t.z.get q = s.z.get q
  buf : ∀ a < wbufBase, readWord t a = readWord s a
  frame : FilterFrame s t

theorem ChannelsFiltered.nil (r : Role) (s : State) : ChannelsFiltered r s [] s where
  filtered := by simp
  kept _ _ := ⟨rfl, fun _ _ => rfl⟩
  otherRoles _ _ := rfl
  buf _ _ := rfl
  frame := rfl

/-- Two banks with the same value for each channel are the same. -/
theorem perChan_ext {α : Type} {a b : PerChan α} (h : ∀ c, a.get c = b.get c) : a = b := by
  have h0 : a.c0 = b.c0 := h .c0
  have h1 : a.c1 = b.c1 := h .c1
  cases a
  cases b
  simp_all

/-- A channel filtered leaves the wide block of another channel alone. -/
theorem ChannelFiltered.wide_other {r : Role} {s t : State} {c d : Chan} (h : ChannelFiltered r s c (wideBlock s) t)
    (hne : d ≠ c) {j : Nat} (hj : j < 2 * s.nblk) :
    readWord t (wbufAddr s.nblk d j) = readWord s (wbufAddr s.nblk d j) :=
  h.otherWords _ fun _ hk heq => hne (wbufAddr_inj _ _ _ _ _ hj (List.mem_range.1 hk) heq).1

/-- One channel and then others that are not filtered again are all filtered. -/
theorem ChannelsFiltered.cons {r : Role} {s u t : State} {c : Chan} {cs : List Chan}
    (h : ChannelFiltered r s c (wideBlock s) u) (h' : ChannelsFiltered r u cs t) (hc : c ∉ cs) :
    ChannelsFiltered r s (c :: cs) t := by
  obtain ⟨hfiltered, hkept, hroles, hbuf, hframe⟩ := h'
  obtain ⟨hn, -, hco, -, -⟩ := h.frame.keeps
  have hblock : wideBlock u = wideBlock s := by rw [wideBlock, wideBlock, hn]
  rw [hn] at hkept
  rw [hblock, hn] at hfiltered
  have hother {d : Chan} (hd : d ≠ c) : filteredWords u r d (wideBlock s) = filteredWords s r d (wideBlock s) := by
    have hwords : wideWords s.nblk u d (wideBlock s) = wideWords s.nblk s d (wideBlock s) :=
      wideWords_congr fun j hj => h.wide_other hd (List.mem_range.1 hj)
    rw [filteredWords, filteredWords, hn, hco, h.otherZ r d (.inr hd), hwords]
  exact {
    filtered := fun d hd => by
      by_cases hdc : d = c
      · subst hdc
        obtain ⟨hz, hwords⟩ := hkept d hc
        exact ⟨(wideWords_congr fun j hj => hwords j (List.mem_range.1 hj)).trans h.words, hz.trans h.z⟩
      · rw [← hother hdc]
        exact hfiltered d ((List.mem_cons.1 hd).resolve_left hdc)
    kept := fun d hd => by
      obtain ⟨hdc, hdcs⟩ := not_or.1 (mt List.mem_cons.2 hd)
      obtain ⟨hz, hwords⟩ := hkept d hdcs
      exact ⟨hz.trans (h.otherZ r d (.inr hdc)), fun j hj => (hwords j hj).trans (h.wide_other hdc hj)⟩
    otherRoles := fun q hq => (hroles q hq).trans (perChan_ext fun d => h.otherZ q d (.inl hq))
    buf := fun a ha => (hbuf a ha).trans
      (h.otherWords a fun j _ => (ha.trans_le (wbufBase_le_wbufAddr _ c j)).ne)
    frame := h.frame.trans hframe }

/-- The channels a phase works on. -/
def inputChannels (n : Nat) : List Chan := [Chan.c0, .c1].take n

theorem mem_inputChannels (c : Chan) (n : Nat) : c ∈ inputChannels n ↔ chanIndex c < n := by
  match n with
  | 0 => simp [inputChannels]
  | 1 => cases c <;> simp [inputChannels, chanIndex]
  | n + 2 => cases c <;> simp [inputChannels, chanIndex]

/-- A run can be cut in two. -/
theorem run_add {m n : Nat} : ∀ {s u : State}, Sys2Proof.core.run m s = .next u →
    Sys2Proof.core.run (m + n) s = Sys2Proof.core.run n u := by
  induction m with
  | zero =>
    intro s u h
    obtain rfl := Host.Outcome.next.inj h
    rw [Nat.zero_add]
  | succ m ih =>
    intro s u h
    rw [Nat.add_right_comm]
    simp only [Host.Core.run] at h ⊢
    split at h
    · exact ih h
    · cases h
    · cases h

section Phases

variable {x : Instr × Role × Phase} (hx : x ∈ filterRows)
include hx

/-- From its first sample a whole channel takes `2 * NBLK` steps. -/
theorem Filtering.run_whole_channel {s : State} (h : Filtering x.1 s) (hix : s.ix = 0) :
    ∃ t, Sys2Proof.core.run (2 * s.nblk) s = .next t ∧ ChannelFiltered x.2.1 s s.ch (wideBlock s) t ∧
      t.ix = 0 ∧ (chanIndex s.ch + 1 < s.nin → t.ch = .c1 ∧ t.ph = s.ph) ∧
      (s.nin ≤ chanIndex s.ch + 1 → t.ch = .c0 ∧ t.ph = x.2.2) := by
  obtain ⟨m, hm⟩ : ∃ m, 2 * s.nblk = m + 1 := ⟨2 * s.nblk - 1, by have := h.ix; omega⟩
  have hrun := h.run_channel hx m (by omega)
  rwa [← hm, hix, ← List.range_eq_range'] at hrun

/-- A whole phase filters the input channels one after the other. -/
theorem Filtering.run_phase {s : State} (h : Filtering x.1 s) (hch : s.ch = .c0) (hix : s.ix = 0)
    (hnin : s.nin = 1 ∨ s.nin = 2) :
    ∃ t, Sys2Proof.core.run (s.nin * (2 * s.nblk)) s = .next t ∧
      ChannelsFiltered x.2.1 s (inputChannels s.nin) t ∧ t.ph = x.2.2 ∧ t.ch = .c0 ∧ t.ix = 0 := by
  obtain ⟨u, hrun, hfirst, huix, hmore, hlast⟩ := h.run_whole_channel hx hix
  rw [hch] at hfirst hmore hlast
  obtain hone | htwo := hnin
  · obtain ⟨huch, huph⟩ := hlast hone.le
    rw [hone, Nat.one_mul]
    exact ⟨u, hrun, .cons hfirst (.nil _ u) List.not_mem_nil, huph, huch, huix⟩
  · obtain ⟨huch, huph⟩ := hmore (by rw [htwo]; decide)
    obtain ⟨hn, hnin, -, hbusy, hinputs⟩ := hfirst.frame.keeps
    rw [htwo] at hnin
    have hu : Filtering x.1 u :=
      ⟨hbusy.trans h.busy, huph.trans h.ph, hinputs.trans h.inputs, by rw [huch, hnin]; decide,
        by rw [huix, hn, ← hix]; exact h.ix⟩
    obtain ⟨t, hrun', hsecond, htix, -, hlast'⟩ := hu.run_whole_channel hx huix
    rw [huch] at hsecond hlast'
    rw [hn] at hrun'
    obtain ⟨htch, htph⟩ := hlast' hnin.le
    rw [htwo, Nat.two_mul (2 * s.nblk), run_add hrun]
    exact ⟨t, hrun', .cons hfirst (.cons hsecond (.nil _ t) List.not_mem_nil) (by decide), htph, htch, htix⟩

end Phases

/-- Settles O44: the phases of the statement are those of `filterRows`, and a run of a phase filters the input
channels. -/
theorem filterPhaseFiltersWholeBlock : Obligations.FilterPhaseFiltersWholeBlock := by
  intro x hx s hbusy hph hin hch hix hnin hn
  obtain ⟨y, hy, rfl⟩ := List.mem_map.1 (show x ∈ filterRows.map fun y => (instrPhase y.1, y.2) from hx)
  have h0 : chanIndex .c0 < s.nin := hnin.elim (· ▸ by decide) (· ▸ by decide)
  have h : Filtering y.1 s := ⟨hbusy, hph, hin, hch ▸ h0, by omega⟩
  obtain ⟨t, hrun, ⟨hfiltered, hkept, hroles, hbuf, hframe⟩, htph, htch, htix⟩ := h.run_phase hy hch hix hnin
  refine ⟨t, hrun, htph, htch, htix, fun c hc => hfiltered c ((mem_inputChannels c _).2 hc),
    fun c hc => hkept c fun hmem => absurd ((mem_inputChannels c _).1 hmem) (not_lt.2 hc), hroles, hbuf,
    Eq.trans hframe (by rw [htch, htix, hch, hix])⟩

/-! ### The peaking filter at 0 dB (R84, R135) -/

/-- A bundle of a filter that does nothing: `b0 = 1`, and the two pairs of coefficients equal. -/
structure Flat (k : Biquad) : Prop where
  b0 : k.b0 = 0x3F800000#32
  b1 : k.b1 = k.a1
  b2 : k.b2 = k.a2

/-- The new state words in terms of the output (R135). -/
theorem biquadStep_state (k : Biquad) (z : ZPair) (x : F) : (biquadStep k z x).2 =
    ⟨fadd (fsub (fmul k.b1 x) (fmul k.a1 (biquadStep k z x).1)) z.z2,
      fsub (fmul k.b2 x) (fmul k.a2 (biquadStep k z x).1)⟩ := rfl

section Flat

variable {k : Biquad} (hk : Flat k) {x : F} (hx : isFinite x = true)
include hk hx

/-- On a cleared state a flat filter lets a finite sample through, but for -0, which comes out as +0. -/
theorem biquadStep_flat_output :
    (biquadStep k ZPair.zero x).1 = if x = 0x80000000#32 then 0x00000000#32 else x := by
  rw [← fadd_zero x hx]
  simp only [biquadStep, hk.b0, fmul_one x hx, ZPair.zero]

variable (h1 : isFinite (fmul k.a1 x) = true) (h2 : isFinite (fmul k.a2 x) = true)
include h1 h2

/-- After a sample that is not -0 the products cancel, and the state stays +0. -/
theorem biquadStep_flat_state (hne : x ≠ 0x80000000#32) : (biquadStep k ZPair.zero x).2 = ZPair.zero := by
  have hy := (biquadStep_flat_output hk hx).trans (if_neg hne)
  have hzero : fadd 0x00000000#32 0x00000000#32 = 0x00000000#32 := fadd_zero _ (by decide)
  rw [biquadStep_state, hy, hk.b1, hk.b2, fsub_self _ h1, fsub_self _ h2]
  exact congrArg (ZPair.mk · _) hzero

/-- After a zero of either sign all products are zeros, and so are the state words. -/
theorem biquadStep_flat_state_isZero (hz : isZero x = true) :
    isZero (biquadStep k ZPair.zero x).2.z1 = true ∧ isZero (biquadStep k ZPair.zero x).2.z2 = true := by
  have hy : isZero (biquadStep k ZPair.zero x).1 = true := by
    rw [biquadStep_flat_output hk hx]
    split
    · decide
    · exact hz
  have hdiff {a : F} (ha : isFinite (fmul a x) = true) :
      isZero (fsub (fmul a x) (fmul a (biquadStep k ZPair.zero x).1)) = true :=
    have hfin := isFinite_of_fmul a x hx ha
    isZero_fsub _ _ (isZero_fmul_right a x hfin hz) (isZero_fmul_right a _ hfin hy)
  rw [biquadStep_state, hk.b1, hk.b2]
  exact ⟨isZero_fadd _ _ (hdiff h1) (by decide), hdiff h2⟩

end Flat

/-- Settles O45: the step of MID on a flat bundle, for a sample of -0 and for every other. -/
theorem flatMidFilterIsIdentity : Obligations.FlatMidFilterIsIdentity := by
  intro s hch hix hb0 hb1 hb2 hz hx h1 h2
  have hk : Flat s.co.mid := ⟨hb0, hb1, hb2⟩
  obtain ⟨t, hexec, hword, -, hstate, -⟩ := filterStep (.mid, .mid, .dist) (by simp) s hch hix
  have hcleared : (s.z.get .mid).get s.ch = ZPair.zero := hz
  rw [hcleared] at hword hstate
  have hstate' : t.z.mid.get s.ch =
      (biquadStep s.co.mid ZPair.zero (readWord s (wbufAddr s.nblk s.ch s.ix))).2 := hstate
  refine ⟨t, hexec, hword.trans (biquadStep_flat_output hk hx),
    fun hne => hstate'.trans (biquadStep_flat_state hk hx h1 h2 hne), ?_⟩
  rw [hstate']
  by_cases hneg : readWord s (wbufAddr s.nblk s.ch s.ix) = 0x80000000#32
  · exact biquadStep_flat_state_isZero hk hx h1 h2 (by rw [hneg]; decide)
  · rw [biquadStep_flat_state hk hx h1 h2 hneg]
    decide

end Sys2Proof.FilterRules

/-! The command packets one by one (44_port_commands.md R160 to R167). A packet is refused with the cause `refusal`
names (`exec_faults`, `exec_faults_answered`) or has its effect (`exec_accepted`); each statement is read off these, with
the conditions on the operands said in the spec's terms. -/

namespace Sys2Proof.PacketRules

open Sys2Proof.Machine Sys2Proof.StateRules Sys2Proof.MemoryRules Sys2Proof.BlockRules

/-! ### The two ways a packet ends (R181) -/

theorem exec_refused {s : State} {i : Instr} (hc : refusal s i ≠ .none) : exec i s = .next (refused s i) := by
  obtain ⟨t, ht⟩ := exec_total i s
  obtain (⟨-, rfl⟩ | ⟨hnone, -⟩) | he := exec_cases ht
  · exact ht
  · exact absurd hnone hc
  · have hnone : refusal s i = .none := by cases he <;> rfl
    exact absurd hnone hc

/-- A refused packet that is not answered records its cause and does nothing else. -/
theorem exec_faults {s : State} {i : Instr} {c : Cause} (hc : refusal s i = c) (hne : c ≠ .none)
    (hsilent : refused s i = raiseFault s (refusal s i)) : exec i s = .next (faultRecorded s c) := by
  subst hc
  rw [exec_refused hne, hsilent]
  rfl

/-- A refused read records its cause and answers an open word (R66). -/
theorem exec_faults_answered {s : State} {i : Instr} {c : Cause} (hc : refusal s i = c) (hne : c ≠ .none)
    (hread : refused s i = raiseReadFault s (refusal s i)) :
    ∃ w : F, exec i s = .next { faultRecorded s c with resp := s.resp ++ [(s.port, w)], draws := s.draws + 1 } := by
  subst hc
  rw [exec_refused hne, hread]
  exact ⟨_, rfl⟩

theorem exec_accepted {s : State} {i : Instr} (hi : Laws.codeFormat (encode i) = 0) (hc : refusal s i = .none) :
    ∃ t, exec i s = .next t ∧ PacketEffect s i t := by
  obtain ⟨t, ht⟩ := exec_total i s
  obtain ⟨hne, -⟩ | ⟨-, he⟩ := exec_packet hi ht
  · exact absurd hc hne
  · exact ⟨t, ht, he⟩

/-! ### Operands and ports -/

theorem badConfig_iff (n : Nat) (fs : F) : badConfig n fs = true ↔
    isNaN fs = true ∨ flt 0x00000000#32 fs = false ∨ fs = 0x7F800000#32 ∨ n = 0 ∨ Config.nblkMax < n := by
  simp [badConfig, fgt, fZero, or_assoc]

theorem legalLayout_iff_mem (nin nout : Nat) :
    legalLayout nin nout = true ↔ (nin, nout) ∈ [(1, 1), (1, 2), (2, 2)] := by
  simp [legalLayout_iff]

/-- On the audio port the check of the port passes. -/
theorem ne_control {s : State} (hp : s.port = .audio) : s.port ≠ .control := by simp [hp]

/-- On the control port the check of the port passes. -/
theorem ne_audio {s : State} (hp : s.port = .control) : s.port ≠ .audio := by simp [hp]

/-! ### What becomes of the memories -/

theorem cleared_zeroOs (c : Chan) : (zeroOs.get c).cleared := by
  have hzero : OsMem.zero.cleared := ⟨lengthsOk_zero, by simp [OsMem.zero]⟩
  cases c <;> exact hzero

theorem zeroZ_get (r : Role) (c : Chan) : (zeroZ.get r).get c = ⟨0x00000000#32, 0x00000000#32⟩ := by
  cases r <;> cases c <;> rfl

/-- RELEASE drops the entries of `WBUF` and renews its draw, so a word of `BUF` reads as before (R163). -/
theorem readWord_releaseStream {s : State} {a : Nat} (h : a < wbufBase) :
    readWord (releaseStream s) a = readWord s a := by
  have hmem : memLookup (releaseStream s).mem a = memLookup s.mem a :=
    memLookup_filter s.mem (fun b => decide (b < wbufBase)) a (decide_eq_true h)
  have hopen : unwrittenWord (releaseStream s) a = unwrittenWord s a := by simp [unwrittenWord, h]
  rw [readWord, hmem, hopen, readWord]

/-! ### The statements -/

/-- Settles O14: by the port and by `ST`; the filter of RELEASE keeps the words below `WBUF_BASE`. -/
theorem releaseEndsStream : Obligations.ReleaseEndsStream := by
  refine fun s => ⟨fun hp => exec_faults (if_pos hp) (by decide) rfl, fun hp hst => ?_, fun hp hst => ?_⟩
  all_goals obtain ⟨t, ht, he⟩ := exec_accepted rfl ((refusal_release_eq_none s).2 hp)
  · cases he
    case releaseNothing => exact ht
    case release hne => exact absurd hst hne
  · cases he
    case releaseNothing huninit => exact absurd huninit hst
    case release => exact ⟨_, ht, rfl, rfl, rfl, cleared_zeroOs, fun a ha => readWord_releaseStream ha, rfl⟩

/-- Settles O17: an accepted WRB is one write of the data space. -/
theorem wrbWritesBuffer : Obligations.WrbWritesBuffer := by
  refine fun c i v s => ⟨fun hp => exec_faults (if_pos hp) (by decide) rfl, fun hp hbad => ?_, fun hp hst hi => ?_⟩
  · exact exec_faults ((if_neg (ne_control hp)).trans (if_pos hbad)) (by decide) rfl
  · exact ⟨_, exec_wrb_accepted hp hst hi c v, readWord_writeWord_same s _ v,
      fun b hb => readWord_writeWord_other s _ b v hb, rfl⟩

/-- Settles O11: the arm of NOP is the identity. -/
theorem nopChangesNothing : Obligations.NopChangesNothing := fun _ => rfl

/-- Settles O12: by the port, then by the check of the operands. -/
theorem prepareStartsStream : Obligations.PrepareStartsStream := by
  refine fun n fs s => ⟨fun hp => exec_faults (if_pos hp) (by decide) rfl, fun hp hbad => ?_,
    fun hp hnan hpos hinf hzero hmax => ?_⟩
  · have hc : badConfig n fs = true := (badConfig_iff n fs).2 hbad
    exact exec_faults ((if_neg (ne_control hp)).trans (if_pos hc)) (by decide) rfl
  · have hc : badConfig n fs = false := by
      rw [← Bool.not_eq_true, badConfig_iff]
      simp [hnan, hpos, hinf, hzero, hmax]
    obtain ⟨t, ht, ⟨⟩⟩ := exec_accepted rfl ((refusal_prepare_eq_none s n fs).2 ⟨hp, hc⟩)
    exact ⟨_, ht, rfl, rfl, rfl, rfl, rfl, zeroZ_get, cleared_zeroOs, rfl⟩

/-- Settles O13: by the checks in the order of R183; the start of the block is `blockStarted`. -/
theorem processStartsBlock : Obligations.ProcessStartsBlock := by
  refine fun nout nin s => ⟨fun hp => exec_faults (if_pos hp) (by decide) rfl, fun hp hbad => ?_,
    fun hp hl hst => ?_, fun hp hl hst => ?_⟩
  · have hlayout : legalLayout nin nout = false := (legalLayout_eq_false_iff nin nout).2 hbad
    have hc : refusal s (.process nout nin) = .badLayout := by simp [refusal, hp, hlayout]
    exact exec_faults hc (by decide) rfl
  · have hc : refusal s (.process nout nin) = .notPrepared := by
      simp [refusal, hp, (legalLayout_iff_mem nin nout).2 hl, hst]
    exact exec_faults hc (by decide) rfl
  · exact exec_process_accepted
      ((refusal_process_eq_none s nout nin).2 ⟨hp, (legalLayout_iff_mem nin nout).2 hl, hst⟩)

/-- Settles O15: a row of the parameter table names its slot and its bounds, and WRP sets that slot alone. -/
theorem wrpStoresClampedValue : Obligations.WrpStoresClampedValue := by
  refine fun idx v s => ⟨fun hp => exec_faults (if_pos hp) (by decide) rfl, fun hp hbad => ?_, ?_⟩
  · exact exec_faults ((if_neg (ne_audio hp)).trans (if_pos hbad)) (by decide) rfl
  · rintro hp r hr rfl
    obtain ⟨hidx, hlo, hhi⟩ := parameterTable_slot r hr
    obtain ⟨t, ht, he⟩ := exec_accepted (i := .wrp r.idx v) rfl
      ((if_neg (ne_audio hp)).trans (if_neg (paramOfIdx_le hidx)))
    cases he
    case wrp p hport hslot =>
      obtain rfl : r.slot = p := Option.some.inj (hidx.symm.trans hslot)
      refine ⟨_, ht, ?_, fun q hq => Params.get_set_other s.param _ q _ hq, rfl⟩
      rw [Params.get_set_same, clampParam, hlo, hhi]

/-- Settles O16: an index of the parameter table is answered its slot, every other one is refused. -/
theorem rdpAnswersSlot : Obligations.RdpAnswersSlot := by
  refine fun idx s => ⟨fun hbad => exec_faults_answered (if_pos hbad) (by decide) rfl, ?_⟩
  rintro r hr rfl
  obtain ⟨hidx, -, -⟩ := parameterTable_slot r hr
  obtain ⟨t, ht, he⟩ := exec_accepted (i := .rdp r.idx) rfl (if_neg (paramOfIdx_le hidx))
  cases he
  case rdp p hslot =>
    obtain rfl : r.slot = p := Option.some.inj (hidx.symm.trans hslot)
    exact ht

/-- Settles O18: an accepted RDB is one read of the data space. -/
theorem rdbAnswersBuffer : Obligations.RdbAnswersBuffer := by
  refine fun c i s => ⟨fun hp => exec_faults_answered (if_pos hp) (by decide) rfl, fun hp hbad => ?_,
    fun hp hst hi => exec_rdb_accepted hp hst hi c⟩
  exact exec_faults_answered ((if_neg (ne_control hp)).trans (if_pos hbad)) (by decide) rfl

end Sys2Proof.PacketRules

/-! The sequencer's steps and the rest of the machine (60_exceptions.md R180, R188). `BlockFrame` lists what a block in
flight may write, and every phase and shaper keeps to it; a phase with nothing left at its position writes the position
alone. -/

namespace Sys2Proof.SequencerRules

open Sys2Proof.Machine Sys2Proof.StateRules Sys2Proof.MemoryRules

/-! ### What a block in flight may write (R180, 10_state.md R11, R14) -/

/-- From `s` to `t` nothing changed but what a block in flight works with: the position, `L` and `TYPE`, the coefficients,
the filter and oversampler memories, the data space, the words of a DIST sample, and the model's bookkeeping. -/
def BlockFrame (s t : State) : Prop :=
  t = { s with
    busy := t.busy, ph := t.ph, ch := t.ch, ix := t.ix, dstage := t.dstage, l := t.l, type := t.type, co := t.co,
    z := t.z, os := t.os, mem := t.mem, gate := t.gate, cg := t.cg, d0 := t.d0, d1 := t.d1, latchLeft := t.latchLeft,
    draws := t.draws }

theorem BlockFrame.trans {s t u : State} (h : BlockFrame s t) (h' : BlockFrame t u) : BlockFrame s u := by
  rw [BlockFrame] at h h' ⊢
  rw [h', h]

/-- What a block in flight has no part in. -/
theorem BlockFrame.keeps {s t : State} (h : BlockFrame s t) :
    t.fault = s.fault ∧ t.cause = s.cause ∧ t.param = s.param ∧ t.resp = s.resp ∧ t.inputs = s.inputs ∧
      t.fs = s.fs ∧ t.nblk = s.nblk ∧ t.st = s.st := by
  rw [BlockFrame] at h
  rw [h]
  exact ⟨rfl, rfl, rfl, rfl, rfl, rfl, rfl, rfl⟩

theorem blockFrame_enterPhase (s : State) (p : Phase) : BlockFrame s (enterPhase s p) := by
  obtain ⟨ph, ch, ix, dstage, busy, he, -⟩ := enterPhase_frame s p
  rw [he]
  rfl

theorem blockFrame_nextSample (s : State) (hi lim : Nat) (p : Phase) : BlockFrame s (nextSample s hi lim p) := by
  obtain ⟨ph, ch, ix, dstage, busy, he, -⟩ := nextSample_frame s hi lim p
  rw [he]
  rfl

theorem BlockFrame.enterPhase {s w : State} (h : BlockFrame s w) (p : Phase) : BlockFrame s (enterPhase w p) :=
  h.trans (blockFrame_enterPhase w p)

theorem BlockFrame.sampleStep {s w : State} (h : BlockFrame s w) (lo hi lim : Nat) (next : Phase) :
    BlockFrame s (sampleStep s lo hi lim w next) := by
  unfold StateRules.sampleStep
  split
  · exact h.trans (blockFrame_nextSample w hi lim next)
  · exact blockFrame_enterPhase s next

/-- Each phase and each shaper writes no more than a block in flight may. -/
theorem sequencerEffect_blockFrame {s t : State} {i : Instr} (h : SequencerEffect s i t) : BlockFrame s t := by
  cases h
  case latchExit | latchNone | latchLast | coef => exact BlockFrame.enterPhase (by rfl) _
  case clear | up | hpf | mid | distMix | lpf | down => exact BlockFrame.sampleStep (by rfl) _ _ _ _
  case latchBypass | latchOne | distGate | distShape | shapeWa | shapeSa | shapeBi => rfl

/-- Settles O23: the next state is an effect of the phase or shaper, and that writes only what a block works with. -/
theorem blockRaisesNothing : Obligations.BlockRaisesNothing := by
  have hseq : ∀ i ∈ [Instr.latch, .clear, .coef, .up, .hpf, .mid, .dist, .lpf, .down, .shapeWa, .shapeSa, .shapeBi],
      Laws.codeFormat (encode i) ≠ 0 := by decide
  intro i hi s
  obtain ⟨t, ht⟩ := exec_total i s
  exact ⟨t, ht, (sequencerEffect_blockFrame (exec_sequencer (hseq i hi) ht)).keeps⟩

/-! ### Positions that are no sample (R188; log 15) -/

theorem not_atSample_iff {s : State} {lo hi lim : Nat} :
    ¬ atSample s lo hi lim = true ↔ chanIndex s.ch < lo ∨ hi ≤ chanIndex s.ch ∨ lim ≤ s.ix := by
  rw [atSample_iff]
  omega

/-- Away from its samples a phase goes on to the next one, whatever it would have written. -/
theorem sampleStep_elsewhere {s w : State} {lo hi lim : Nat} {next : Phase}
    (h : chanIndex s.ch < lo ∨ hi ≤ chanIndex s.ch ∨ lim ≤ s.ix) : sampleStep s lo hi lim w next = enterPhase s next :=
  if_neg (not_atSample_iff.2 h)

theorem exec_clear_elsewhere {s : State} (h : chanIndex s.ch < s.nin ∨ s.nout ≤ chanIndex s.ch ∨ s.nblk ≤ s.ix) :
    exec .clear s = .next (enterPhase s .coef) :=
  (execClear_eq s).trans (congrArg _ (sampleStep_elsewhere h))

theorem exec_up_elsewhere {s : State} (h : s.nin ≤ chanIndex s.ch ∨ s.nblk ≤ s.ix) :
    exec .up s = .next (enterPhase s .hpf) :=
  (execUp_eq s).trans (congrArg _ (sampleStep_elsewhere (.inr h)))

theorem exec_down_elsewhere {s : State} (h : s.nin ≤ chanIndex s.ch ∨ s.nblk ≤ s.ix) :
    exec .down s = .next (enterPhase s .idle) :=
  (execDown_eq s).trans (congrArg _ (sampleStep_elsewhere (.inr h)))

/-- The four phases over the wide samples, the three filters by their rows and DIST. -/
theorem exec_wide_elsewhere {s : State} (h : s.nin ≤ chanIndex s.ch ∨ 2 * s.nblk ≤ s.ix) :
    ∀ x ∈ [(Instr.hpf, Phase.mid), (.mid, .dist), (.dist, .lpf), (.lpf, .down)],
      exec x.1 s = .next (enterPhase s x.2) := by
  have hfilter (x : Instr × Role × Phase) (hx : x ∈ FilterRules.filterRows) :
      exec x.1 s = .next (enterPhase s x.2.2) :=
    (FilterRules.exec_filterRow hx s).trans (congrArg _ (sampleStep_elsewhere (.inr h)))
  simp only [List.forall_mem_cons]
  exact ⟨hfilter (.hpf, .hp, .mid) (by decide), hfilter (.mid, .mid, .dist) (by decide),
    exec_dist_elsewhere (not_atSample_iff.2 (.inr h)), hfilter (.lpf, .lp, .down) (by decide), by simp⟩

/-- With no slot left LATCH computes `TYPE` from `L` and CLEAR begins. -/
theorem exec_latch_none {s : State} (hl : s.latchLeft = []) : exec .latch s = .next (endLatch s) := by
  simp [exec, execLatch, hl]

/-- Settles O34: each phase away from its samples only enters the next one. -/
theorem phaseWithoutSampleMovesOn : Obligations.PhaseWithoutSampleMovesOn := by
  refine fun s => ⟨fun x hx h => ?_, exec_up_elsewhere, exec_down_elsewhere, exec_clear_elsewhere, exec_latch_none⟩
  rw [exec_wide_elsewhere h x hx]
  simp only [List.mem_cons, List.not_mem_nil, or_false] at hx
  obtain rfl | rfl | rfl | rfl := hx <;> rfl

end Sys2Proof.SequencerRules
